-- ==== Sys2Proof/Word.lean ====
section
/-! DEFINITION. The bit-vector types of the block: bytes, 32-bit registers, offsets and the words of the channels. -/

namespace Sys2Proof

/-- A byte is 8 bits (20_memory.md R61). -/
abbrev Byte := BitVec 8

/-- The 32-bit registers and fields: type codes, lengths, checksums, `rsp.val`, and positions (`IDX_W` = 32, R14). -/
abbrev Word := BitVec 32

/-- Stream offsets and byte counts, `OFF_W` = 64 bits (00_scope.md R14). -/
abbrev Off := BitVec 64

/-- A command word of the `CMD` channel (30_encoding.md R101). -/
abbrev CmdWord := BitVec 72

/-- A token word of `DIN` or `DOUT` (30_encoding.md R100). -/
abbrev TokWord := BitVec 9

/-- A response record as one word (10_state.md R42). -/
abbrev RspWord := BitVec 144

end Sys2Proof
end

