-- ==== Sys2Proof/Config.lean ====
section
/-! DEFINITION. What is fixed for a block: the constants of 00_scope.md R13 and the parameters of R14. -/

namespace Sys2Proof.Config

/-- `SIG`, the file signature (00_scope.md R13, 30_encoding.md R91). -/
def sig : List Byte := [0x89, 0x50, 0x4E, 0x47, 0x0D, 0x0A, 0x1A, 0x0A]

/-- `MAX_LEN` = 2^31 - 1, the largest payload length (00_scope.md R13). -/
def maxLen : Nat := 2147483647

/-- `POLY`, the reflected CRC-32 polynomial (00_scope.md R13). -/
def poly : Word := 0xEDB88320#32

/-- `CRC_INIT` (00_scope.md R13). -/
def crcInit : Word := 0xFFFFFFFF#32

/-- `CRC_XOROUT` (00_scope.md R13). -/
def crcXorOut : Word := 0xFFFFFFFF#32

/-- The largest value of an `OFF_W`-bit offset (10_state.md R37, log 1). -/
def maxOff : Off := BitVec.allOnes 64

/-- The parameter `TextValid` as plain data (log 3): the default well-formed UTF-8 (42_chunk.md R186), or any other
predicate, named by a number and left uninterpreted. -/
inductive TextParam where
  | utf8
  | other (n : Nat)
  deriving DecidableEq, Repr

/-- FREE VALUE (log 3): a predicate "valid text" that is not the default. Nothing constrains it here; that every
instance accepts `"hello"` (42_chunk.md R184) is added where the parameter is used. -/
opaque textOther : Nat → List Byte → Bool

/-- The parameters of 00_scope.md R14 that a block fixes when it is built (log 2). -/
structure Params where
  /-- `CAP_CHUNKS`: the largest number of chunks the store holds, at most 2^`IDX_W` - 1. -/
  capChunks : Word
  /-- `CAP_BYTES`: the largest total of payload bytes held; `none` is unbounded. -/
  capBytes : Option Nat
  /-- `TextValid`. -/
  text : TextParam
  deriving DecidableEq, Repr

/-- The defaults of 00_scope.md R14. -/
def defaultParams : Params := { capChunks := 0xFFFFFFFF#32, capBytes := none, text := .utf8 }

end Sys2Proof.Config
end

