-- ==== Sys2Proof/Syntax.lean ====
section
/-! DEFINITION. The instructions of spec/opcode_table.json, one constructor per row, and the values they carry. -/

namespace Sys2Proof

/-- The 13 statuses of 60_exceptions.md R301. Their numbers are the encoding on the `RSP` channel. -/
inductive Status where
  | ok
  | notFound
  | invalidSignature
  | malformedChunk
  | invalidChunkType
  | chunkNotFound
  | invalidEncoding
  | noContainer
  | noChunk
  | badPosition
  | lengthOverflow
  | badOpcode
  | capacityExceeded
  deriving DecidableEq, Repr

/-- A response record (10_state.md R42). -/
structure Rsp where
  st : Status
  sub : Byte
  idx : Word
  off : Off
  val : Word
  deriving DecidableEq, Repr

/-- A chunk: a type code and a payload (10_state.md R23). Length and checksum are functions of it (R24, R25). -/
structure Chunk where
  ty : Word
  data : List Byte
  deriving DecidableEq, Repr

/-- A token of `DIN` or `DOUT`: a data byte or the end-of-buffer mark (30_encoding.md R100). -/
inductive Token where
  | b (data : Byte)
  | eob
  deriving DecidableEq, Repr

/-- One constructor per row of spec/opcode_table.json. A command carries the fields its opcode uses and no other
(30_encoding.md R101, R102). The four rows that are not commands (`SIGNATURE`, `CHUNK`, `TOKEN`, `RSP`) are the
elements of the channels; what running one means is log 11. -/
inductive Instr where
  | nop
  | crcCalc
  | tyCheck (tc : Word)
  | tyProps (tc : Word)
  | ckMake (tc : Word)
  | ckParse
  | ckSer
  | ckType
  | ckLen
  | ckCrc
  | ckData
  | ckText
  | ctParse
  | ctSer
  | ctAppend
  | ctInsert (pos : Word)
  | ctFind (tc pos : Word)
  | ctGet (pos : Word)
  | ctRemove (tc : Word)
  | ctList
  | ctCount
  /-- The signature as a stream element (R91). -/
  | signature
  /-- A serialized chunk as a stream element (R92); its length field is the payload's length. -/
  | chunk (ty : Word) (data : List Byte) (crc : Word)
  /-- One token word of `DIN` (R100); with `eob` set its data bits are ignored. -/
  | token (eob : Bool) (data : Byte)
  /-- A response record (R42). -/
  | rsp (r : Rsp)
  /-- A command word with one of the 235 undefined opcodes (R103). -/
  | undefinedOp (op : Byte)
  deriving DecidableEq, Repr

/-- The encoded forms: a command word, a token word, a response word, or bytes of a stream. -/
inductive Code where
  | cmd (w : CmdWord)
  | tok (w : TokWord)
  | rsp (w : RspWord)
  | stream (bs : List Byte)
  deriving DecidableEq, Repr

/-- Why the decoder refuses an encoded form. -/
inductive DecodeError where
  /-- `st` is none of the 13 codes of R301 ("Every other value of `st` is never produced"). -/
  | unknownStatus
  /-- `sub` is not one that R308 gives the status. -/
  | badSubCause
  /-- The bytes are too few for a signature or a chunk (R99). -/
  | streamTruncated
  /-- A length field above `MAX_LEN` (R99). -/
  | streamLengthTooLarge
  /-- The CRC field is not the checksum of type and payload (R99). -/
  | streamCrcMismatch
  /-- Bytes follow the one signature or chunk. -/
  | streamTrailing
  deriving DecidableEq, Repr

end Sys2Proof
end

