-- ==== Sys2Proof/Machine/Operands.lean ====
section
/-! DEFINITION. Operand forms: the assembly and splitting of 32-bit fields, the fields of a command word, tokens, and
the numbers of opcodes, statuses and sub-causes. -/

namespace Sys2Proof.Machine

/-- The four bytes of a 32-bit value, most significant first (00_scope.md section 6, 30_encoding.md R97). For a type
code these are `t[0] .. t[3]` in stream order (10_state.md R20). -/
def be32 (v : Word) : List Byte :=
  [v.extractLsb' 24 8, v.extractLsb' 16 8, v.extractLsb' 8 8, v.extractLsb' 0 8]

/-- The 32-bit value of four stream bytes (30_encoding.md R97). -/
def rd32 (b0 b1 b2 b3 : Byte) : Word :=
  (b0.setWidth 32 <<< 24) ||| (b1.setWidth 32 <<< 16) ||| (b2.setWidth 32 <<< 8) ||| b3.setWidth 32

/-- The framer's assembly of a field, one byte at a time (30_encoding.md R97). -/
def shiftIn (r : Word) (b : Byte) : Word := (r <<< 8) ||| b.setWidth 32

/-- The first four bytes of a list as a 32-bit value; missing bytes count as zero (used only on lists of four). -/
def wordOfBytes (bs : List Byte) : Word :=
  rd32 (bs.getD 0 0) (bs.getD 1 0) (bs.getD 2 0) (bs.getD 3 0)

/-- `op`, bits 71:64 of a command word (30_encoding.md R101). -/
def cmdOp (w : CmdWord) : Byte := w.extractLsb' 64 8

/-- `tc`, bits 63:32 of a command word (30_encoding.md R101). -/
def cmdTc (w : CmdWord) : Word := w.extractLsb' 32 32

/-- `pos`, bits 31:0 of a command word (30_encoding.md R101). -/
def cmdPos (w : CmdWord) : Word := w.extractLsb' 0 32

/-- A command word from its three fields (30_encoding.md R101). -/
def cmdWord (op : Byte) (tc pos : Word) : CmdWord :=
  (op.setWidth 72 <<< 64) ||| (tc.setWidth 72 <<< 32) ||| pos.setWidth 72

/-- A token word from its two fields (30_encoding.md R100). -/
def tokFields (eob : Bool) (data : Byte) : TokWord :=
  (if eob then 0x100#9 else 0x000#9) ||| data.setWidth 9

/-- The word of a token put on a channel: the data bits of `EOB` are 0 (30_encoding.md R100). -/
def tokWord (t : Token) : TokWord :=
  match t with
  | .b d => tokFields false d
  | .eob => tokFields true 0

/-- The token a word stands for: the data bits of `EOB` are ignored (30_encoding.md R100). -/
def tokenOf (eob : Bool) (data : Byte) : Token := if eob then .eob else .b data

/-- The tokens of a buffer: its bytes and then one `EOB` (30_encoding.md R100, 20_memory.md R78). -/
def bufferToks (bs : List Byte) : List TokWord := bs.map (fun b => tokWord (.b b)) ++ [tokWord .eob]

/-! The opcode map (30_encoding.md R102). -/

def opNop : Byte := 0x00#8
def opCrcCalc : Byte := 0x01#8
def opTyCheck : Byte := 0x10#8
def opTyProps : Byte := 0x11#8
def opCkMake : Byte := 0x20#8
def opCkParse : Byte := 0x21#8
def opCkSer : Byte := 0x22#8
def opCkType : Byte := 0x23#8
def opCkLen : Byte := 0x24#8
def opCkCrc : Byte := 0x25#8
def opCkData : Byte := 0x26#8
def opCkText : Byte := 0x27#8
def opCtParse : Byte := 0x30#8
def opCtSer : Byte := 0x31#8
def opCtAppend : Byte := 0x32#8
def opCtInsert : Byte := 0x33#8
def opCtFind : Byte := 0x34#8
def opCtGet : Byte := 0x35#8
def opCtRemove : Byte := 0x36#8
def opCtList : Byte := 0x37#8
def opCtCount : Byte := 0x38#8

/-- The 21 defined opcodes (30_encoding.md R102). -/
def definedOps : List Byte :=
  [opNop, opCrcCalc, opTyCheck, opTyProps, opCkMake, opCkParse, opCkSer, opCkType, opCkLen, opCkCrc, opCkData, opCkText,
    opCtParse, opCtSer, opCtAppend, opCtInsert, opCtFind, opCtGet, opCtRemove, opCtList, opCtCount]

/-- The status codes (60_exceptions.md R301). -/
def statusCode (st : Status) : Byte :=
  match st with
  | .ok => 0x00#8
  | .notFound => 0x01#8
  | .invalidSignature => 0x81#8
  | .malformedChunk => 0x82#8
  | .invalidChunkType => 0x83#8
  | .chunkNotFound => 0x84#8
  | .invalidEncoding => 0x85#8
  | .noContainer => 0xC1#8
  | .noChunk => 0xC2#8
  | .badPosition => 0xC3#8
  | .lengthOverflow => 0xC4#8
  | .badOpcode => 0xC5#8
  | .capacityExceeded => 0xC6#8

/-- All statuses, in the order of 60_exceptions.md R301. -/
def allStatuses : List Status :=
  [.ok, .notFound, .invalidSignature, .malformedChunk, .invalidChunkType, .chunkNotFound, .invalidEncoding,
    .noContainer, .noChunk, .badPosition, .lengthOverflow, .badOpcode, .capacityExceeded]

/-- The status of a code, when there is one (60_exceptions.md R301). -/
def statusOfCode (c : Byte) : Option Status := allStatuses.find? (fun st => statusCode st == c)

/-! Sub-causes (60_exceptions.md R308). -/

def subSigShort : Byte := 1#8
def subSigMismatch : Byte := 2#8
def subTruncated : Byte := 1#8
def subLengthTooLarge : Byte := 2#8
def subCrcMismatch : Byte := 3#8
def subNonLetter : Byte := 1#8
def subReservedBitSet : Byte := 2#8

/-- The sub-causes a status can carry (60_exceptions.md R308). -/
def subsOf (st : Status) : List Byte :=
  match st with
  | .invalidSignature => [subSigShort, subSigMismatch]
  | .malformedChunk => [subTruncated, subLengthTooLarge, subCrcMismatch]
  | .invalidChunkType => [subNonLetter, subReservedBitSet]
  | _ => [0#8]

end Sys2Proof.Machine
end

