-- ==== Sys2Proof/Machine/Flags.lean ====
section
/-! DEFINITION. The block stores no flag (10_state.md R41). Its only flag-like values are the predicates of a type
code (41_type_code.md), pure functions of the four type bytes. -/

namespace Sys2Proof.Machine

/-- Byte `i` (0 to 3) of a type code, in stream order (10_state.md R20). -/
def tyByte (t : Word) (i : Nat) : Byte := (be32 t).getD i 0

/-- The property bit of a type byte, bit 5 (41_type_code.md R150). -/
def propBit (b : Byte) : Bool := b.getLsbD 5

/-- An ASCII letter (41_type_code.md R151). -/
def isLetter (b : Byte) : Bool :=
  (0x41 ≤ b.toNat && b.toNat ≤ 0x5A) || (0x61 ≤ b.toNat && b.toNat ≤ 0x7A)

/-- All four bytes are letters (41_type_code.md R152). -/
def lettersOk (t : Word) : Bool := (be32 t).all isLetter

/-- The reserved bit is clear (41_type_code.md R152, R153). -/
def reservedOk (t : Word) : Bool := !propBit (tyByte t 2)

/-- Validity of a type code (41_type_code.md R152). -/
def validType (t : Word) : Bool := lettersOk t && reservedOk t

/-- `is_critical`, bit 5 of byte 0 clear (41_type_code.md R153). -/
def isCritical (t : Word) : Bool := !propBit (tyByte t 0)

/-- `is_public`, bit 5 of byte 1 clear (41_type_code.md R153). -/
def isPublic (t : Word) : Bool := !propBit (tyByte t 1)

/-- `is_safe_to_copy`, bit 5 of byte 3 set (41_type_code.md R153). -/
def isSafeToCopy (t : Word) : Bool := propBit (tyByte t 3)

/-- A one-bit value at bit `i` of a 32-bit word. -/
def bitAt (i : Nat) (v : Bool) : Word := if v then 1#32 <<< i else 0#32

/-- The property word of `TY_PROPS` (41_type_code.md R157). -/
def propsWord (t : Word) : Word :=
  bitAt 0 (validType t) ||| bitAt 1 (lettersOk t) ||| bitAt 2 (reservedOk t) ||| bitAt 3 (isCritical t)
    ||| bitAt 4 (isPublic t) ||| bitAt 5 (isSafeToCopy t)

end Sys2Proof.Machine
end

