-- ==== Sys2Proof/Machine/Crc.lean ====
section
/-! DEFINITION. The CRC unit (40_crc.md): the bit-serial byte update, the checksum, and the table form. -/

namespace Sys2Proof.Machine

/-- One iteration of the loop of 40_crc.md R131. -/
def crcBit (c : Word) : Word := if c.getLsbD 0 then (c >>> 1) ^^^ Config.poly else c >>> 1

/-- `n` iterations of the loop of 40_crc.md R131. -/
def crcBits : Nat → Word → Word
  | 0, c => c
  | n + 1, c => crcBits n (crcBit c)

/-- `crc_upd`, the byte update (40_crc.md R131). -/
def crcUpd (c : Word) (b : Byte) : Word := crcBits 8 (c ^^^ b.setWidth 32)

/-- `run`, the raw register after the bytes (40_crc.md R135). -/
def crcRun (c : Word) (bs : List Byte) : Word := bs.foldl crcUpd c

/-- `crc32`, the checksum of a byte list (40_crc.md R132). -/
def crc32 (bs : List Byte) : Word := crcRun Config.crcInit bs ^^^ Config.crcXorOut

/-- Entry `i` of the table of 40_crc.md R133. It is a constant, not state (10_state.md R45). -/
def crcTable (i : Byte) : Word := crcBits 8 (i.setWidth 32)

/-- The table form of the byte update (40_crc.md R133). -/
def crcUpdTable (c : Word) (b : Byte) : Word := crcTable ((c ^^^ b.setWidth 32).setWidth 8) ^^^ (c >>> 8)

end Sys2Proof.Machine
end

