-- ==== Sys2Proof/Machine/Functions.lean ====
section
/-! DEFINITION. The function level (00_scope.md R9): pure functions over byte lists and chunk lists. They are the
normative level; the token-level machine of Framer and Emitter must agree with them. -/

namespace Sys2Proof.Machine

/-- `len(c)` (10_state.md R23). -/
def chunkLen (c : Chunk) : Nat := c.data.length

/-- `crc(c)`, over the four type bytes and the payload (10_state.md R23, 40_crc.md R134). -/
def chunkCrc (c : Chunk) : Word := crc32 (be32 c.ty ++ c.data)

/-- The payload bytes a chunk list holds (20_memory.md R81). -/
def payloadBytes (cs : List Chunk) : Nat := (cs.map chunkLen).sum

/-- The four fields of a serialized chunk, for any value of the CRC field (30_encoding.md R92). -/
def chunkFields (ty : Word) (data : List Byte) (crc : Word) : List Byte :=
  be32 (BitVec.ofNat 32 data.length) ++ be32 ty ++ data ++ be32 crc

/-- `ser_chunk` (42_chunk.md R179). -/
def serChunk (c : Chunk) : List Byte := chunkFields c.ty c.data (chunkCrc c)

/-- `serialize` (44_serializer.md R243). -/
def serialize (cs : List Chunk) : List Byte := Config.sig ++ cs.flatMap serChunk

/-- The result of `parse_chunk`: the chunk and the offset after it, or a status with its sub-cause. -/
inductive ChunkResult where
  | ok (c : Chunk) (o : Nat)
  | fail (st : Status) (sub : Byte)
  deriving DecidableEq, Repr

/-- The result of `parse`: the chunks, or a status with sub-cause, chunk count and stream offset. -/
inductive ParseResult where
  | ok (cs : List Chunk)
  | fail (st : Status) (sub : Byte) (idx off : Nat)
  deriving DecidableEq, Repr

/-- The capacity limits of a parse (43_framer.md R226): the largest number of chunks, the largest total of payload bytes
held (`none` is no limit), and the payload bytes held beside the chunks being parsed. -/
structure Limits where
  chunks : Option Nat
  bytes : Option Nat
  beside : Nat
  deriving DecidableEq, Repr

/-- No capacity limit: D0's functions. -/
def noLimits : Limits := { chunks := none, bytes := none, beside := 0 }

/-- `n` payload bytes are within a capacity (20_memory.md R81). -/
def withinCap (cap : Option Nat) (n : Nat) : Bool :=
  match cap with
  | none => true
  | some k => n ≤ k

/-- `n` payload bytes may be held beside those held elsewhere. -/
def Limits.fits (lim : Limits) (n : Nat) : Bool := withinCap lim.bytes (lim.beside + n)

/-- The store already holds as many chunks as it may. -/
def Limits.full (lim : Limits) (n : Nat) : Bool :=
  match lim.chunks with
  | none => false
  | some k => k ≤ n

/-- `parse_chunk` (42_chunk.md R176), with the capacity test of 43_framer.md R226 at the place R215 gives it: `used`
payload bytes are held already. -/
def parseChunkWith (lim : Limits) (used : Nat) (buf : List Byte) (o : Nat) : ChunkResult :=
  let rem := buf.drop o
  if rem.length < 4 then .fail .malformedChunk subTruncated
  else
    let L := (wordOfBytes rem).toNat
    if Config.maxLen < L then .fail .malformedChunk subLengthTooLarge
    else if !lim.fits (used + L) then .fail .capacityExceeded 0
    else if rem.length < 12 + L then .fail .malformedChunk subTruncated
    else
      let c : Chunk := { ty := wordOfBytes (rem.drop 4), data := (rem.drop 8).take L }
      if wordOfBytes (rem.drop (8 + L)) = chunkCrc c then .ok c (o + 12 + L)
      else .fail .malformedChunk subCrcMismatch

/-- `parse_chunk` (42_chunk.md R176). -/
def parseChunk (buf : List Byte) (o : Nat) : ChunkResult := parseChunkWith noLimits 0 buf o

/-- The loop of 43_framer.md R205 with the capacity tests of R226. The first argument bounds the number of turns; the
buffer's length is enough, since every chunk takes at least 12 bytes. -/
def parseLoop (lim : Limits) (buf : List Byte) : Nat → Nat → List Chunk → ParseResult
  | 0, _, cs => .ok cs
  | k + 1, o, cs =>
    if o < buf.length then
      match parseChunkWith lim (payloadBytes cs) buf o with
      | .ok c o' =>
        if lim.full cs.length then .fail .capacityExceeded 0 cs.length o
        else parseLoop lim buf k o' (cs ++ [c])
      | .fail st sub => .fail st sub cs.length o
    else .ok cs

/-- `parse` (43_framer.md R205) under capacity limits (R226). -/
def parseWith (lim : Limits) (buf : List Byte) : ParseResult :=
  if buf.take 8 ≠ Config.sig.take buf.length then .fail .invalidSignature subSigMismatch 0 0
  else if buf.length < 8 then .fail .invalidSignature subSigShort 0 0
  else parseLoop lim buf buf.length 8 []

/-- `parse` under all limits of 43_framer.md R226, that of `OFF_W` too: a byte that `off` cannot count is met where the
parse of the bytes before it would find the buffer ended, and is a capacity failure instead. -/
def parseBounded (lim : Limits) (buf : List Byte) : ParseResult :=
  if buf.length ≤ Config.maxOff.toNat then parseWith lim buf
  else
    match parseWith lim (buf.take Config.maxOff.toNat) with
    | .ok cs => .fail .capacityExceeded 0 cs.length Config.maxOff.toNat
    | .fail st sub k o =>
      if st = .malformedChunk ∧ sub = subTruncated then .fail .capacityExceeded 0 k o else .fail st sub k o

/-- `parse` (43_framer.md R205). -/
def parse (buf : List Byte) : ParseResult := parseWith noLimits buf

/-- `insert` (45_container_ops.md R263). -/
def insertAt (cs : List Chunk) (p : Nat) (c : Chunk) : List Chunk := cs.take p ++ [c] ++ cs.drop p

/-- The search of 45_container_ops.md R269 over the positions `i, i+1, …` of the chunks given, from `s` on. -/
def findGo (t : Word) (s : Nat) : Nat → List Chunk → Option Nat
  | _, [] => none
  | i, c :: cs => if s ≤ i && c.ty == t then some i else findGo t s (i + 1) cs

/-- `find_from` (45_container_ops.md R269). -/
def findFrom (cs : List Chunk) (t : Word) (s : Nat) : Option Nat := findGo t s 0 cs

/-- The turns of `find_all` (45_container_ops.md R270); the first argument bounds their number. -/
def findAllGo (cs : List Chunk) (t : Word) : Nat → Nat → List Nat
  | 0, _ => []
  | k + 1, s =>
    match findFrom cs t s with
    | none => []
    | some i => i :: findAllGo cs t k (i + 1)

/-- `find_all` (45_container_ops.md R270). -/
def findAll (cs : List Chunk) (t : Word) : List Nat := findAllGo cs t (cs.length + 1) 0

/-- `remove` (45_container_ops.md R273): the remaining chunks, the position and the removed chunk; `none` is
`ChunkNotFound`. -/
def removeFirst (cs : List Chunk) (t : Word) : Option (List Chunk × Nat × Chunk) :=
  match findFrom cs t 0 with
  | none => none
  | some i =>
    match cs[i]? with
    | none => none
    | some c => some (cs.take i ++ cs.drop (i + 1), i, c)

/-- `list_types` (45_container_ops.md R280). -/
def listTypes (cs : List Chunk) : List Word := cs.map Chunk.ty

/-- The bytes of the type codes, in order (45_container_ops.md R282). -/
def typeBytes (cs : List Chunk) : List Byte := (listTypes cs).flatMap be32

end Sys2Proof.Machine
end

