-- ==== Sys2Proof/Machine/State.lean ====
section
/-! DEFINITION. The state of the block (10_state.md), its reset value (R47), and the reasons a step can stop. -/

namespace Sys2Proof.Machine

/-- The phase register's values (10_state.md R38). -/
inductive Phase where
  | idle
  /-- Framer phases (43_framer.md R208). -/
  | sig | len | type | data | crc | trail | drain
  /-- The loader phase (42_chunk.md R174, 40_crc.md R141). -/
  | load
  /-- Emitter phases (44_serializer.md R245). -/
  | sSig | sLen | sType | sData | sCrc | sRaw | sEob
  deriving DecidableEq, Repr

/-- A pending failure (10_state.md R40). -/
structure PendingError where
  st : Status
  sub : Byte
  idx : Word
  off : Off
  deriving DecidableEq, Repr

/-- The whole state: what lasts between commands (`cont`, `ck`, the four channels: 10_state.md R31, R39), the working
registers (R32 to R40), and the parameters the block was built with (00_scope.md R14, log 2). -/
structure State where
  /-- MODEL'S OWN FIELD: the parameters of R14; no step changes them (10_state.md R43). -/
  params : Config.Params
  /-- The container register (10_state.md R21). -/
  cont : Option (List Chunk)
  /-- The staged chunk register (10_state.md R22). -/
  ck : Option Chunk
  /-- The command channel, oldest first (10_state.md R39). -/
  cmd : List CmdWord
  /-- The input channel, oldest first (10_state.md R39). -/
  din : List TokWord
  /-- The output channel, oldest first (10_state.md R39). -/
  dout : List TokWord
  /-- The response channel, oldest first (10_state.md R39). -/
  rsp : List Rsp
  /-- The phase (10_state.md R38). -/
  ph : Phase
  /-- The opcode of the running command (10_state.md R38). -/
  op : Byte
  /-- The raw CRC register (10_state.md R32). -/
  crc : Word
  /-- The declared length (10_state.md R33). -/
  len : Word
  /-- The type code of the chunk being framed or emitted (10_state.md R34, log 21). -/
  tc : Word
  /-- The CRC received (10_state.md R35). -/
  rxcrc : Word
  /-- Bytes of the current field (10_state.md R36). -/
  cnt : Word
  /-- Bytes of the current buffer (10_state.md R37). -/
  off : Off
  /-- Offset of the first byte of the current chunk (10_state.md R37). -/
  cstart : Off
  /-- Offset after the chunk of `CK_PARSE` (10_state.md R37). -/
  cend : Off
  /-- Payload being framed or loaded (10_state.md R40). -/
  pbuf : List Byte
  /-- Chunks framed so far by `CT_PARSE` (10_state.md R40). -/
  stg : List Chunk
  /-- The pending failure (10_state.md R40). -/
  perr : Option PendingError
  /-- Position of the chunk being emitted (10_state.md R40). -/
  sidx : Word
  deriving DecidableEq, Repr

/-- What the function level sees of a state (00_scope.md R10): `cont`, `ck`, and the fixed parameters. -/
structure Arch where
  params : Config.Params
  cont : Option (List Chunk)
  ck : Option Chunk
  deriving DecidableEq, Repr

/-- The result of a whole transaction at the function level (00_scope.md R10): the state after it, the response, and the
output buffer, absent for commands that emit no data. -/
structure Txn where
  arch : Arch
  rsp : Rsp
  out : Option (List Byte)
  deriving DecidableEq, Repr

/-- The state after reset (70_reset_and_hazards.md R340, 10_state.md R47). The working registers are unspecified there
and never read before written; the zeros are the model's choice (DESIGN CHOICE, log 4). -/
def State.reset : State :=
  { params := Config.defaultParams
    cont := none
    ck := none
    cmd := []
    din := []
    dout := []
    rsp := []
    ph := .idle
    op := 0
    crc := 0
    len := 0
    tc := 0
    rxcrc := 0
    cnt := 0
    off := 0
    cstart := 0
    cend := 0
    pbuf := []
    stg := []
    perr := none
    sidx := 0 }

/-- Why a step faults. The block has no fault of its own (60_exceptions.md R321); each of these is a state that no run from
reset reaches (log 13), where the model stops rather than invent an effect. -/
inductive Fault where
  /-- Raised by the token and emitter steps when the running opcode does not use the phase (43_framer.md R208,
  44_serializer.md R245). Safe: the model stops. -/
  | phaseOpMismatch
  /-- Raised by the token and emitter steps when `cnt` is not below the size of the field. Safe: the model stops. -/
  | counterOutOfField
  /-- Raised by the emitter steps when there is no chunk or container to emit. Safe: the model stops. -/
  | nothingToEmit
  /-- Raised at `EOB` in `DRAIN` when no failure is pending. Safe: the model stops. -/
  | noPendingFailure
  deriving DecidableEq, Repr

/-- Why a step refuses. -/
inductive Refusal where
  /-- Raised by `exec`'s arm for an instruction that has no meaning yet; no arm raises it now. Safe. -/
  | notModelled (mnemonic : String)
  deriving DecidableEq, Repr

/-- The outcome of one step. -/
abbrev Result := Host.Outcome State Fault Refusal

end Sys2Proof.Machine
end

