-- ==== Sys2Proof/Machine/Text.lean ====
section
/-! DEFINITION. The parameter `TextValid` of `CK_TEXT` (42_chunk.md R184, R186). -/

namespace Sys2Proof.Machine

/-- `b` lies between `lo` and `hi`. -/
def inRange (r : Byte × Byte) (b : Byte) : Bool := r.1.toNat ≤ b.toNat && b.toNat ≤ r.2.toNat

/-- The rows of the table of 42_chunk.md R186: the range of the first byte, and the ranges of the bytes that must follow. -/
def utf8Rows : List ((Byte × Byte) × List (Byte × Byte)) :=
  [((0x00, 0x7F), []),
   ((0xC2, 0xDF), [(0x80, 0xBF)]),
   ((0xE0, 0xE0), [(0xA0, 0xBF), (0x80, 0xBF)]),
   ((0xE1, 0xEC), [(0x80, 0xBF), (0x80, 0xBF)]),
   ((0xED, 0xED), [(0x80, 0x9F), (0x80, 0xBF)]),
   ((0xEE, 0xEF), [(0x80, 0xBF), (0x80, 0xBF)]),
   ((0xF0, 0xF0), [(0x90, 0xBF), (0x80, 0xBF), (0x80, 0xBF)]),
   ((0xF1, 0xF3), [(0x80, 0xBF), (0x80, 0xBF), (0x80, 0xBF)]),
   ((0xF4, 0xF4), [(0x80, 0x8F), (0x80, 0xBF), (0x80, 0xBF)])]

/-- What must follow a first byte, or `none` for a byte that starts no sequence. -/
def utf8Follow (b : Byte) : Option (List (Byte × Byte)) :=
  (utf8Rows.find? (fun row => inRange row.1 b)).map Prod.snd

/-- `utf8Go due bs`: the bytes begin with ones in the ranges `due`, and whole sequences follow. -/
def utf8Go : List (Byte × Byte) → List Byte → Bool
  | [], [] => true
  | _ :: _, [] => false
  | r :: due, b :: bs => inRange r b && utf8Go due bs
  | [], b :: bs =>
    match utf8Follow b with
    | none => false
    | some due => utf8Go due bs

/-- Well-formed UTF-8 (42_chunk.md R186). -/
def utf8Valid (bs : List Byte) : Bool := utf8Go [] bs

/-- The bytes of `"hello"`, which every `TextValid` accepts (42_chunk.md R184). -/
def helloBytes : List Byte := [0x68, 0x65, 0x6C, 0x6C, 0x6F]

/-- `TextValid` (42_chunk.md R184): the default, or another predicate, which accepts at least `"hello"` (log 3). -/
def textValid (p : Config.TextParam) (bs : List Byte) : Bool :=
  match p with
  | .utf8 => utf8Valid bs
  | .other n => bs == helloBytes || Config.textOther n bs

end Sys2Proof.Machine
end

