-- ==== Sys2Proof/Machine/Ops.lean ====
section
/-! DEFINITION. The shared operations on the state: channels, acceptance, the response, raising an error, capacities, and
which phase takes or emits how many bytes for which command. -/

namespace Sys2Proof.Machine

/-! Building responses. -/

/-- A count or position in a 32-bit response field (10_state.md R42). -/
def idxOf (n : Nat) : Word := BitVec.ofNat 32 n

/-- An offset or byte count in a 64-bit response field (10_state.md R42). -/
def offOf (n : Nat) : Off := BitVec.ofNat 64 n

/-- A response; every field a rule does not name is 0 (10_state.md R42). -/
def mkRsp (st : Status) (sub : Byte := 0) (idx : Word := 0) (off : Off := 0) (val : Word := 0) : Rsp :=
  { st := st, sub := sub, idx := idx, off := off, val := val }

/-! The function level's view. -/

/-- The pair the function level works on (00_scope.md R10). -/
def State.arch (s : State) : Arch := { params := s.params, cont := s.cont, ck := s.ck }

/-- The number of chunks held, 0 without a container. -/
def Arch.count (a : Arch) : Nat := ((a.cont.getD []).length)

/-- The payload bytes `cont` holds. -/
def Arch.contBytes (a : Arch) : Nat := payloadBytes (a.cont.getD [])

/-- The payload bytes `ck` holds. -/
def Arch.ckBytes (a : Arch) : Nat := (a.ck.map chunkLen).getD 0

/-- `CAP_BYTES` allows `n` payload bytes to be held (20_memory.md R81). -/
def capFits (p : Config.Params) (n : Nat) : Bool := withinCap p.capBytes n

/-- The store holds `CAP_CHUNKS` chunks already (60_exceptions.md R312). -/
def capFull (p : Config.Params) (n : Nat) : Bool := p.capChunks.toNat ≤ n

/-- A transaction that changes nothing and emits nothing. -/
def Arch.answer (a : Arch) (r : Rsp) : Txn := { arch := a, rsp := r, out := none }

/-- A transaction that changes nothing and emits a buffer. -/
def Arch.emit (a : Arch) (r : Rsp) (out : List Byte) : Txn := { arch := a, rsp := r, out := some out }

/-! Channels. -/

/-- `DoutPut` (00_scope.md section 6). -/
def State.putTok (s : State) (t : Token) : State := { s with dout := s.dout ++ [tokWord t] }

/-- A whole output buffer with its `EOB`; nothing for a command that emits no data (20_memory.md R78). -/
def State.putBuffer (s : State) (out : Option (List Byte)) : State :=
  match out with
  | none => s
  | some bs => { s with dout := s.dout ++ bufferToks bs }

/-- A token that no rule takes stays at the head of `DIN` (20_memory.md R78, log 12). -/
def State.putBack (s : State) (ts : List TokWord) : State := { s with din := ts ++ s.din }

/-! Acceptance, response, errors. -/

/-- Acceptance writes the opcode register (46_system.md R290). -/
def State.accept (s : State) (op : Byte) : State := { s with op := op }

/-- `respond` (46_system.md R290): the record goes to `RSP` and the phase to `IDLE`. -/
def State.respond (s : State) (r : Rsp) : State := { s with rsp := s.rsp ++ [r], ph := .idle }

/-- RAISING AN ERROR (60_exceptions.md R300, R321): the whole of it is to put the record with the error status on `RSP` and
to set `ph` to `IDLE`. Nothing is saved and no handler runs; the return is the acceptance of the next command. -/
def State.raise (s : State) (st : Status) (sub : Byte) (idx : Word) (off : Off) (val : Word) : State :=
  s.respond { st := st, sub := sub, idx := idx, off := off, val := val }

/-- A transaction done at once: registers, output buffer, then the response (46_system.md R292). -/
def State.complete (s : State) (t : Txn) : State :=
  (({ s with cont := t.arch.cont, ck := t.arch.ck }).putBuffer t.out).respond t.rsp

/-- An error met before the end of the buffer is kept and the rest of the buffer is drained (43_framer.md R222, R223). -/
def State.toDrain (s : State) (e : PendingError) : State := { s with perr := some e, ph := .drain }

/-- The failure of the chunk being framed: the position it would have had and where it starts (43_framer.md R201). -/
def State.chunkError (s : State) (st : Status) (sub : Byte) : PendingError :=
  { st := st, sub := sub, idx := idxOf s.stg.length, off := s.cstart }

/-- The capacity failure of the loader phase: its commands stage no chunk and do not read the chunks of `cont`, so the count
is 0 (60_exceptions.md R312, 40_crc.md R140, log 7). -/
def loadCapacityError : PendingError := { st := .capacityExceeded, sub := 0, idx := 0, off := 0 }

/-- The response to a pending failure (43_framer.md R223). -/
def pendingRsp (e : PendingError) : Rsp := { st := e.st, sub := e.sub, idx := e.idx, off := e.off, val := 0 }

/-! Phases. -/

/-- The phases that take tokens of `DIN` (46_system.md R291). -/
def Phase.isInput (p : Phase) : Bool :=
  match p with
  | .sig | .len | .type | .data | .crc | .trail | .drain | .load => true
  | _ => false

/-- The phases that put tokens on `DOUT` (46_system.md R291). -/
def Phase.isEmitter (p : Phase) : Bool :=
  match p with
  | .sSig | .sLen | .sType | .sData | .sCrc | .sRaw | .sEob => true
  | _ => false

/-- Which commands use a phase (43_framer.md R208, 44_serializer.md R245, 42_chunk.md R174, 40_crc.md R141). `DRAIN` serves
all four commands that take data. -/
def Phase.usedBy (p : Phase) (op : Byte) : Bool :=
  match p with
  | .idle => true
  | .sig => op == opCtParse
  | .len | .type | .data | .crc => op == opCtParse || op == opCkParse
  | .trail => op == opCkParse
  | .drain => op == opCtParse || op == opCkParse || op == opCkMake || op == opCrcCalc
  | .load => op == opCkMake || op == opCrcCalc
  | .sSig => op == opCtSer
  | .sLen | .sType | .sData | .sCrc => op == opCtSer || op == opCkSer
  | .sRaw => op == opCkData || op == opCkText || op == opCtList
  | .sEob => op == opCtSer || op == opCkSer || op == opCkData || op == opCkText || op == opCtList

/-- A byte taken in a counting phase or emitted (43_framer.md R210, 44_serializer.md R248). -/
def State.tick (s : State) : State := { s with off := s.off + 1, cnt := s.cnt + 1 }

/-- The next field begins: the counter starts again. -/
def State.enter (s : State) (p : Phase) : State := { s with ph := p, cnt := 0 }

/-- `c <- chunk; ph <- S_LEN` (44_serializer.md R247, R248): the emission of a chunk begins, and `tc` is its type code
(10_state.md R34; that it is loaded here is log 21). -/
def State.beginChunk (s : State) (c : Chunk) : State := { s.enter .sLen with tc := c.ty }

end Sys2Proof.Machine
end

