-- ==== Sys2Proof/Machine/Framer.lean ====
section
/-! DEFINITION. The input side at the token level: the framer of 43_framer.md (shared by `CT_PARSE` and `CK_PARSE`) and
the loader of 42_chunk.md R174 (`CK_MAKE`) and 40_crc.md R141 (`CRC_CALC`). -/

namespace Sys2Proof.Machine

/-! Start rules. -/

/-- Start of `CT_PARSE` (43_framer.md R209). -/
def State.startCtParse (s : State) : State :=
  { s with cont := none, stg := [], perr := none, off := 0, cstart := 0, cnt := 0, ph := .sig }

/-- Start of `CK_PARSE` (43_framer.md R209). -/
def State.startCkParse (s : State) : State :=
  { s with ck := none, stg := [], perr := none, off := 0, cstart := 0, cnt := 0, len := 0, ph := .len }

/-- Start of `CK_MAKE` (42_chunk.md R174). -/
def State.startCkMake (s : State) (tc : Word) : State :=
  { s with ck := none, tc := tc, crc := crcRun Config.crcInit (be32 tc), len := 0, off := 0, pbuf := [], perr := none,
           ph := .load }

/-- Start of `CRC_CALC` (40_crc.md R141). -/
def State.startCrcCalc (s : State) : State := { s with crc := Config.crcInit, off := 0, ph := .load }

/-! A byte token `B(b)`. -/

/-- The size of the field a counting phase takes (43_framer.md R208). -/
def State.fieldSize (s : State) : Nat :=
  match s.ph with
  | .sig => 8
  | .len | .type | .crc => 4
  | .data => s.len.toNat
  | _ => 0

/-- `SIG`, `B(b)` (43_framer.md R211, R213). -/
def State.takeSig (s : State) (b : Byte) : State :=
  let s1 := s.tick
  if Config.sig[s.cnt.toNat]? = some b then
    if s1.cnt = 8 then { (s1.enter .len) with len := 0, cstart := s1.off } else s1
  else s1.toDrain { st := .invalidSignature, sub := subSigMismatch, idx := 0, off := 0 }

/-- The payload bytes held beside the chunk being framed (20_memory.md R81, log 5). -/
def State.framedBytes (s : State) : Nat := s.arch.contBytes + s.arch.ckBytes + payloadBytes s.stg

/-- `LEN` complete (43_framer.md R215, R226). -/
def State.lenComplete (s : State) : State :=
  if Config.maxLen < s.len.toNat then s.toDrain (s.chunkError .malformedChunk subLengthTooLarge)
  else if !capFits s.params (s.framedBytes + s.len.toNat) then s.toDrain (s.chunkError .capacityExceeded 0)
  else { (s.enter .type) with tc := 0, crc := Config.crcInit, pbuf := [] }

/-- `LEN`, `B(b)` (43_framer.md R214). -/
def State.takeLen (s : State) (b : Byte) : State :=
  let s1 := { s.tick with len := shiftIn s.len b }
  if s1.cnt = 4 then s1.lenComplete else s1

/-- `TYPE`, `B(b)` (43_framer.md R216). -/
def State.takeType (s : State) (b : Byte) : State :=
  let s1 := { s.tick with tc := shiftIn s.tc b, crc := crcUpd s.crc b }
  if s1.cnt = 4 then { (s1.enter (if s1.len = 0 then .crc else .data)) with rxcrc := 0 } else s1

/-- `DATA`, `B(b)` (43_framer.md R217). -/
def State.takeData (s : State) (b : Byte) : State :=
  let s1 := { s.tick with pbuf := s.pbuf ++ [b], crc := crcUpd s.crc b }
  if s1.cnt = s1.len then { (s1.enter .crc) with rxcrc := 0 } else s1

/-- The chunk framed (43_framer.md R219). -/
def State.framed (s : State) : Chunk := { ty := s.tc, data := s.pbuf }

/-- `CRC` complete (43_framer.md R219, R226). -/
def State.crcComplete (s : State) : State :=
  if s.rxcrc = s.crc ^^^ Config.crcXorOut then
    if s.op = opCtParse then
      if capFull s.params s.stg.length then s.toDrain (s.chunkError .capacityExceeded 0)
      else { (s.enter .len) with stg := s.stg ++ [s.framed], len := 0, cstart := s.off }
    else { s with ck := some s.framed, cend := s.off, ph := .trail }
  else s.toDrain (s.chunkError .malformedChunk subCrcMismatch)

/-- `CRC`, `B(b)` (43_framer.md R218). -/
def State.takeCrc (s : State) (b : Byte) : State :=
  let s1 := { s.tick with rxcrc := shiftIn s.rxcrc b }
  if s1.cnt = 4 then s1.crcComplete else s1

/-- `LOAD`, `B(b)` for `CK_MAKE` (42_chunk.md R174; the capacities of 60_exceptions.md R312, log 6). -/
def State.takeMake (s : State) (b : Byte) : State :=
  if Config.maxLen ≤ s.len.toNat then s.toDrain { st := .lengthOverflow, sub := 0, idx := 0, off := 0 }
  else if s.off = Config.maxOff || !capFits s.params (s.arch.contBytes + s.pbuf.length + 1) then
    s.toDrain loadCapacityError
  else { s with pbuf := s.pbuf ++ [b], crc := crcUpd s.crc b, len := s.len + 1, off := s.off + 1 }

/-- `LOAD`, `B(b)` for `CRC_CALC` (40_crc.md R140, R141). -/
def State.takeCalc (s : State) (b : Byte) : State :=
  if s.off = Config.maxOff then s.toDrain loadCapacityError
  else { s with crc := crcUpd s.crc b, off := s.off + 1 }

/-- A byte in a counting phase whose counter stands inside its field. -/
def State.takeCounted (s : State) (b : Byte) : State :=
  match s.ph with
  | .sig => s.takeSig b
  | .len => s.takeLen b
  | .type => s.takeType b
  | .data => s.takeData b
  | .crc => s.takeCrc b
  | _ => s

/-- `B(b)` in any input phase: the column of the transition table 43_framer.md R227, and the loader. A byte that would take
`off` past 2^64 - 1 is a capacity failure instead (43_framer.md R226, log 9). -/
def takeByte (b : Byte) (s : State) : Result :=
  match s.ph with
  | .trail => .next s
  | .drain => .next s
  | .load => .next (if s.op = opCkMake then s.takeMake b else s.takeCalc b)
  | _ =>
    if s.fieldSize ≤ s.cnt.toNat then .fault .counterOutOfField
    else if s.off = Config.maxOff then .next (s.toDrain (s.chunkError .capacityExceeded 0))
    else .next (s.takeCounted b)

/-! The token `EOB`. -/

/-- `EOB` inside a chunk (43_framer.md R221). -/
def State.truncated (s : State) : State :=
  s.raise .malformedChunk subTruncated (idxOf s.stg.length) s.cstart 0

/-- `LEN`, `EOB` with `cnt = 0` in `CT_PARSE`: the commit (43_framer.md R220, R224). -/
def State.commit (s : State) : State :=
  { s with cont := some s.stg }.respond (mkRsp .ok (idx := idxOf s.stg.length) (off := s.off))

/-- `LOAD`, `EOB` (42_chunk.md R174, 40_crc.md R141). -/
def State.loadDone (s : State) : State :=
  let r := mkRsp .ok (off := s.off) (val := s.crc ^^^ Config.crcXorOut)
  if s.op = opCkMake then { s with ck := some s.framed }.respond r else s.respond r

/-- `EOB` in any input phase: the column of the transition table 43_framer.md R227, and the loader. -/
def takeEob (s : State) : Result :=
  match s.ph with
  | .sig => .next (s.raise .invalidSignature subSigShort 0 0 0)
  | .len => .next (if s.op = opCtParse && s.cnt = 0 then s.commit else s.truncated)
  | .trail => .next (s.respond (mkRsp .ok (off := s.cend) (val := s.crc ^^^ Config.crcXorOut)))
  | .drain =>
    match s.perr with
    | none => .fault .noPendingFailure
    | some e => .next (s.respond (pendingRsp e))
  | .load => .next s.loadDone
  | _ => .next s.truncated

/-! Any token. -/

/-- The rule for (phase, token) (46_system.md R291). In a phase that takes no input the token stays in `DIN` (20_memory.md
R78, 70_reset_and_hazards.md R353; log 12). -/
def takeToken (t : Token) (word : TokWord) (s : State) : Result :=
  if !s.ph.isInput then .next (s.putBack [word])
  else if !s.ph.usedBy s.op then .fault .phaseOpMismatch
  else
    match t with
    | .b d => takeByte d s
    | .eob => takeEob s

/-- The bytes of a stream element, taken one token after another. -/
def feedBytes : List Byte → State → Result
  | [], s => .next s
  | b :: bs, s =>
    match takeToken (.b b) (tokWord (.b b)) s with
    | .next s' => feedBytes bs s'
    | .fault r => .fault r
    | .refused r => .refused r

/-- A stream element offered to the block: taken byte by byte in an input phase, left in `DIN` otherwise (log 11, log 12). -/
def offerBytes (bs : List Byte) (s : State) : Result :=
  if !s.ph.isInput then .next (s.putBack (bs.map (fun b => tokWord (.b b)))) else feedBytes bs s

end Sys2Proof.Machine
end

