-- ==== Sys2Proof/Machine/CrcUnit.lean ====
section
/-! DEFINITION. The command of the CRC unit, `CRC_CALC` (40_crc.md). -/

namespace Sys2Proof.Machine

/-- `CRC_CALC` at the function level (40_crc.md R140; 60_exceptions.md R312 for a buffer that `off` cannot count). -/
def fnCrcCalc (a : Arch) (inbuf : List Byte) : Txn :=
  if Config.maxOff.toNat < inbuf.length then a.answer (pendingRsp loadCapacityError)
  else a.answer (mkRsp .ok (off := offOf inbuf.length) (val := crc32 inbuf))

/-- `CRC_CALC`: acceptance and start rule (40_crc.md R141). -/
def execCrcCalc (s : State) : Result := .next (s.accept opCrcCalc).startCrcCalc

end Sys2Proof.Machine
end

