-- ==== Sys2Proof/Machine/ChunkOps.lean ====
section
/-! DEFINITION. The commands on the staged chunk (42_chunk.md): the function level of each, and acceptance with the start
rule. -/

namespace Sys2Proof.Machine

/-- `CK_MAKE` at the function level (42_chunk.md R172, R173), with the capacities of 60_exceptions.md R312 in stream order
(log 6, log 7). -/
def fnCkMake (a : Arch) (tc : Word) (inbuf : List Byte) : Txn :=
  let a0 := { a with ck := none }
  if inbuf.length ≤ Config.maxLen && (inbuf.isEmpty || capFits a.params (a.contBytes + inbuf.length)) then
    let c : Chunk := { ty := tc, data := inbuf }
    { arch := { a0 with ck := some c }, rsp := mkRsp .ok (off := offOf inbuf.length) (val := chunkCrc c), out := none }
  else if capFits a.params (a.contBytes + Config.maxLen) then a0.answer (mkRsp .lengthOverflow)
  else a0.answer (pendingRsp loadCapacityError)

/-- The limits of `CK_PARSE` (43_framer.md R226): `cont` is held beside the chunk. -/
def ckLimits (a : Arch) : Limits := { chunks := none, bytes := a.params.capBytes, beside := a.contBytes }

/-- `CK_PARSE` at the function level (42_chunk.md R175, R177). -/
def fnCkParse (a : Arch) (inbuf : List Byte) : Txn :=
  let a0 := { a with ck := none }
  match parseChunkWith (ckLimits a) 0 inbuf 0 with
  | .ok c o => { arch := { a0 with ck := some c }, rsp := mkRsp .ok (off := offOf o) (val := chunkCrc c), out := none }
  | .fail st sub => a0.answer (mkRsp st (sub := sub))

/-- `CK_SER` at the function level (42_chunk.md R178). -/
def fnCkSer (a : Arch) : Txn :=
  match a.ck with
  | none => a.emit (mkRsp .noChunk) []
  | some c => a.emit (mkRsp .ok (off := offOf (12 + chunkLen c)) (val := chunkCrc c)) (serChunk c)

/-- `CK_TYPE` at the function level (42_chunk.md R180). -/
def fnCkType (a : Arch) : Txn :=
  match a.ck with
  | none => a.answer (mkRsp .noChunk)
  | some c => a.answer (mkRsp .ok (val := c.ty))

/-- `CK_LEN` at the function level (42_chunk.md R181). -/
def fnCkLen (a : Arch) : Txn :=
  match a.ck with
  | none => a.answer (mkRsp .noChunk)
  | some c => a.answer (mkRsp .ok (val := BitVec.ofNat 32 (chunkLen c)))

/-- `CK_CRC` at the function level (42_chunk.md R182). -/
def fnCkCrc (a : Arch) : Txn :=
  match a.ck with
  | none => a.answer (mkRsp .noChunk)
  | some c => a.answer (mkRsp .ok (val := chunkCrc c))

/-- `CK_DATA` at the function level (42_chunk.md R183). -/
def fnCkData (a : Arch) : Txn :=
  match a.ck with
  | none => a.emit (mkRsp .noChunk) []
  | some c => a.emit (mkRsp .ok (off := offOf (chunkLen c))) c.data

/-- `CK_TEXT` at the function level (42_chunk.md R184). -/
def fnCkText (a : Arch) : Txn :=
  match a.ck with
  | none => a.emit (mkRsp .noChunk) []
  | some c =>
    if textValid a.params.text c.data then a.emit (mkRsp .ok (off := offOf (chunkLen c))) c.data
    else a.emit (mkRsp .invalidEncoding) []

/-- Start of the plain emitter: a transaction that has nothing to emit ends at once (42_chunk.md R171, 44_serializer.md R249),
otherwise the counters start and the phase is the first of the emitter. -/
def State.startEmit (s : State) (first : Phase) (t : Txn) : State :=
  if t.rsp.st = .ok then { (s.enter first) with off := 0 } else s.complete t

/-- The first phase of the plain emitter (44_serializer.md R249). -/
def rawStart (t : Txn) : Phase := if (t.out.getD []).isEmpty then .sEob else .sRaw

/-- Start of `CK_SER` (44_serializer.md R247). -/
def State.startCkSer (s : State) : State :=
  match s.ck with
  | none => s.complete (fnCkSer s.arch)
  | some c => { s.beginChunk c with off := 0 }

/-- `CK_MAKE`: acceptance and start rule (42_chunk.md R174). -/
def execCkMake (tc : Word) (s : State) : Result := .next ((s.accept opCkMake).startCkMake tc)

/-- `CK_PARSE`: acceptance and start rule (43_framer.md R209). -/
def execCkParse (s : State) : Result := .next (s.accept opCkParse).startCkParse

/-- `CK_SER`: acceptance and start rule (44_serializer.md R247). -/
def execCkSer (s : State) : Result := .next (s.accept opCkSer).startCkSer

/-- `CK_TYPE` (42_chunk.md R180). -/
def execCkType (s : State) : Result := .next ((s.accept opCkType).complete (fnCkType s.arch))

/-- `CK_LEN` (42_chunk.md R181). -/
def execCkLen (s : State) : Result := .next ((s.accept opCkLen).complete (fnCkLen s.arch))

/-- `CK_CRC` (42_chunk.md R182). -/
def execCkCrc (s : State) : Result := .next ((s.accept opCkCrc).complete (fnCkCrc s.arch))

/-- `CK_DATA`: acceptance and start rule (42_chunk.md R183, 44_serializer.md R249). -/
def execCkData (s : State) : Result :=
  .next ((s.accept opCkData).startEmit (rawStart (fnCkData s.arch)) (fnCkData s.arch))

/-- `CK_TEXT`: acceptance and start rule; the validity test comes before the first byte (42_chunk.md R184, 44_serializer.md
R249). -/
def execCkText (s : State) : Result :=
  .next ((s.accept opCkText).startEmit (rawStart (fnCkText s.arch)) (fnCkText s.arch))

end Sys2Proof.Machine
end

