-- ==== Sys2Proof/Machine/ContainerOps.lean ====
section
/-! DEFINITION. The commands on the container register: `CT_PARSE` (43_framer.md), `CT_SER` (44_serializer.md) and the
store operations (45_container_ops.md). -/

namespace Sys2Proof.Machine

/-- The limits of `CT_PARSE` (43_framer.md R226): `ck` is held beside the staged chunks (20_memory.md R81, log 5). -/
def ctLimits (a : Arch) : Limits :=
  { chunks := some a.params.capChunks.toNat, bytes := a.params.capBytes, beside := a.ckBytes }

/-- `CT_PARSE` at the function level (43_framer.md R200, R201, R202). -/
def fnCtParse (a : Arch) (inbuf : List Byte) : Txn :=
  let a0 := { a with cont := none }
  match parseBounded (ctLimits a) inbuf with
  | .ok cs =>
    { arch := { a0 with cont := some cs }
      rsp := mkRsp .ok (idx := idxOf cs.length) (off := offOf inbuf.length)
      out := none }
  | .fail st sub k o => a0.answer (mkRsp st (sub := sub) (idx := idxOf k) (off := offOf o))

/-- `CT_SER` at the function level (44_serializer.md R240). -/
def fnCtSer (a : Arch) : Txn :=
  match a.cont with
  | none => a.emit (mkRsp .noContainer) []
  | some cs =>
    a.emit (mkRsp .ok (idx := idxOf cs.length) (off := offOf (serialize cs).length)) (serialize cs)

/-- Putting a copy of `ck` at position `p`, when the capacities allow it (45_container_ops.md R262, R264; log 5). -/
def storeAt (a : Arch) (cs : List Chunk) (c : Chunk) (p : Nat) : Txn :=
  if capFull a.params cs.length || !capFits a.params (a.contBytes + a.ckBytes + chunkLen c) then
    a.answer (mkRsp .capacityExceeded (idx := idxOf cs.length))
  else
    { arch := { a with cont := some (insertAt cs p c) }
      rsp := mkRsp .ok (idx := idxOf p) (val := idxOf (cs.length + 1))
      out := none }

/-- `CT_APPEND` at the function level (45_container_ops.md R262). -/
def fnCtAppend (a : Arch) : Txn :=
  match a.cont, a.ck with
  | none, _ => a.answer (mkRsp .noContainer)
  | some _, none => a.answer (mkRsp .noChunk)
  | some cs, some c => storeAt a cs c cs.length

/-- `CT_INSERT` at the function level (45_container_ops.md R264). -/
def fnCtInsert (a : Arch) (pos : Word) : Txn :=
  match a.cont, a.ck with
  | none, _ => a.answer (mkRsp .noContainer)
  | some _, none => a.answer (mkRsp .noChunk)
  | some cs, some c =>
    if cs.length < pos.toNat then a.answer (mkRsp .badPosition (idx := idxOf cs.length))
    else storeAt a cs c pos.toNat

/-- `CT_FIND` at the function level (45_container_ops.md R268). -/
def fnCtFind (a : Arch) (tc pos : Word) : Txn :=
  match a.cont with
  | none => a.answer (mkRsp .noContainer)
  | some cs =>
    match findFrom cs tc pos.toNat with
    | some i => a.answer (mkRsp .ok (idx := idxOf i) (off := offOf ((cs[i]?.map chunkLen).getD 0)))
    | none => a.answer (mkRsp .notFound (idx := idxOf cs.length))

/-- `CT_GET` at the function level (45_container_ops.md R272; the copy replaces what `ck` held, log 8). -/
def fnCtGet (a : Arch) (pos : Word) : Txn :=
  match a.cont with
  | none => a.answer (mkRsp .noContainer)
  | some cs =>
    match cs[pos.toNat]? with
    | none => a.answer (mkRsp .badPosition (idx := idxOf cs.length))
    | some c =>
      if !capFits a.params (a.contBytes + chunkLen c) then a.answer (mkRsp .capacityExceeded (idx := idxOf cs.length))
      else
        { arch := { a with ck := some c }
          rsp := mkRsp .ok (idx := pos) (off := offOf (chunkLen c)) (val := c.ty)
          out := none }

/-- `CT_REMOVE` at the function level (45_container_ops.md R275). -/
def fnCtRemove (a : Arch) (tc : Word) : Txn :=
  match a.cont with
  | none => a.answer (mkRsp .noContainer)
  | some cs =>
    match removeFirst cs tc with
    | none => a.answer (mkRsp .chunkNotFound (idx := idxOf cs.length) (val := idxOf cs.length))
    | some (cs', i, c) =>
      { arch := { a with cont := some cs', ck := some c }
        rsp := mkRsp .ok (idx := idxOf i) (off := offOf (chunkLen c)) (val := idxOf (cs.length - 1))
        out := none }

/-- `CT_LIST` at the function level (45_container_ops.md R282). -/
def fnCtList (a : Arch) : Txn :=
  match a.cont with
  | none => a.emit (mkRsp .noContainer) []
  | some cs => a.emit (mkRsp .ok (idx := idxOf cs.length) (off := offOf (4 * cs.length))) (typeBytes cs)

/-- `CT_COUNT` at the function level (45_container_ops.md R285). -/
def fnCtCount (a : Arch) : Txn :=
  match a.cont with
  | none => a.answer (mkRsp .noContainer)
  | some cs => a.answer (mkRsp .ok (idx := idxOf cs.length) (val := idxOf cs.length))

/-- `CT_PARSE`: acceptance and start rule (43_framer.md R209). -/
def execCtParse (s : State) : Result := .next (s.accept opCtParse).startCtParse

/-- Start of `CT_SER` (44_serializer.md R246). -/
def State.startCtSer (s : State) : State :=
  if s.cont.isNone then s.complete (fnCtSer s.arch) else { (s.enter .sSig) with sidx := 0, off := 0 }

/-- `CT_SER`: acceptance and start rule (44_serializer.md R246). -/
def execCtSer (s : State) : Result := .next (s.accept opCtSer).startCtSer

/-- `CT_APPEND` (45_container_ops.md R262). -/
def execCtAppend (s : State) : Result := .next ((s.accept opCtAppend).complete (fnCtAppend s.arch))

/-- `CT_INSERT` (45_container_ops.md R264). -/
def execCtInsert (pos : Word) (s : State) : Result :=
  .next ((s.accept opCtInsert).complete (fnCtInsert s.arch pos))

/-- `CT_FIND` (45_container_ops.md R268). -/
def execCtFind (tc pos : Word) (s : State) : Result :=
  .next ((s.accept opCtFind).complete (fnCtFind s.arch tc pos))

/-- `CT_GET` (45_container_ops.md R272). -/
def execCtGet (pos : Word) (s : State) : Result := .next ((s.accept opCtGet).complete (fnCtGet s.arch pos))

/-- `CT_REMOVE` (45_container_ops.md R275). -/
def execCtRemove (tc : Word) (s : State) : Result :=
  .next ((s.accept opCtRemove).complete (fnCtRemove s.arch tc))

/-- `CT_LIST`: acceptance and start rule (45_container_ops.md R282, 44_serializer.md R249). -/
def execCtList (s : State) : Result :=
  .next ((s.accept opCtList).startEmit (rawStart (fnCtList s.arch)) (fnCtList s.arch))

/-- `CT_COUNT` (45_container_ops.md R285). -/
def execCtCount (s : State) : Result := .next ((s.accept opCtCount).complete (fnCtCount s.arch))

end Sys2Proof.Machine
end

