-- ==== Sys2Proof/Machine/Emitter.lean ====
section
/-! DEFINITION. The output side at the token level: the emitter steps of 44_serializer.md R248 and R249. -/

namespace Sys2Proof.Machine

/-- The chunk being emitted: `cont[sidx]` for `CT_SER`, `ck` for `CK_SER` (44_serializer.md R245). -/
def State.emitted (s : State) : Option Chunk :=
  if s.op = opCtSer then (s.cont.getD [])[s.sidx.toNat]? else s.ck

/-- The transaction of the running plain emitter (44_serializer.md R249). -/
def State.rawTxn (s : State) : Txn :=
  if s.op = opCkData then fnCkData s.arch
  else if s.op = opCkText then fnCkText s.arch
  else fnCtList s.arch

/-- The list the plain emitter emits (44_serializer.md R249). -/
def State.rawList (s : State) : List Byte := s.rawTxn.out.getD []

/-- `DoutPut(B(b))` with the counting of 44_serializer.md R248. -/
def State.emitByte (s : State) (b : Byte) : State := (s.putTok (.b b)).tick

/-- Byte `cnt` of a field, then `k` on what is emitted. -/
def State.emitField (s : State) (field : List Byte) (k : State → State) : Result :=
  match field[s.cnt.toNat]? with
  | none => .fault .counterOutOfField
  | some b =>
    let s1 := s.emitByte b
    .next (if s1.cnt.toNat = field.length then k s1 else s1)

/-- Before a chunk: emit the next one, or end (44_serializer.md R248). -/
def State.nextChunk (s : State) : State :=
  match (s.cont.getD [])[s.sidx.toNat]? with
  | some c => s.beginChunk c
  | none => s.enter .sEob

/-- After the last CRC byte (44_serializer.md R247, R248). -/
def State.afterCrc (s : State) : State :=
  if s.op = opCtSer then State.nextChunk { s with sidx := s.sidx + 1 } else s.enter .sEob

/-- The response at `S_EOB` (44_serializer.md R248, R249). -/
def State.emitRsp (s : State) : Rsp :=
  if s.op = opCtSer then mkRsp .ok (idx := idxOf (s.cont.getD []).length) (off := s.off)
  else if s.op = opCkSer then mkRsp .ok (off := s.off) (val := (s.ck.map chunkCrc).getD 0)
  else s.rawTxn.rsp

/-- One step of a phase that emits a field of a chunk (44_serializer.md R248). Every field is read from the chunk itself; `tc`
holds its type code meanwhile (10_state.md R34, log 21). -/
def State.emitChunk (s : State) (c : Chunk) : Result :=
  match s.ph with
  | .sLen => s.emitField (be32 (BitVec.ofNat 32 (chunkLen c))) (fun s1 => s1.enter .sType)
  | .sType => s.emitField (be32 c.ty) (fun s1 => s1.enter (if chunkLen c = 0 then .sCrc else .sData))
  | .sData => s.emitField c.data (fun s1 => s1.enter .sCrc)
  | .sCrc => s.emitField (be32 (chunkCrc c)) State.afterCrc
  | _ => .next s

/-- One step of the plain emitter. The byte is chosen by `off`, which counts the same bytes as `cnt` and does not wrap
(44_serializer.md R249, log 10). -/
def State.emitRaw (s : State) : Result :=
  match s.rawList[s.off.toNat]? with
  | none => .fault .counterOutOfField
  | some b =>
    let s1 := s.emitByte b
    .next (if s1.off.toNat = s.rawList.length then { s1 with ph := .sEob } else s1)

/-- One emitter step (46_system.md R291 (c)). -/
def emitStep (s : State) : Result :=
  if !s.ph.usedBy s.op then .fault .phaseOpMismatch
  else
    match s.ph with
    | .sSig => if s.cont.isNone then .fault .nothingToEmit else s.emitField Config.sig State.nextChunk
    | .sLen | .sType | .sData | .sCrc =>
      match s.emitted with
      | none => .fault .nothingToEmit
      | some c => s.emitChunk c
    | .sRaw => s.emitRaw
    | .sEob => .next ((s.putTok .eob).respond s.emitRsp)
    | _ => .next s

end Sys2Proof.Machine
end

