-- ==== Sys2Proof/Machine/System.lean ====
section
/-! DEFINITION. `NOP`, the undefined opcodes, the stream elements and the response record (46_system.md; log 11). -/

namespace Sys2Proof.Machine

/-- `NOP` at the function level (46_system.md R294). -/
def fnNop (a : Arch) : Txn := a.answer (mkRsp .ok)

/-- An undefined opcode at the function level (46_system.md R293). -/
def fnUndefinedOp (a : Arch) (op : Byte) : Txn := a.answer (mkRsp .badOpcode (val := op.setWidth 32))

/-- `NOP` (46_system.md R294). -/
def execNop (s : State) : Result := .next ((s.accept opNop).complete (fnNop s.arch))

/-- An undefined opcode (46_system.md R293). -/
def execUndefinedOp (op : Byte) (s : State) : Result := .next ((s.accept op).complete (fnUndefinedOp s.arch op))

/-- `TOKEN`: one token of `DIN` meets the rule for (phase, token) (46_system.md R291). -/
def execToken (eob : Bool) (data : Byte) (s : State) : Result :=
  takeToken (tokenOf eob data) (tokFields eob data) s

/-- `SIGNATURE`: its eight bytes, one token after another (30_encoding.md R91, 43_framer.md R211). -/
def execSignature (s : State) : Result := offerBytes Config.sig s

/-- `CHUNK`: its bytes, one token after another (30_encoding.md R92, 43_framer.md R214 to R219). -/
def execChunk (ty : Word) (data : List Byte) (crc : Word) (s : State) : Result := offerBytes (chunkFields ty data crc) s

/-- `RSP`: the record is put on `RSP` and the running command ends (46_system.md R290). In `IDLE` no command runs and no
response is produced (70_reset_and_hazards.md R353). -/
def execRsp (r : Rsp) (s : State) : Result := .next (if s.ph = .idle then s else s.respond r)

end Sys2Proof.Machine
end

