-- ==== Sys2Proof/Machine/TypeCode.lean ====
section
/-! DEFINITION. The type-code commands (41_type_code.md). -/

namespace Sys2Proof.Machine

/-- `TY_CHECK` at the function level (41_type_code.md R156). -/
def fnTyCheck (a : Arch) (tc : Word) : Txn :=
  if !lettersOk tc then a.answer (mkRsp .invalidChunkType (sub := subNonLetter))
  else if !reservedOk tc then a.answer (mkRsp .invalidChunkType (sub := subReservedBitSet))
  else a.answer (mkRsp .ok)

/-- `TY_PROPS` at the function level (41_type_code.md R157). -/
def fnTyProps (a : Arch) (tc : Word) : Txn := a.answer (mkRsp .ok (val := propsWord tc))

/-- `TY_CHECK` (41_type_code.md R156). -/
def execTyCheck (tc : Word) (s : State) : Result := .next ((s.accept opTyCheck).complete (fnTyCheck s.arch tc))

/-- `TY_PROPS` (41_type_code.md R157). -/
def execTyProps (tc : Word) (s : State) : Result := .next ((s.accept opTyProps).complete (fnTyProps s.arch tc))

end Sys2Proof.Machine
end

