-- ==== Sys2Proof/Machine/Dispatch.lean ====
section
/-! DEFINITION. One arm per instruction. -/

namespace Sys2Proof.Machine

def exec (i : Instr) (s : State) : Host.Outcome State Fault Refusal :=
  match i with
  | .nop => Sys2Proof.Machine.execNop s
  | .crcCalc => Sys2Proof.Machine.execCrcCalc s
  | .tyCheck tc => Sys2Proof.Machine.execTyCheck tc s
  | .tyProps tc => Sys2Proof.Machine.execTyProps tc s
  | .ckMake tc => Sys2Proof.Machine.execCkMake tc s
  | .ckParse => Sys2Proof.Machine.execCkParse s
  | .ckSer => Sys2Proof.Machine.execCkSer s
  | .ckType => Sys2Proof.Machine.execCkType s
  | .ckLen => Sys2Proof.Machine.execCkLen s
  | .ckCrc => Sys2Proof.Machine.execCkCrc s
  | .ckData => Sys2Proof.Machine.execCkData s
  | .ckText => Sys2Proof.Machine.execCkText s
  | .ctParse => Sys2Proof.Machine.execCtParse s
  | .ctSer => Sys2Proof.Machine.execCtSer s
  | .ctAppend => Sys2Proof.Machine.execCtAppend s
  | .ctInsert pos => Sys2Proof.Machine.execCtInsert pos s
  | .ctFind tc pos => Sys2Proof.Machine.execCtFind tc pos s
  | .ctGet pos => Sys2Proof.Machine.execCtGet pos s
  | .ctRemove tc => Sys2Proof.Machine.execCtRemove tc s
  | .ctList => Sys2Proof.Machine.execCtList s
  | .ctCount => Sys2Proof.Machine.execCtCount s
  | .signature => Sys2Proof.Machine.execSignature s
  | .chunk ty data crc => Sys2Proof.Machine.execChunk ty data crc s
  | .token eob data => Sys2Proof.Machine.execToken eob data s
  | .rsp r => Sys2Proof.Machine.execRsp r s
  | .undefinedOp op => Sys2Proof.Machine.execUndefinedOp op s

end Sys2Proof.Machine
end

