-- ==== Sys2Proof/WellFormed.lean ====
section
/-! DEFINITION. Which instructions are well formed: those an encoding stands for. -/

namespace Sys2Proof

/-- A well-formed instruction. The commands carry fields of fixed width and are always well formed (46_system.md R295:
"No field value makes a defined opcode illegal"). An undefined command has an undefined opcode (R103), a response a
sub-cause of its status (R308), a chunk element a payload of at most `MAX_LEN` bytes and the right checksum (R99). -/
def Instr.wellFormed (i : Instr) : Bool :=
  match i with
  | .undefinedOp op => !Machine.definedOps.contains op
  | .rsp r => (Machine.subsOf r.st).contains r.sub
  | .chunk ty data crc => decide (data.length ≤ Config.maxLen) && crc == Machine.chunkCrc { ty := ty, data := data }
  | _ => true

end Sys2Proof
end

