-- ==== Sys2Proof/Decode.lean ====
section
/-! DEFINITION. The decoder and the encoder of the four encoded forms: command words (30_encoding.md R101, R102), token
words (R100), response words (10_state.md R42) and stream bytes (R91, R92). -/

namespace Sys2Proof

open Machine

/-- The command a word stands for. Every word is one: an opcode outside the map of R102 is `UNDEFINED_OP` (R103). Fields
the opcode does not use are ignored (R101, 46_system.md R295). -/
def decodeCmd (w : CmdWord) : Instr :=
  let op := cmdOp w
  if op = opNop then .nop
  else if op = opCrcCalc then .crcCalc
  else if op = opTyCheck then .tyCheck (cmdTc w)
  else if op = opTyProps then .tyProps (cmdTc w)
  else if op = opCkMake then .ckMake (cmdTc w)
  else if op = opCkParse then .ckParse
  else if op = opCkSer then .ckSer
  else if op = opCkType then .ckType
  else if op = opCkLen then .ckLen
  else if op = opCkCrc then .ckCrc
  else if op = opCkData then .ckData
  else if op = opCkText then .ckText
  else if op = opCtParse then .ctParse
  else if op = opCtSer then .ctSer
  else if op = opCtAppend then .ctAppend
  else if op = opCtInsert then .ctInsert (cmdPos w)
  else if op = opCtFind then .ctFind (cmdTc w) (cmdPos w)
  else if op = opCtGet then .ctGet (cmdPos w)
  else if op = opCtRemove then .ctRemove (cmdTc w)
  else if op = opCtList then .ctList
  else if op = opCtCount then .ctCount
  else .undefinedOp op

/-- The token element a word of `DIN` stands for (30_encoding.md R100). -/
def decodeTok (w : TokWord) : Instr := .token (w.getLsbD 8) (w.extractLsb' 0 8)

/-- The response a word stands for (10_state.md R42): refused for a code that is no status (60_exceptions.md R301) or a
sub-cause the status does not carry (R308). -/
def decodeRsp (w : RspWord) : Except DecodeError Instr :=
  match statusOfCode (w.extractLsb' 136 8) with
  | none => .error .unknownStatus
  | some st =>
    let sub := w.extractLsb' 128 8
    if (subsOf st).contains sub then
      .ok (.rsp { st := st, sub := sub, idx := w.extractLsb' 96 32, off := w.extractLsb' 32 64, val := w.extractLsb' 0 32 })
    else .error .badSubCause

/-- The stream element at the head of the bytes, with the bytes after it. The signature and a chunk cannot be confused:
the signature's first byte would make a length above `MAX_LEN`. -/
def decodeStream (bs : List Byte) : Except DecodeError (Instr × List Byte) :=
  if bs.take 8 = Config.sig then .ok (.signature, bs.drop 8)
  else
    match parseChunk bs 0 with
    | .ok c o => .ok (.chunk c.ty c.data (chunkCrc c), bs.drop o)
    | .fail _ sub =>
      if sub = subLengthTooLarge then .error .streamLengthTooLarge
      else if sub = subCrcMismatch then .error .streamCrcMismatch
      else .error .streamTruncated

/-- The decoder, total on every encoded form. -/
def decode (code : Code) : Except DecodeError Instr :=
  match code with
  | .cmd w => .ok (decodeCmd w)
  | .tok w => .ok (decodeTok w)
  | .rsp w => decodeRsp w
  | .stream bs =>
    match decodeStream bs with
    | .ok (i, []) => .ok i
    | .ok (_, _ :: _) => .error .streamTrailing
    | .error e => .error e

/-- The word of a response record (10_state.md R42). -/
def rspWord (r : Rsp) : RspWord :=
  ((statusCode r.st).setWidth 144 <<< 136) ||| (r.sub.setWidth 144 <<< 128) ||| (r.idx.setWidth 144 <<< 96)
    ||| (r.off.setWidth 144 <<< 32) ||| r.val.setWidth 144

/-- The encoder. Unused fields of a command word are sent as 0 (30_encoding.md R101). -/
def encode (i : Instr) : Code :=
  match i with
  | .nop => .cmd (cmdWord opNop 0 0)
  | .crcCalc => .cmd (cmdWord opCrcCalc 0 0)
  | .tyCheck tc => .cmd (cmdWord opTyCheck tc 0)
  | .tyProps tc => .cmd (cmdWord opTyProps tc 0)
  | .ckMake tc => .cmd (cmdWord opCkMake tc 0)
  | .ckParse => .cmd (cmdWord opCkParse 0 0)
  | .ckSer => .cmd (cmdWord opCkSer 0 0)
  | .ckType => .cmd (cmdWord opCkType 0 0)
  | .ckLen => .cmd (cmdWord opCkLen 0 0)
  | .ckCrc => .cmd (cmdWord opCkCrc 0 0)
  | .ckData => .cmd (cmdWord opCkData 0 0)
  | .ckText => .cmd (cmdWord opCkText 0 0)
  | .ctParse => .cmd (cmdWord opCtParse 0 0)
  | .ctSer => .cmd (cmdWord opCtSer 0 0)
  | .ctAppend => .cmd (cmdWord opCtAppend 0 0)
  | .ctInsert pos => .cmd (cmdWord opCtInsert 0 pos)
  | .ctFind tc pos => .cmd (cmdWord opCtFind tc pos)
  | .ctGet pos => .cmd (cmdWord opCtGet 0 pos)
  | .ctRemove tc => .cmd (cmdWord opCtRemove tc 0)
  | .ctList => .cmd (cmdWord opCtList 0 0)
  | .ctCount => .cmd (cmdWord opCtCount 0 0)
  | .signature => .stream Config.sig
  | .chunk ty data crc => .stream (chunkFields ty data crc)
  | .token eob data => .tok (tokFields eob data)
  | .rsp r => .rsp (rspWord r)
  | .undefinedOp op => .cmd (cmdWord op 0 0)

/-- The bytes of a number of `8 * n` bits, most significant first (30_encoding.md R91, R92: the first stream byte is the
most significant). -/
def bytesOfNat : Nat → Nat → List Byte
  | 0, _ => []
  | n + 1, w => BitVec.ofNat 8 (w >>> (8 * n)) :: bytesOfNat n w

/-- The encoded form of a number laid out as spec/opcode_table.json numbers its bits (log 19): 72 bits are a command word,
9 bits (2 whole bytes) a token, 144 bits a response, anything else stream bytes. -/
def codeOfTableWord (nbits w : Nat) : Code :=
  if nbits = 72 then .cmd (BitVec.ofNat 72 w)
  else if nbits = 9 || nbits = 16 then .tok (BitVec.ofNat 9 w)
  else if nbits = 144 then .rsp (BitVec.ofNat 144 w)
  else .stream (bytesOfNat (nbits / 8) w)

/-- The instruction the decoder reads from a table word. -/
def decodeTableWord (nbits w : Nat) : Option Instr :=
  match decode (codeOfTableWord nbits w) with
  | .ok i => some i
  | .error _ => none

end Sys2Proof
end

