-- ==== Sys2Proof/Machine/Fetch.lean ====
section
/-! DEFINITION. What a step does next (46_system.md R291), and where the next instruction stands. -/

namespace Sys2Proof.Machine

/-- The kind of step that is enabled (46_system.md R291). -/
inductive Fetched where
  /-- An instruction taken from its channel, and the state with it removed. -/
  | instr (i : Instr) (s : State)
  /-- An emitter step. -/
  | emit
  /-- Nothing is enabled: the block waits. -/
  | wait
  deriving DecidableEq, Repr

/-- In `IDLE` a command word is taken from `CMD`, in an input phase a token from `DIN`, in an emitter phase nothing
(46_system.md R290, R291). -/
def fetch (s : State) : Fetched :=
  if s.ph = .idle then
    match s.cmd with
    | [] => .wait
    | w :: rest => .instr (decodeCmd w) { s with cmd := rest }
  else if s.ph.isInput then
    match s.din with
    | [] => .wait
    | w :: rest => .instr (decodeTok w) { s with din := rest }
  else .emit

/-- The word becomes the next command (log 18): the phase is the one that accepts commands. -/
def State.placeCmd (s : State) (w : CmdWord) : State := { s with cmd := w :: s.cmd, ph := .idle }

/-- The tokens become the next ones of `DIN` (log 19). -/
def State.placeToks (s : State) (ts : List TokWord) : State := s.putBack ts

/-- The word becomes the next token (log 19): outside an input phase `CRC_CALC` is running, as after its start rule. -/
def State.placeTok (s : State) (w : TokWord) : State :=
  (if s.ph.isInput then s else (s.accept opCrcCalc).startCrcCalc).placeToks [w]

/-- The bytes become the next tokens (log 19): a signature where `CT_PARSE` starts, other bytes where `CK_PARSE` starts. -/
def State.placeStream (s : State) (bs : List Byte) : State :=
  (if s.ph.isInput then s
   else if bs = Config.sig then (s.accept opCtParse).startCtParse
   else (s.accept opCkParse).startCkParse).placeToks (bs.map (fun b => tokWord (.b b)))

/-- The record becomes the next response (log 19): a failed `CK_PARSE` has drained its buffer up to the `EOB`. -/
def State.placeRsp (s : State) (r : Rsp) : State :=
  (((s.accept opCkParse).startCkParse).toDrain { st := r.st, sub := r.sub, idx := r.idx, off := r.off }).placeToks
    [tokWord .eob]

/-- The state in which the element a table word stands for is the next one the block meets (log 18, log 19). -/
def State.placeCode (s : State) (code : Code) : State :=
  match code with
  | .cmd w => s.placeCmd w
  | .tok w => s.placeTok w
  | .stream bs => s.placeStream bs
  | .rsp w =>
    match decodeRsp w with
    | .ok (.rsp r) => s.placeRsp r
    | _ => s

end Sys2Proof.Machine
end

