-- ==== Sys2Proof/Machine/Step.lean ====
section
/-! DEFINITION. One step of the block (46_system.md R291), and where the host places the next instruction. -/

namespace Sys2Proof.Machine

/-- One step (46_system.md R291): accept a command and run its start rule, or take one token, or put one token. When nothing
is enabled the block waits and nothing changes (R290). -/
def step (s : State) : Host.Outcome State Fault Refusal :=
  match fetch s with
  | .wait => .next s
  | .instr i s' => exec i s'
  | .emit => emitStep s

/-- `s` with the instruction of a table word placed where the step finds it (log 18, log 19). -/
def State.withFetchWord (s : State) (nbits w : Nat) : State := s.placeCode (codeOfTableWord nbits w)

end Sys2Proof.Machine
end

