-- ==== Sys2Proof/Machine/HostPort.lean ====
section
/-! DEFINITION. The host's moves (70_reset_and_hazards.md R352) and the reset input (R341, R342). They happen between
steps and are not part of a step (log 17). -/

namespace Sys2Proof.Machine

/-- The host puts a command word on `CMD` (70_reset_and_hazards.md R352). -/
def State.sendCommand (s : State) (w : CmdWord) : State := { s with cmd := s.cmd ++ [w] }

/-- The host puts a token on `DIN` (70_reset_and_hazards.md R352). -/
def State.sendToken (s : State) (t : TokWord) : State := { s with din := s.din ++ [t] }

/-- The host puts a buffer with its `EOB` on `DIN` (70_reset_and_hazards.md R352). -/
def State.sendBuffer (s : State) (bs : List Byte) : State := { s with din := s.din ++ bufferToks bs }

/-- The host takes the oldest token of `DOUT`, if there is one. -/
def State.takeOutput (s : State) : Option (TokWord × State) :=
  match s.dout with
  | [] => none
  | t :: rest => some (t, { s with dout := rest })

/-- The host takes the oldest record of `RSP`, if there is one. -/
def State.takeResponse (s : State) : Option (Rsp × State) :=
  match s.rsp with
  | [] => none
  | r :: rest => some (r, { s with rsp := rest })

/-- The reset input: whatever was running is abandoned without a response and nothing survives but the parameters the block
was built with (70_reset_and_hazards.md R341, R342; 10_state.md R43). -/
def State.assertReset (s : State) : State := { State.reset with params := s.params }

end Sys2Proof.Machine
end

