-- ==== Sys2Proof/Machine/Transact.lean ====
section
/-! DEFINITION. The function level as one map: the transaction of each command (00_scope.md R10). -/

namespace Sys2Proof.Machine

/-- `exec` of 00_scope.md R10 for every command, on the bytes of its input buffer (empty for a command that takes none).
The four elements of the channels are no commands. -/
def transact (i : Instr) (a : Arch) (inbuf : List Byte) : Option Txn :=
  match i with
  | .nop => some (fnNop a)
  | .crcCalc => some (fnCrcCalc a inbuf)
  | .tyCheck tc => some (fnTyCheck a tc)
  | .tyProps tc => some (fnTyProps a tc)
  | .ckMake tc => some (fnCkMake a tc inbuf)
  | .ckParse => some (fnCkParse a inbuf)
  | .ckSer => some (fnCkSer a)
  | .ckType => some (fnCkType a)
  | .ckLen => some (fnCkLen a)
  | .ckCrc => some (fnCkCrc a)
  | .ckData => some (fnCkData a)
  | .ckText => some (fnCkText a)
  | .ctParse => some (fnCtParse a inbuf)
  | .ctSer => some (fnCtSer a)
  | .ctAppend => some (fnCtAppend a)
  | .ctInsert pos => some (fnCtInsert a pos)
  | .ctFind tc pos => some (fnCtFind a tc pos)
  | .ctGet pos => some (fnCtGet a pos)
  | .ctRemove tc => some (fnCtRemove a tc)
  | .ctList => some (fnCtList a)
  | .ctCount => some (fnCtCount a)
  | .undefinedOp op => some (fnUndefinedOp a op)
  | .signature => none
  | .chunk _ _ _ => none
  | .token _ _ => none
  | .rsp _ => none

/-- The commands that take an input buffer (20_memory.md R78). -/
def takesBuffer (i : Instr) : Bool :=
  match i with
  | .crcCalc | .ckMake _ | .ckParse | .ctParse => true
  | _ => false

/-- The commands that give an output buffer (20_memory.md R78). -/
def givesBuffer (i : Instr) : Bool :=
  match i with
  | .ckSer | .ckData | .ckText | .ctSer | .ctList => true
  | _ => false

end Sys2Proof.Machine
end

