-- ==== Sys2Proof/Machine/Pseudo.lean ====
section
/-! DEFINITION. The pseudo-instructions of 30_encoding.md section 8: short sequences of commands that the host runs, each next
command chosen from the response before it. The block sees only the commands, so these are at the function level: the
transactions of the sequence, in order. `PARSE`, `SERIALIZE` and `LIST_TYPES` are single commands (R105). -/

namespace Sys2Proof.Machine

/-- `PARSE <buf>` (30_encoding.md R105). -/
def pseudoParse (a : Arch) (buf : List Byte) : List Txn := [fnCtParse a buf]

/-- `SERIALIZE` (30_encoding.md R105). -/
def pseudoSerialize (a : Arch) : List Txn := [fnCtSer a]

/-- `LIST_TYPES` (30_encoding.md R105). -/
def pseudoListTypes (a : Arch) : List Txn := [fnCtList a]

/-- `APPEND tc, <payload>` (30_encoding.md R106): `CK_MAKE`, and if that returned `OK`, `CT_APPEND`. -/
def pseudoAppend (a : Arch) (tc : Word) (payload : List Byte) : List Txn :=
  let x := fnCkMake a tc payload
  if x.rsp.st = .ok then [x, fnCtAppend x.arch] else [x]

/-- `FIND_CHUNK tc` (30_encoding.md R107): `CT_FIND tc, 0`, and if that returned `OK idx=i`, `CT_GET i`. -/
def pseudoFindChunk (a : Arch) (tc : Word) : List Txn :=
  let x := fnCtFind a tc 0
  if x.rsp.st = .ok then [x, fnCtGet x.arch x.rsp.idx] else [x]

/-- The loop of `FIND_ALL` from position `s` (30_encoding.md R108); the first argument bounds the number of its turns. It ends
at `NotFound`, and also at `NoContainer` (DESIGN CHOICE, log 22). -/
def findAllLoop (a : Arch) (tc : Word) : Nat → Word → List Txn
  | 0, _ => []
  | k + 1, s =>
    let x := fnCtFind a tc s
    if x.rsp.st = .ok then x :: findAllLoop x.arch tc k (x.rsp.idx + 1) else [x]

/-- `FIND_ALL tc` (30_encoding.md R108): at most `n + 1` commands. -/
def pseudoFindAll (a : Arch) (tc : Word) : List Txn := findAllLoop a tc (a.count + 1) 0

/-- The positions a sequence recorded: `idx` of every `OK` (30_encoding.md R108). -/
def recordedPositions (xs : List Txn) : List Nat :=
  (xs.filter (fun x => x.rsp.st = .ok)).map (fun x => x.rsp.idx.toNat)

/-- `REMOVE tc` (30_encoding.md R109): `CT_REMOVE`, and if that returned `OK`, `CK_DATA`. -/
def pseudoRemove (a : Arch) (tc : Word) : List Txn :=
  let x := fnCtRemove a tc
  if x.rsp.st = .ok then [x, fnCkData x.arch] else [x]

/-- `APPEND_BEFORE term, tc, <payload>` (30_encoding.md R110): `CK_MAKE`, `CT_FIND term, 0`, and `CT_INSERT i` if that returned
`OK idx=i`, `CT_APPEND` otherwise; also after a failed `CK_MAKE` (DESIGN CHOICE, log 22). -/
def pseudoAppendBefore (a : Arch) (term tc : Word) (payload : List Byte) : List Txn :=
  let x := fnCkMake a tc payload
  let y := fnCtFind x.arch term 0
  [x, y, if y.rsp.st = .ok then fnCtInsert y.arch y.rsp.idx else fnCtAppend y.arch]

/-- `DECODE tc` (30_encoding.md R111): `FIND_CHUNK tc`, and if found, `CK_TEXT`. Found is that `CT_FIND` returned `OK`: when
`CT_GET` then fails for capacity, `CK_TEXT` still runs, on the `ck` of before (DESIGN CHOICE, log 22). -/
def pseudoDecode (a : Arch) (tc : Word) : List Txn :=
  let x := fnCtFind a tc 0
  if x.rsp.st = .ok then
    let y := fnCtGet x.arch x.rsp.idx
    [x, y, fnCkText y.arch]
  else [x]

end Sys2Proof.Machine
end

