-- ==== Sys2Proof/Safety.lean ====
section
/-! DEFINITION. The terms claims are stated in: the invariant of the block, runs of several steps, and what a completed
command leaves. -/

namespace Sys2Proof.Machine

/-- A chunk the block may hold: its payload is at most `MAX_LEN` bytes (10_state.md R23). -/
def ChunkOk (c : Chunk) : Prop := c.data.length ≤ Config.maxLen

/-- A chunk list the store may hold: every chunk is one it may hold, and there are at most `CAP_CHUNKS` (20_memory.md R81). -/
def ListOk (p : Config.Params) (cs : List Chunk) : Prop := (∀ c ∈ cs, ChunkOk c) ∧ cs.length ≤ p.capChunks.toNat

/-- A token word the block puts on `DOUT`: the data bits of `EOB` are 0 (30_encoding.md R100). -/
def TokOk (t : TokWord) : Prop := t.getLsbD 8 = true → t = 0x100#9

/-- What `cont` and `ck` hold is within the bounds of 10_state.md R23 and 20_memory.md R81. -/
structure StoreOk (s : State) : Prop where
  cont : ∀ cs, s.cont = some cs → ListOk s.params cs
  ck : ∀ c, s.ck = some c → ChunkOk c
  bytes : capFits s.params (s.arch.contBytes + s.arch.ckBytes) = true

/-- The destination of a running parse is empty (42_chunk.md R170, 43_framer.md R202), and what is staged is within bounds. -/
structure FramingOk (s : State) : Prop where
  ctDest : s.op = opCtParse → s.cont = none
  ckDest : s.op = opCkParse → s.ck = none ∧ s.stg = []
  stg : ListOk s.params s.stg
  bytes : capFits s.params s.framedBytes = true

/-- The declared length has passed the tests of 43_framer.md R215 and R226. -/
def LengthOk (s : State) : Prop :=
  s.len.toNat ≤ Config.maxLen ∧ capFits s.params (s.framedBytes + s.len.toNat) = true

/-- The chunk being emitted: `tc` is its type code (10_state.md R34), and the counter is inside a field of the given size. -/
def EmittingOk (s : State) (size : Chunk → Nat) : Prop :=
  ∃ c, s.emitted = some c ∧ s.tc = c.ty ∧ s.cnt.toNat < size c

/-- What holds of the working registers in each phase. -/
def PhaseOk (s : State) : Prop :=
  match s.ph with
  | .idle => True
  | .sig => FramingOk s ∧ s.stg = [] ∧ s.cnt.toNat < 8
  | .len => FramingOk s ∧ s.cnt.toNat < 4
  | .type => FramingOk s ∧ LengthOk s ∧ s.pbuf = [] ∧ s.cnt.toNat < 4
  | .data => FramingOk s ∧ LengthOk s ∧ s.pbuf.length = s.cnt.toNat ∧ s.cnt.toNat < s.len.toNat
  | .crc => FramingOk s ∧ LengthOk s ∧ s.pbuf.length = s.len.toNat ∧ s.cnt.toNat < 4
  | .trail => True
  | .drain => s.perr.isSome = true
  | .load => s.op = opCkMake →
      s.ck = none ∧ s.pbuf.length = s.len.toNat ∧ s.len.toNat ≤ Config.maxLen
        ∧ capFits s.params (s.arch.contBytes + s.pbuf.length) = true
  | .sSig => s.cont.isSome = true ∧ s.sidx = 0 ∧ s.cnt.toNat < 8
  | .sLen => EmittingOk s (fun _ => 4)
  | .sType => EmittingOk s (fun _ => 4)
  | .sData => EmittingOk s chunkLen
  | .sCrc => EmittingOk s (fun _ => 4)
  | .sRaw => s.off.toNat < s.rawList.length
  | .sEob => True

/-- THE INVARIANT of the block. -/
structure State.Inv (s : State) : Prop where
  store : StoreOk s
  dout : ∀ t ∈ s.dout, TokOk t
  used : s.ph.usedBy s.op = true
  phase : PhaseOk s

/-- `s` after a command that is answered in the step that accepts it: the opcode register, the response, the phase. -/
def State.answered (s : State) (op : Byte) (r : Rsp) : State := { s with op := op, rsp := s.rsp ++ [r], ph := .idle }

/-- The words at the head of `DIN` are the buffer `buf`, ended by an `EOB` word (whose data bits may be anything,
30_encoding.md R100), and `rest` follows. -/
def HasBuffer (s : State) (buf : List Byte) (rest : List TokWord) : Prop :=
  ∃ e : TokWord, e.getLsbD 8 = true ∧ s.din = buf.map (fun b => tokWord (.b b)) ++ e :: rest

/-- One well-formed UTF-8 sequence, as the rows of the table of 42_chunk.md R186 give it. -/
def Utf8Seq (q : List Byte) : Prop :=
  (∃ a, q = [a] ∧ a.toNat ≤ 0x7F)
  ∨ (∃ a b, q = [a, b] ∧ 0xC2 ≤ a.toNat ∧ a.toNat ≤ 0xDF ∧ 0x80 ≤ b.toNat ∧ b.toNat ≤ 0xBF)
  ∨ (∃ a b c, q = [a, b, c] ∧ 0x80 ≤ c.toNat ∧ c.toNat ≤ 0xBF
      ∧ ((a.toNat = 0xE0 ∧ 0xA0 ≤ b.toNat ∧ b.toNat ≤ 0xBF)
        ∨ (0xE1 ≤ a.toNat ∧ a.toNat ≤ 0xEC ∧ 0x80 ≤ b.toNat ∧ b.toNat ≤ 0xBF)
        ∨ (a.toNat = 0xED ∧ 0x80 ≤ b.toNat ∧ b.toNat ≤ 0x9F)
        ∨ (0xEE ≤ a.toNat ∧ a.toNat ≤ 0xEF ∧ 0x80 ≤ b.toNat ∧ b.toNat ≤ 0xBF)))
  ∨ (∃ a b c d, q = [a, b, c, d] ∧ 0x80 ≤ c.toNat ∧ c.toNat ≤ 0xBF ∧ 0x80 ≤ d.toNat ∧ d.toNat ≤ 0xBF
      ∧ ((a.toNat = 0xF0 ∧ 0x90 ≤ b.toNat ∧ b.toNat ≤ 0xBF)
        ∨ (0xF1 ≤ a.toNat ∧ a.toNat ≤ 0xF3 ∧ 0x80 ≤ b.toNat ∧ b.toNat ≤ 0xBF)
        ∨ (a.toNat = 0xF4 ∧ 0x80 ≤ b.toNat ∧ b.toNat ≤ 0x8F)))

/-- `k` steps lead from `s` to `t`, none of them a fault or a refusal. -/
def RunsTo (k : Nat) (s t : State) : Prop := Host.Core.run Sys2Proof.core k s = .next t

/-- The two states agree in everything that lasts between commands and in the phase; their hidden working registers
(10_state.md R44) may differ. -/
structure SameVisible (s t : State) : Prop where
  params : t.params = s.params
  cont : t.cont = s.cont
  ck : t.ck = s.ck
  cmd : t.cmd = s.cmd
  din : t.din = s.din
  dout : t.dout = s.dout
  rsp : t.rsp = s.rsp
  ph : t.ph = s.ph

/-- `t` is `s` after the transaction `x` (00_scope.md R10, 46_system.md R292): its registers, its output buffer on `DOUT`, its
one response on `RSP`, the phase `IDLE`, and nothing else of what lasts between commands changed. -/
structure Completed (s : State) (x : Txn) (t : State) : Prop where
  params : t.params = s.params
  cont : t.cont = x.arch.cont
  ck : t.ck = x.arch.ck
  cmd : t.cmd = s.cmd
  din : t.din = s.din
  dout : t.dout = s.dout ++ (x.out.map bufferToks).getD []
  rsp : t.rsp = s.rsp ++ [x.rsp]
  ph : t.ph = .idle

/-- `exec i` accepts the command `i`, and after `k` further steps it has completed as the transaction `x`; what it takes
from `DIN` leaves `rest`. -/
def CompletesIn (k : Nat) (i : Instr) (s : State) (rest : List TokWord) (x : Txn) : Prop :=
  ∃ t u, exec i s = .next t ∧ RunsTo k t u ∧ Completed { s with din := rest } x u

end Sys2Proof.Machine
end

