-- ==== Sys2Proof/Certificates/Slice0/Obligations.lean ====
section
/-! DEFINITION. The statements for the provers. Each cites the rules of spec/ it rests on. -/

open Sys2Proof Sys2Proof.Machine

/-! ## Encoding -/

/-- Words written out from 30_encoding.md R100, R101, R102 and 10_state.md R42 (and the rows of 95_test_vectors.md) decode to
the instructions they stand for, and the stream bytes of R91 and R92 to theirs. -/
def Obligations.SampleWordsDecode : Prop :=
  decode (.cmd 0x000000000000000000#72) = .ok .nop
  ∧ decode (.cmd 0x010000000000000000#72) = .ok .crcCalc
  ∧ decode (.cmd 0x105275537400000007#72) = .ok (.tyCheck 0x52755374#32)
  ∧ decode (.cmd 0x207275537400000000#72) = .ok (.ckMake 0x72755374#32)
  ∧ decode (.cmd 0x330000000000000002#72) = .ok (.ctInsert 2#32)
  ∧ decode (.cmd 0x3449454E4400000001#72) = .ok (.ctFind 0x49454E44#32 1#32)
  ∧ decode (.cmd 0x350000000000000003#72) = .ok (.ctGet 3#32)
  ∧ decode (.cmd 0x7F0000000000000000#72) = .ok (.undefinedOp 0x7F#8)
  ∧ decode (.tok 0x0AE#9) = .ok (.token false 0xAE#8)
  ∧ decode (.tok 0x100#9) = .ok (.token true 0x00#8)
  ∧ decode (.rsp 0x820300000001000000000000002100000000#144)
      = .ok (.rsp { st := .malformedChunk, sub := 3#8, idx := 1#32, off := 33#64, val := 0#32 })
  ∧ decode (.stream [0x89, 0x50, 0x4E, 0x47, 0x0D, 0x0A, 0x1A, 0x0A]) = .ok .signature
  ∧ decode (.stream [0x00, 0x00, 0x00, 0x00, 0x49, 0x45, 0x4E, 0x44, 0xAE, 0x42, 0x60, 0x82])
      = .ok (.chunk 0x49454E44#32 [] 0xAE426082#32)

/-- Decoding the encoding of a well-formed instruction gives the instruction back, for every row of the opcode table
(30_encoding.md R91, R92, R100, R101, R102; 10_state.md R42). -/
def Obligations.DecodeEncodeRoundTrip : Prop :=
  ∀ i : Instr, i.wellFormed = true → decode (encode i) = .ok i

/-- 21 opcodes are defined, and every command word is an instruction: a defined command, or `UNDEFINED_OP` exactly when its
opcode is none of the 21; encoding it again keeps the opcode (30_encoding.md R102, R103; 46_system.md R295). -/
def Obligations.EveryCommandWordDecodes : Prop :=
  definedOps.length = 21 ∧ definedOps.Nodup
  ∧ ∀ w : CmdWord, ∃ i, decode (.cmd w) = .ok i ∧ i.wellFormed = true
      ∧ (cmdOp w ∉ definedOps ↔ i = .undefinedOp (cmdOp w))
      ∧ ∃ w', encode i = .cmd w' ∧ cmdOp w' = cmdOp w

/-- 46_system.md R295: fields of the command word that the opcode does not use change neither the decoded instruction nor
the step (so neither the state, the outputs nor the response), and no field value makes a defined opcode illegal. -/
def Obligations.UnusedFieldsAreIgnored : Prop :=
  ∀ w w' : CmdWord, cmdOp w = cmdOp w' →
    (cmdOp w ∈ [0x10#8, 0x11#8, 0x20#8, 0x34#8, 0x36#8] → cmdTc w = cmdTc w') →
    (cmdOp w ∈ [0x33#8, 0x34#8, 0x35#8] → cmdPos w = cmdPos w') →
    decodeCmd w = decodeCmd w'
    ∧ (∀ (s : State) (rest : List CmdWord), s.ph = .idle → step { s with cmd := w :: rest } = step { s with cmd := w' :: rest })
    ∧ (cmdOp w ∈ definedOps → ∀ op, decodeCmd w' ≠ .undefinedOp op)

/-! ## The step -/

/-- A step in `IDLE` with a command word waiting runs the decoded instruction on the state without the word (46_system.md
R290, R291 (a)). Nothing else is added around `exec`; the opcode register is written by the instruction's own meaning. -/
def Obligations.StepRunsDecodedCommand : Prop :=
  ∀ (s : State) (w : CmdWord) (rest : List CmdWord) (i : Instr), s.ph = .idle → s.cmd = w :: rest → decode (.cmd w) = .ok i →
    step s = exec i { s with cmd := rest }

/-- A step in an input phase with a token waiting runs the token on the state without it; a step in an emitter phase is the
emitter's; when nothing is enabled the block waits and its state does not change (46_system.md R290, R291). -/
def Obligations.StepTakesOrEmitsOrWaits : Prop :=
  (∀ (s : State) (w : TokWord) (rest : List TokWord) (i : Instr), s.ph.isInput = true → s.din = w :: rest →
    decode (.tok w) = .ok i → step s = exec i { s with din := rest })
  ∧ (∀ s : State, s.ph.isEmitter = true → step s = emitStep s)
  ∧ (∀ s : State, s.ph = .idle → s.cmd = [] → step s = .next s)
  ∧ ∀ s : State, s.ph.isInput = true → s.din = [] → step s = .next s

/-- The channels are first-in first-out: a step takes at most the head of `CMD` (in `IDLE`) or of `DIN` (in an input phase),
appends at most one token to `DOUT` and at most one record to `RSP`; a response ends in `IDLE`, and a running command
reaches `IDLE` only with its response (10_state.md R39; 46_system.md R290, R291, R292; 70_reset_and_hazards.md R353). -/
def Obligations.StepMovesChannelsInOrder : Prop :=
  ∀ s t : State, step s = .next t →
    t.cmd = (if s.ph = .idle then s.cmd.tail else s.cmd)
    ∧ t.din = (if s.ph.isInput then s.din.tail else s.din)
    ∧ (t.dout = s.dout ∨ (s.ph.isInput = false ∧ ∃ k, t.dout = s.dout ++ [k]))
    ∧ (t.rsp = s.rsp ∨ (t.ph = .idle ∧ ∃ r, t.rsp = s.rsp ++ [r]))
    ∧ (s.ph ≠ .idle → t.ph = .idle → t.rsp ≠ s.rsp)

/-- `cont` is written only by `CT_PARSE`, `CT_APPEND`, `CT_INSERT`, `CT_REMOVE` (10_state.md R21), `ck` only by `CK_MAKE`,
`CK_PARSE`, `CT_GET`, `CT_REMOVE` (10_state.md R22, 42_chunk.md R170), the parameters by no step (10_state.md R43). The
opcode register names the running command. While `CT_PARSE` takes tokens, `cont` is written only by the step that takes
`EOB` at a chunk boundary (43_framer.md R220, R224: all or nothing). -/
def Obligations.RegistersAreWrittenByTheirCommandsOnly : Prop :=
  ∀ s t : State, step s = .next t →
    t.params = s.params
    ∧ (t.cont ≠ s.cont → t.op ∈ [0x30#8, 0x32#8, 0x33#8, 0x36#8])
    ∧ (t.ck ≠ s.ck → t.op ∈ [0x20#8, 0x21#8, 0x35#8, 0x36#8])
    ∧ (s.ph.isInput = true → s.op = 0x30#8 → t.cont ≠ s.cont →
        s.ph = .len ∧ s.cnt = 0 ∧ (∃ e rest, s.din = e :: rest ∧ e.getLsbD 8 = true) ∧ t.cont = some s.stg)

/-! ## Reset and the invariant -/

/-- Reset (70_reset_and_hazards.md R340, R341): `cont` and `ck` are `none`, `ph` is `IDLE`, the channels are empty, whatever the
state before it; the parameters stay (10_state.md R43). Nothing is said of the working registers, which R340 leaves
unspecified. -/
def Obligations.ResetLeavesTheEmptyBlock : Prop :=
  (State.reset.cont = none ∧ State.reset.ck = none ∧ State.reset.ph = .idle ∧ State.reset.cmd = [] ∧ State.reset.din = []
    ∧ State.reset.dout = [] ∧ State.reset.rsp = [])
  ∧ ∀ s : State, s.assertReset.cont = none ∧ s.assertReset.ck = none ∧ s.assertReset.ph = .idle ∧ s.assertReset.cmd = []
    ∧ s.assertReset.din = [] ∧ s.assertReset.dout = [] ∧ s.assertReset.rsp = [] ∧ s.assertReset.params = s.params

/-- 10_state.md R44: each command initialises every hidden register it reads before reading it, so the values the working
registers hold in `IDLE` (those of reset too) are never seen: two states that differ only there run, for any number of
steps, through states that differ only in hidden registers. -/
def Obligations.StaleRegistersAreNeverSeen : Prop :=
  ∀ (s t : State), s.ph = .idle → SameVisible s t →
    ∀ (k : Nat) (s' : State), RunsTo k s s' → ∃ t', RunsTo k t t' ∧ SameVisible s' t'

/-- The invariant holds after reset. -/
def Obligations.InvariantHoldsAtReset : Prop := State.reset.Inv

/-- Every step from a state with the invariant gives a state with the invariant: held chunks stay within `MAX_LEN` and the
capacities, `DOUT` holds only legal tokens, and the working registers fit the phase (10_state.md R23, 20_memory.md R81,
30_encoding.md R100). While a chunk is emitted `tc` is its type code (10_state.md R34). What
counts against a finite `CAP_BYTES`, and where an emitter loads `tc`, are the model's choice (log 5, log 8, log 21). -/
def Obligations.StepKeepsInvariant : Prop := ∀ s t : State, s.Inv → step s = .next t → t.Inv

/-- From a state with the invariant a step always gives a next state: no fault, no refusal; the machine is never stuck
(43_framer.md R227; 46_system.md R296). -/
def Obligations.InvariantStateNeverStops : Prop := ∀ s : State, s.Inv → ∃ t, step s = .next t

/-- A command that reads an empty register (42_chunk.md R171, 45_container_ops.md R260, R262, R264, 44_serializer.md R246, R247),
for every operand. With `ck` empty the six `CK` readers answer `NoChunk`, those that give data with one `EOB` on `DOUT`,
whatever `cont` holds. With `cont` empty the container commands answer `NoContainer`, those that give data with one `EOB`,
whatever `ck` holds. With `ck` empty and a container held, `CT_APPEND` and `CT_INSERT` answer `NoChunk` (60_exceptions.md
R310). So the block answers after reset (70_reset_and_hazards.md R343), where both are empty. -/
def Obligations.EmptyBlockAnswers : Prop :=
  ∀ s : State,
    (s.ck = none →
      (∀ i op, (i, op) ∈ [(Instr.ckType, 0x23#8), (.ckLen, 0x24#8), (.ckCrc, 0x25#8)] →
        exec i s = .next (s.answered op { st := .noChunk, sub := 0, idx := 0, off := 0, val := 0 }))
      ∧ ∀ i op, (i, op) ∈ [(Instr.ckSer, 0x22#8), (.ckData, 0x26#8), (.ckText, 0x27#8)] →
        exec i s = .next { s.answered op { st := .noChunk, sub := 0, idx := 0, off := 0, val := 0 } with dout := s.dout ++ [0x100#9] })
    ∧ (s.cont = none →
      (∀ (tc pos : Word) i op, (i, op) ∈ [(Instr.ctAppend, 0x32#8), (.ctInsert pos, 0x33#8), (.ctFind tc pos, 0x34#8),
          (.ctGet pos, 0x35#8), (.ctRemove tc, 0x36#8), (.ctCount, 0x38#8)] →
        exec i s = .next (s.answered op { st := .noContainer, sub := 0, idx := 0, off := 0, val := 0 }))
      ∧ ∀ i op, (i, op) ∈ [(Instr.ctSer, 0x31#8), (.ctList, 0x37#8)] →
        exec i s = .next { s.answered op { st := .noContainer, sub := 0, idx := 0, off := 0, val := 0 } with dout := s.dout ++ [0x100#9] })
    ∧ (∀ cs, s.cont = some cs → s.ck = none → ∀ (pos : Word) i op, (i, op) ∈ [(Instr.ctAppend, 0x32#8), (.ctInsert pos, 0x33#8)] →
        exec i s = .next (s.answered op { st := .noChunk, sub := 0, idx := 0, off := 0, val := 0 }))

/-! ## System commands -/

/-- `NOP` (46_system.md R294), whatever the other fields of the word: `OK`, all other response fields 0, nothing else changed. An undefined opcode (R293): `BadOpcode`
with the opcode in `val`; `cont` and `ck` unchanged, no token taken from `DIN`, none put on `DOUT`; the same for the step that
meets such a command word. -/
def Obligations.NopAndUndefinedOpcodeAnswer : Prop :=
  (∀ w : CmdWord, cmdOp w = 0x00#8 → decode (.cmd w) = .ok .nop)
  ∧ (∀ s : State, exec .nop s = .next (s.answered 0x00#8 { st := .ok, sub := 0, idx := 0, off := 0, val := 0 }))
  ∧ (∀ (s : State) (op : Byte), exec (.undefinedOp op) s
      = .next (s.answered op { st := .badOpcode, sub := 0, idx := 0, off := 0, val := op.setWidth 32 }))
  ∧ ∀ (s : State) (w : CmdWord) (rest : List CmdWord), s.ph = .idle → s.cmd = w :: rest → cmdOp w ∉ definedOps →
      step s = .next (State.answered { s with cmd := rest } (cmdOp w)
        { st := .badOpcode, sub := 0, idx := 0, off := 0, val := (cmdOp w).setWidth 32 })

/-! ## The CRC unit -/

/-- The streaming law (40_crc.md R135), check values of the checksum (R132; 95_test_vectors.md section 2), and the worked
update of R131. -/
def Obligations.CrcStreams : Prop :=
  (∀ (c : Word) (xs ys : List Byte), crcRun c (xs ++ ys) = crcRun (crcRun c xs) ys)
  ∧ (∀ bs : List Byte, crc32 bs = crcRun 0xFFFFFFFF#32 bs ^^^ 0xFFFFFFFF#32)
  ∧ crcUpd 0xFFFFFFFF#32 0x61#8 = 0x174841BC#32
  ∧ crc32 [] = 0x00000000#32
  ∧ crc32 [0x31, 0x32, 0x33, 0x34, 0x35, 0x36, 0x37, 0x38, 0x39] = 0xCBF43926#32
  ∧ crc32 [0x49, 0x45, 0x4E, 0x44] = 0xAE426082#32

/-- The table form of the update (40_crc.md R133): it equals the bit-serial update, with the table entries R133 lists. -/
def Obligations.CrcTableFormAgrees : Prop :=
  (∀ i : Byte, crcTable i = crcBits 8 (i.setWidth 32))
  ∧ (∀ (c : Word) (b : Byte), crcUpd c b = crcTable ((c ^^^ b.setWidth 32).extractLsb' 0 8) ^^^ (c >>> 8))
  ∧ crcTable 0#8 = 0x00000000#32 ∧ crcTable 1#8 = 0x77073096#32 ∧ crcTable 2#8 = 0xEE0E612C#32
  ∧ crcTable 3#8 = 0x990951BA#32 ∧ crcTable 4#8 = 0x076DC419#32 ∧ crcTable 8#8 = 0x0EDB8832#32
  ∧ crcTable 16#8 = 0x1DB71064#32 ∧ crcTable 32#8 = 0x3B6E20C8#32 ∧ crcTable 64#8 = 0x76DC4190#32
  ∧ crcTable 128#8 = 0xEDB88320#32 ∧ crcTable 255#8 = 0x2D02EF8D#32

/-- The arithmetic laws of the unit (40_crc.md R136): the eight iterations are linear over XOR, and for a fixed byte the update
is a bijection of the register. -/
def Obligations.CrcStepIsLinearAndBijective : Prop :=
  (∀ (c : Word) (b : Byte), crcUpd c b = crcBits 8 (c ^^^ b.setWidth 32))
  ∧ crcBits 8 0#32 = 0#32
  ∧ (∀ x y : Word, crcBits 8 (x ^^^ y) = crcBits 8 x ^^^ crcBits 8 y)
  ∧ ∀ b : Byte, Function.Bijective (fun c : Word => crcUpd c b)

/-- `CRC_CALC` (40_crc.md R140, R141): accepted with the CRC register at its initial value, it takes any buffer through its
`EOB` and ends as the function level says; `cont`, `ck` and `DOUT` are unchanged. The function level answers the checksum
and the length of a buffer that `off` can count, and `CapacityExceeded` for a longer one (60_exceptions.md R312); that `idx`
is then 0 is read from R312 and from R140, by which `cont` is not read (log 7). -/
def Obligations.CrcCalcRuns : Prop :=
  (∀ (s : State) (buf : List Byte) (rest : List TokWord), HasBuffer s buf rest →
    exec .crcCalc s = .next { s with op := 0x01#8, crc := 0xFFFFFFFF#32, off := 0, ph := .load }
    ∧ CompletesIn (buf.length + 1) .crcCalc s rest (fnCrcCalc s.arch buf))
  ∧ ∀ (a : Arch) (buf : List Byte), fnCrcCalc a buf =
      { arch := a
        rsp :=
          if buf.length < 2 ^ 64 then { st := .ok, sub := 0, idx := 0, off := BitVec.ofNat 64 buf.length, val := crc32 buf }
          else { st := .capacityExceeded, sub := 0, idx := 0, off := 0, val := 0 }
        out := none }

/-! ## Type codes -/

/-- `TY_CHECK` (41_type_code.md R151, R152, R156): `NonLetter` when some byte is no ASCII letter, otherwise `ReservedBitSet`
when bit 5 of `t[2]` (bit 13 of the word) is set, otherwise `OK`; the state is unchanged. -/
def Obligations.TyCheckAnswers : Prop :=
  (∀ w : CmdWord, cmdOp w = 0x10#8 → decode (.cmd w) = .ok (.tyCheck (cmdTc w)))
  ∧ ∀ (s : State) (tc : Word),
    exec (.tyCheck tc) s = .next (s.answered 0x10#8
      (if ∃ b ∈ be32 tc, ¬((0x41 ≤ b.toNat ∧ b.toNat ≤ 0x5A) ∨ (0x61 ≤ b.toNat ∧ b.toNat ≤ 0x7A)) then
        { st := .invalidChunkType, sub := 1, idx := 0, off := 0, val := 0 }
      else if tc.getLsbD 13 then { st := .invalidChunkType, sub := 2, idx := 0, off := 0, val := 0 }
      else { st := .ok, sub := 0, idx := 0, off := 0, val := 0 }))

/-- `TY_PROPS` (41_type_code.md R153, R157): `OK` for every code, with the six properties in bits 0 to 5 of `val` and 0
above. Bit 5 of `t[0]`, `t[1]`, `t[2]`, `t[3]` is bit 29, 21, 13, 5 of the word. A valid code has an upper-case letter as
its third byte (R152). -/
def Obligations.TyPropsAnswers : Prop :=
  (∀ w : CmdWord, cmdOp w = 0x11#8 → decode (.cmd w) = .ok (.tyProps (cmdTc w)))
  ∧ ∀ (s : State) (tc : Word), ∃ v : Word,
    exec (.tyProps tc) s = .next (s.answered 0x11#8 { st := .ok, sub := 0, idx := 0, off := 0, val := v })
    ∧ v.getLsbD 0 = (v.getLsbD 1 && v.getLsbD 2)
    ∧ (v.getLsbD 1 = true ↔ ∀ b ∈ be32 tc, (0x41 ≤ b.toNat ∧ b.toNat ≤ 0x5A) ∨ (0x61 ≤ b.toNat ∧ b.toNat ≤ 0x7A))
    ∧ v.getLsbD 2 = !tc.getLsbD 13 ∧ v.getLsbD 3 = !tc.getLsbD 29 ∧ v.getLsbD 4 = !tc.getLsbD 21
    ∧ v.getLsbD 5 = tc.getLsbD 5 ∧ (∀ k, 6 ≤ k → v.getLsbD k = false)
    ∧ (v.getLsbD 0 = true → 0x41 ≤ (tc.extractLsb' 8 8).toNat ∧ (tc.extractLsb' 8 8).toNat ≤ 0x5A)

/-! ## The staged chunk -/

/-- `CK_MAKE` at the token level ends as the function level says, for every payload (42_chunk.md R190); it takes its buffer
through the `EOB`. For finite capacities the order of `LengthOverflow` and `CapacityExceeded`, what counts against
`CAP_BYTES`, and the `idx` of the failure are the model's choice at both levels (log 5, log 6, log 7). -/
def Obligations.CkMakeRuns : Prop :=
  ∀ (s : State) (tc : Word) (buf : List Byte) (rest : List TokWord), HasBuffer s buf rest →
    CompletesIn (buf.length + 1) (.ckMake tc) s rest (fnCkMake s.arch tc buf)

/-- `CK_PARSE` at the token level ends as the function level says, for every buffer (42_chunk.md R190); it takes its buffer
through the `EOB`. For a finite `CAP_BYTES` what counts against it and the order of the tests are the model's choice at both
levels (log 5, log 9). -/
def Obligations.CkParseRuns : Prop :=
  ∀ (s : State) (buf : List Byte) (rest : List TokWord), HasBuffer s buf rest →
    CompletesIn (buf.length + 1) .ckParse s rest (fnCkParse s.arch buf)

/-- `parse_chunk` (42_chunk.md R176) by its own cases: what is tested, in which order, and what is returned. -/
def Obligations.ParseChunkByCases : Prop :=
  (∀ buf : List Byte, buf.length < 4 → parseChunk buf 0 = .fail .malformedChunk 1)
  ∧ ∀ (b0 b1 b2 b3 : Byte) (body : List Byte),
      let L := b0.toNat * 2 ^ 24 + b1.toNat * 2 ^ 16 + b2.toNat * 2 ^ 8 + b3.toNat
      parseChunk (b0 :: b1 :: b2 :: b3 :: body) 0 =
        if 2 ^ 31 - 1 < L then .fail .malformedChunk 2
        else if body.length < 8 + L then .fail .malformedChunk 1
        else if be32 (crc32 (body.take (4 + L))) = (body.drop (4 + L)).take 4 then
          .ok { ty := wordOfBytes body, data := (body.drop 4).take L } (12 + L)
        else .fail .malformedChunk 3

/-- `CK_SER` (42_chunk.md R178, R179; 44_serializer.md R247, R248, R251): with a chunk it emits length, type, payload and CRC,
then `EOB`, and answers; `cont` and `ck` are unchanged. -/
def Obligations.CkSerRuns : Prop :=
  ∀ (s : State) (c : Chunk), s.ck = some c → ChunkOk c →
    CompletesIn (12 + c.data.length + 1) .ckSer s s.din
      { arch := s.arch
        rsp := { st := .ok, sub := 0, idx := 0, off := BitVec.ofNat 64 (12 + c.data.length), val := crc32 (be32 c.ty ++ c.data) }
        out := some (be32 (BitVec.ofNat 32 c.data.length) ++ be32 c.ty ++ c.data ++ be32 (crc32 (be32 c.ty ++ c.data))) }

/-- `CK_TYPE`, `CK_LEN`, `CK_CRC` (42_chunk.md R171, R180, R181, R182): the type code, the payload length, the checksum in
`val`, or `NoChunk`; nothing else changes. -/
def Obligations.CkAccessorsAnswer : Prop :=
  ∀ s : State,
    exec .ckType s = .next (s.answered 0x23#8 (match s.ck with
      | none => { st := .noChunk, sub := 0, idx := 0, off := 0, val := 0 }
      | some c => { st := .ok, sub := 0, idx := 0, off := 0, val := c.ty }))
    ∧ exec .ckLen s = .next (s.answered 0x24#8 (match s.ck with
      | none => { st := .noChunk, sub := 0, idx := 0, off := 0, val := 0 }
      | some c => { st := .ok, sub := 0, idx := 0, off := 0, val := BitVec.ofNat 32 c.data.length }))
    ∧ exec .ckCrc s = .next (s.answered 0x25#8 (match s.ck with
      | none => { st := .noChunk, sub := 0, idx := 0, off := 0, val := 0 }
      | some c => { st := .ok, sub := 0, idx := 0, off := 0, val := crc32 (be32 c.ty ++ c.data) }))

/-- `CK_DATA` (42_chunk.md R183; 44_serializer.md R249, R251): it emits the payload and `EOB`, and answers the length. -/
def Obligations.CkDataRuns : Prop :=
  ∀ (s : State) (c : Chunk), s.ck = some c → ChunkOk c →
    CompletesIn (c.data.length + 1) .ckData s s.din
      { arch := s.arch
        rsp := { st := .ok, sub := 0, idx := 0, off := BitVec.ofNat 64 c.data.length, val := 0 }
        out := some c.data }

/-- `CK_TEXT` (42_chunk.md R184; 44_serializer.md R249): for every `TextValid`, a payload that is valid text is emitted like
`CK_DATA`'s, and one that is not gives `InvalidEncoding` with one `EOB`, in the step that accepts the command. -/
def Obligations.CkTextRuns : Prop :=
  ∀ (s : State) (c : Chunk), s.ck = some c → ChunkOk c →
    if textValid s.params.text c.data then
      CompletesIn (c.data.length + 1) .ckText s s.din
        { arch := s.arch
          rsp := { st := .ok, sub := 0, idx := 0, off := BitVec.ofNat 64 c.data.length, val := 0 }
          out := some c.data }
    else
      exec .ckText s = .next { s.answered 0x27#8 { st := .invalidEncoding, sub := 0, idx := 0, off := 0, val := 0 } with
        dout := s.dout ++ [0x100#9] }

/-- Every `TextValid` accepts `"hello"` (42_chunk.md R184), and the default one (R186) accepts exactly the concatenations of
the sequences of the table; the bytes `C0`, `C1`, `F5` to `FF` never occur in valid text. -/
def Obligations.DefaultTextIsWellFormedUtf8 : Prop :=
  (∀ p : Config.TextParam, textValid p [0x68, 0x65, 0x6C, 0x6C, 0x6F] = true)
  ∧ ∀ bs : List Byte,
    (textValid .utf8 bs = true ↔ ∃ qs : List (List Byte), bs = qs.flatten ∧ ∀ q ∈ qs, Utf8Seq q)
    ∧ (textValid .utf8 bs = true → ∀ b ∈ bs, b ≠ 0xC0#8 ∧ b ≠ 0xC1#8 ∧ b.toNat < 0xF5)

/-- Chunk round trip (42_chunk.md R188). -/
def Obligations.ChunkRoundTrip : Prop :=
  (∀ (c : Chunk) (rest : List Byte), ChunkOk c → parseChunk (serChunk c ++ rest) 0 = .ok c (12 + c.data.length))
  ∧ ∀ (buf : List Byte) (c : Chunk) (o : Nat), parseChunk buf 0 = .ok c o → buf.take o = serChunk c

/-- Two byte lists of equal length that differ in exactly one byte have different checksums; so a chunk damaged in one byte
of its type or payload, or anywhere in its CRC field, fails with `CrcMismatch` (40_crc.md R137, R139). -/
def Obligations.DamagedChunkIsRefused : Prop :=
  (∀ (before after : List Byte) (b b' : Byte), b ≠ b' → crc32 (before ++ b :: after) ≠ crc32 (before ++ b' :: after))
  ∧ (∀ (c c' : Chunk) (before after : List Byte) (b b' : Byte), ChunkOk c → b ≠ b' →
    be32 c.ty ++ c.data = before ++ b :: after → be32 c'.ty ++ c'.data = before ++ b' :: after →
    parseChunk (chunkFields c'.ty c'.data (chunkCrc c)) 0 = .fail .malformedChunk 3)
  ∧ ∀ (c : Chunk) (x : Word), ChunkOk c → x ≠ chunkCrc c → parseChunk (chunkFields c.ty c.data x) 0 = .fail .malformedChunk 3

/-! ## The container: parsing and serializing -/

/-- `CT_PARSE` at the token level ends as the function level says, for every buffer (43_framer.md R228); it takes its buffer
through the `EOB`. Where a capacity or the range of `off` is reached, what counts against `CAP_BYTES` and the order of the
tests are the model's choice at both levels (log 5, log 9). -/
def Obligations.CtParseRuns : Prop :=
  ∀ (s : State) (buf : List Byte) (rest : List TokWord), HasBuffer s buf rest →
    CompletesIn (buf.length + 1) .ctParse s rest (fnCtParse s.arch buf)

/-- Without capacity limits the loaders at the function level are 42_chunk.md R172, R175 and 43_framer.md R200, R201: the
destination becomes the value loaded, or `none` on failure, the other register is unchanged, and the response fields are as
those rules say. For `CT_PARSE`, that the default `CAP_CHUNKS` is no limit asks for a buffer below 2^32 bytes. -/
def Obligations.LoadersFollowTheRules : Prop :=
  ∀ (a : Arch), a.params.capBytes = none →
    (∀ (tc : Word) (buf : List Byte), fnCkMake a tc buf =
      if Config.maxLen < buf.length then
        { arch := { a with ck := none }, rsp := { st := .lengthOverflow, sub := 0, idx := 0, off := 0, val := 0 }, out := none }
      else
        { arch := { a with ck := some { ty := tc, data := buf } }
          rsp := { st := .ok, sub := 0, idx := 0, off := BitVec.ofNat 64 buf.length, val := crc32 (be32 tc ++ buf) }
          out := none })
    ∧ (∀ buf : List Byte, fnCkParse a buf =
      match parseChunk buf 0 with
      | .ok c o =>
        { arch := { a with ck := some c }
          rsp := { st := .ok, sub := 0, idx := 0, off := BitVec.ofNat 64 o, val := chunkCrc c }
          out := none }
      | .fail st sub =>
        { arch := { a with ck := none }, rsp := { st := st, sub := sub, idx := 0, off := 0, val := 0 }, out := none })
    ∧ (a.params.capChunks = 0xFFFFFFFF#32 → ∀ buf : List Byte, buf.length < 2 ^ 32 → fnCtParse a buf =
      match parse buf with
      | .ok cs =>
        { arch := { a with cont := some cs }
          rsp := { st := .ok, sub := 0, idx := BitVec.ofNat 32 cs.length, off := BitVec.ofNat 64 buf.length, val := 0 }
          out := none }
      | .fail st sub k o =>
        { arch := { a with cont := none }
          rsp := { st := st, sub := sub, idx := BitVec.ofNat 32 k, off := BitVec.ofNat 64 o, val := 0 }
          out := none })

/-- The signature test of `parse` (43_framer.md R205, R212, R213): a present byte that differs gives `SigMismatch`, a buffer
that is a proper prefix of the signature `SigShort`; a buffer that starts with the signature is never refused for it. -/
def Obligations.ParseTestsTheSignatureFirst : Prop :=
  ∀ buf : List Byte,
    ((∃ k, k < 8 ∧ k < buf.length ∧ buf[k]? ≠ Config.sig[k]?) → parse buf = .fail .invalidSignature 2 0 0)
    ∧ ((∀ k, k < 8 → k < buf.length → buf[k]? = Config.sig[k]?) → buf.length < 8 → parse buf = .fail .invalidSignature 1 0 0)
    ∧ ∀ rest, buf = Config.sig ++ rest → ∀ sub k o, parse buf ≠ .fail .invalidSignature sub k o

/-- `CT_SER` (44_serializer.md R240, R243, R246, R248, R251): it emits the signature and every chunk in order, then `EOB`, and
answers the number of chunks and of bytes; `cont` and `ck` are unchanged. -/
def Obligations.CtSerRuns : Prop :=
  ∀ (s : State) (cs : List Chunk), s.cont = some cs → ListOk s.params cs →
    CompletesIn ((serialize cs).length + 1) .ctSer s s.din
      { arch := s.arch
        rsp := { st := .ok, sub := 0, idx := BitVec.ofNat 32 cs.length, off := BitVec.ofNat 64 (serialize cs).length, val := 0 }
        out := some (Config.sig ++ cs.flatMap serChunk) }

/-- `CT_LIST` (45_container_ops.md R280, R282; 44_serializer.md R249): the four type bytes of every chunk in order, then
`EOB`; it answers `n` and `4n`. For a container of 2^30 chunks or more it rests on the model's reading of the counter
(log 10). -/
def Obligations.CtListRuns : Prop :=
  ∀ (s : State) (cs : List Chunk), s.cont = some cs → ListOk s.params cs →
    CompletesIn (4 * cs.length + 1) .ctList s s.din
      { arch := s.arch
        rsp := { st := .ok, sub := 0, idx := BitVec.ofNat 32 cs.length, off := BitVec.ofNat 64 (4 * cs.length), val := 0 }
        out := some (cs.flatMap (fun c => be32 c.ty)) }

/-- Container round trip (44_serializer.md R250): a list of chunks is what its serialization parses to, and a buffer that
parses is reproduced byte for byte; so `serialize` is injective (R253). -/
def Obligations.ContainerRoundTrip : Prop :=
  (∀ cs : List Chunk, (∀ c ∈ cs, ChunkOk c) → parse (serialize cs) = .ok cs)
  ∧ (∀ (buf : List Byte) (cs : List Chunk), parse buf = .ok cs → serialize cs = buf)
  ∧ ∀ cs ds : List Chunk, (∀ c ∈ cs, ChunkOk c) → (∀ d ∈ ds, ChunkOk d) → serialize cs = serialize ds → cs = ds

/-- The length of a serialization (44_serializer.md R244). -/
def Obligations.SerializeLength : Prop :=
  ∀ cs : List Chunk,
    (serialize cs).length = 8 + 12 * cs.length + (cs.map (fun c => c.data.length)).sum
    ∧ (cs.length < 2 ^ 32 → (∀ c ∈ cs, c.data.length ≤ 2 ^ 31 - 1) → (serialize cs).length < 2 ^ 64)

/-! ## The container: store operations -/

/-- `CT_APPEND` (45_container_ops.md R262): the tests in their order, and `ck` copied to the end. What counts against
`CAP_BYTES` is log 5. -/
def Obligations.CtAppendAnswers : Prop :=
  ∀ s : State, exec .ctAppend s = .next (match s.cont, s.ck with
    | none, _ => s.answered 0x32#8 { st := .noContainer, sub := 0, idx := 0, off := 0, val := 0 }
    | some _, none => s.answered 0x32#8 { st := .noChunk, sub := 0, idx := 0, off := 0, val := 0 }
    | some cs, some c =>
      if s.params.capChunks.toNat ≤ cs.length ∨ capFits s.params (s.arch.contBytes + c.data.length + c.data.length) = false then
        s.answered 0x32#8 { st := .capacityExceeded, sub := 0, idx := BitVec.ofNat 32 cs.length, off := 0, val := 0 }
      else
        { s.answered 0x32#8 { st := .ok, sub := 0, idx := BitVec.ofNat 32 cs.length, off := 0, val := BitVec.ofNat 32 (cs.length + 1) } with
          cont := some (cs ++ [c]) })

/-- `CT_INSERT` (45_container_ops.md R263, R264): the tests in their order, and `ck` copied to position `pos`. What counts
against `CAP_BYTES` is log 5. -/
def Obligations.CtInsertAnswers : Prop :=
  ∀ (s : State) (pos : Word), exec (.ctInsert pos) s = .next (match s.cont, s.ck with
    | none, _ => s.answered 0x33#8 { st := .noContainer, sub := 0, idx := 0, off := 0, val := 0 }
    | some _, none => s.answered 0x33#8 { st := .noChunk, sub := 0, idx := 0, off := 0, val := 0 }
    | some cs, some c =>
      if cs.length < pos.toNat then
        s.answered 0x33#8 { st := .badPosition, sub := 0, idx := BitVec.ofNat 32 cs.length, off := 0, val := 0 }
      else if s.params.capChunks.toNat ≤ cs.length ∨ capFits s.params (s.arch.contBytes + c.data.length + c.data.length) = false then
        s.answered 0x33#8 { st := .capacityExceeded, sub := 0, idx := BitVec.ofNat 32 cs.length, off := 0, val := 0 }
      else
        { s.answered 0x33#8 { st := .ok, sub := 0, idx := pos, off := 0, val := BitVec.ofNat 32 (cs.length + 1) } with
          cont := some (cs.take pos.toNat ++ [c] ++ cs.drop pos.toNat) })

/-- `CT_APPEND` is `CT_INSERT n` (45_container_ops.md R265): the same `cont`, the same `ck` and the same response. -/
def Obligations.AppendIsInsertAtCount : Prop :=
  ∀ (s : State) (pos : Word), (∀ cs, s.cont = some cs → pos.toNat = cs.length) →
    ∃ t u, exec .ctAppend s = .next t ∧ exec (.ctInsert pos) s = .next u ∧ t.cont = u.cont ∧ t.ck = u.ck ∧ t.rsp = u.rsp

/-- `CT_FIND` (45_container_ops.md R268, R269): the least position at or after `pos` whose chunk has the type, with that
chunk's length, or `NotFound` with the count; the state is unchanged. -/
def Obligations.CtFindAnswers : Prop :=
  ∀ (s : State) (tc pos : Word), exec (.ctFind tc pos) s = .next (s.answered 0x34#8 (match s.cont with
    | none => { st := .noContainer, sub := 0, idx := 0, off := 0, val := 0 }
    | some cs =>
      match (List.range cs.length).find? (fun i => decide (pos.toNat ≤ i) && (cs[i]?.map Chunk.ty == some tc)) with
      | some i =>
        { st := .ok, sub := 0, idx := BitVec.ofNat 32 i, off := BitVec.ofNat 64 ((cs[i]?.map (fun c => c.data.length)).getD 0), val := 0 }
      | none => { st := .notFound, sub := 0, idx := BitVec.ofNat 32 cs.length, off := 0, val := 0 }))

/-- `find_all` (45_container_ops.md R270) is the list of all positions of the type, in increasing order; the host's loop of
`CT_FIND` commands, `FIND_ALL` (30_encoding.md R108), records the same positions, with one command more than it records. -/
def Obligations.FindAllGivesEveryMatch : Prop :=
  (∀ (cs : List Chunk) (t : Word), findAll cs t = (List.range cs.length).filter (fun i => cs[i]?.map Chunk.ty == some t))
  ∧ ∀ (a : Arch) (cs : List Chunk) (t : Word), a.cont = some cs → cs.length < 2 ^ 32 →
      recordedPositions (pseudoFindAll a t) = findAll cs t
      ∧ (pseudoFindAll a t).length = (findAll cs t).length + 1

/-- `CT_GET` (45_container_ops.md R272): the chunk at `pos` copied into `ck`, `cont` unchanged, or `BadPosition` with the count.
What counts against `CAP_BYTES` is log 8. -/
def Obligations.CtGetAnswers : Prop :=
  ∀ (s : State) (pos : Word), exec (.ctGet pos) s = .next (match s.cont with
    | none => s.answered 0x35#8 { st := .noContainer, sub := 0, idx := 0, off := 0, val := 0 }
    | some cs =>
      match cs[pos.toNat]? with
      | none => s.answered 0x35#8 { st := .badPosition, sub := 0, idx := BitVec.ofNat 32 cs.length, off := 0, val := 0 }
      | some c =>
        if capFits s.params (s.arch.contBytes + c.data.length) = false then
          s.answered 0x35#8 { st := .capacityExceeded, sub := 0, idx := BitVec.ofNat 32 cs.length, off := 0, val := 0 }
        else
          { s.answered 0x35#8 { st := .ok, sub := 0, idx := pos, off := BitVec.ofNat 64 c.data.length, val := c.ty } with ck := some c })

/-- `CT_REMOVE` (45_container_ops.md R273, R275, R276): the first chunk of the type leaves the container and goes to `ck`, the
gap closes, or `ChunkNotFound` with the count and nothing changed. -/
def Obligations.CtRemoveAnswers : Prop :=
  ∀ (s : State) (tc : Word), exec (.ctRemove tc) s = .next (match s.cont with
    | none => s.answered 0x36#8 { st := .noContainer, sub := 0, idx := 0, off := 0, val := 0 }
    | some cs =>
      match cs.findIdx? (fun c => c.ty == tc) with
      | none =>
        s.answered 0x36#8
          { st := .chunkNotFound, sub := 0, idx := BitVec.ofNat 32 cs.length, off := 0, val := BitVec.ofNat 32 cs.length }
      | some i =>
        { s.answered 0x36#8
            { st := .ok, sub := 0, idx := BitVec.ofNat 32 i
              off := BitVec.ofNat 64 ((cs[i]?.map (fun c => c.data.length)).getD 0), val := BitVec.ofNat 32 (cs.length - 1) } with
          cont := some (cs.eraseIdx i), ck := cs[i]? })

/-- Append and remove are inverse (45_container_ops.md R277): removing the type of a chunk just inserted, absent from the
positions before it, gives the old sequence, the position and the chunk. -/
def Obligations.RemoveUndoesInsert : Prop :=
  ∀ (cs : List Chunk) (p : Nat) (c : Chunk), p ≤ cs.length → (∀ d ∈ cs.take p, d.ty ≠ c.ty) →
    removeFirst (insertAt cs p c) c.ty = some (cs, p, c)

/-- Removal fails exactly when lookup finds nothing, in the functions and in the commands (45_container_ops.md R278). -/
def Obligations.RemoveFailsExactlyWhenFindDoes : Prop :=
  (∀ (cs : List Chunk) (t : Word), removeFirst cs t = none ↔ findFrom cs t 0 = none)
  ∧ ∀ (a : Arch) (t : Word), (fnCtRemove a t).rsp.st = .chunkNotFound ↔ (fnCtFind a t 0).rsp.st = .notFound

/-- `CT_COUNT` (45_container_ops.md R285). -/
def Obligations.CtCountAnswers : Prop :=
  (∀ w : CmdWord, cmdOp w = 0x38#8 → decode (.cmd w) = .ok .ctCount)
  ∧ ∀ s : State, exec .ctCount s = .next (s.answered 0x38#8 (match s.cont with
    | none => { st := .noContainer, sub := 0, idx := 0, off := 0, val := 0 }
    | some cs => { st := .ok, sub := 0, idx := BitVec.ofNat 32 cs.length, off := 0, val := BitVec.ofNat 32 cs.length }))

/-! ## Errors -/

/-- The matrix of 60_exceptions.md R315, and the sub-causes of R308: which statuses each command can answer, with
`CapacityExceeded` where R315 has it in parentheses; with the default parameters it is never answered, for a buffer below
2^32 bytes and a container below 2^32 - 1 chunks (R312). -/
def Obligations.StatusMatrix : Prop :=
  ∀ (i : Instr) (a : Arch) (buf : List Byte) (x : Txn), transact i a buf = some x →
    x.rsp.sub ∈ subsOf x.rsp.st
    ∧ x.rsp.st ∈ (match i with
      | .nop | .tyProps _ => [Status.ok]
      | .crcCalc => [.ok, .capacityExceeded]
      | .tyCheck _ => [.ok, .invalidChunkType]
      | .ckMake _ => [.ok, .lengthOverflow, .capacityExceeded]
      | .ckParse => [.ok, .malformedChunk, .capacityExceeded]
      | .ckSer | .ckType | .ckLen | .ckCrc | .ckData => [.ok, .noChunk]
      | .ckText => [.ok, .noChunk, .invalidEncoding]
      | .ctParse => [.ok, .invalidSignature, .malformedChunk, .capacityExceeded]
      | .ctSer | .ctList | .ctCount => [.ok, .noContainer]
      | .ctAppend => [.ok, .noContainer, .noChunk, .capacityExceeded]
      | .ctInsert _ => [.ok, .noContainer, .noChunk, .badPosition, .capacityExceeded]
      | .ctFind _ _ => [.ok, .notFound, .noContainer]
      | .ctGet _ => [.ok, .noContainer, .badPosition, .capacityExceeded]
      | .ctRemove _ => [.ok, .noContainer, .chunkNotFound]
      | .undefinedOp _ => [.badOpcode]
      | .signature | .chunk _ _ _ | .token _ _ | .rsp _ => [])
    ∧ (a.params = Config.defaultParams → buf.length < 2 ^ 32 → (∀ cs, a.cont = some cs → cs.length < 2 ^ 32 - 1) →
        x.rsp.st ≠ .capacityExceeded)

/-- The state after each failure (60_exceptions.md R317, with `NotFound`): `CT_PARSE` leaves `cont = none`, `CK_PARSE` and
`CK_MAKE` leave `ck = none`, and nothing else changes; a command that gives data gives an empty buffer. -/
def Obligations.FailuresKeepTheOtherRegisters : Prop :=
  ∀ (i : Instr) (a : Arch) (buf : List Byte) (x : Txn), transact i a buf = some x → x.rsp.st ≠ .ok →
    x.arch = (match i with
      | .ctParse => { a with cont := none }
      | .ckParse | .ckMake _ => { a with ck := none }
      | _ => a)
    ∧ x.out = (if givesBuffer i then some [] else none)

/-! ## Tokens and stream elements -/

/-- `SIG`, `B(b)` (43_framer.md R210, R211, R213), while the counters have room. -/
def Obligations.SigTokenStep : Prop :=
  ∀ (s : State) (b : Byte), s.ph = .sig → s.op = 0x30#8 → s.cnt.toNat < 8 → s.off ≠ BitVec.allOnes 64 →
    exec (.token false b) s = .next (
      if Config.sig[s.cnt.toNat]? = some b then
        if s.cnt = 7 then { s with off := s.off + 1, ph := .len, cnt := 0, len := 0, cstart := s.off + 1 }
        else { s with off := s.off + 1, cnt := s.cnt + 1 }
      else
        { s with off := s.off + 1, cnt := s.cnt + 1, ph := .drain
                 perr := some { st := .invalidSignature, sub := 2, idx := 0, off := 0 } })

/-- `LEN`, `B(b)` (43_framer.md R210, R214, R215), with `CAP_BYTES` unbounded: assembly of the length, and at the fourth byte
the bound. -/
def Obligations.LenTokenStep : Prop :=
  ∀ (s : State) (b : Byte), s.ph = .len → (s.op = 0x30#8 ∨ s.op = 0x21#8) → s.cnt.toNat < 4 → s.off ≠ BitVec.allOnes 64 →
    s.params.capBytes = none →
    let v : Word := (s.len <<< 8) ||| b.setWidth 32
    exec (.token false b) s = .next (
      if s.cnt = 3 then
        if v.getLsbD 31 then
          { s with off := s.off + 1, cnt := 4, len := v, ph := .drain
                   perr := some { st := .malformedChunk, sub := 2, idx := BitVec.ofNat 32 s.stg.length, off := s.cstart } }
        else { s with off := s.off + 1, cnt := 0, len := v, ph := .type, tc := 0, crc := 0xFFFFFFFF#32, pbuf := [] }
      else { s with off := s.off + 1, cnt := s.cnt + 1, len := v })

/-- `TYPE`, `B(b)` (43_framer.md R210, R216), with no test of the byte, and `DATA`, `B(b)` (R217). -/
def Obligations.TypeAndDataTokenStep : Prop :=
  ∀ (s : State) (b : Byte), (s.op = 0x30#8 ∨ s.op = 0x21#8) → s.off ≠ BitVec.allOnes 64 →
    (s.ph = .type → s.cnt.toNat < 4 →
      exec (.token false b) s = .next (
        let s1 := { s with off := s.off + 1, tc := (s.tc <<< 8) ||| b.setWidth 32, crc := crcUpd s.crc b }
        if s.cnt = 3 then { s1 with cnt := 0, rxcrc := 0, ph := if s.len = 0 then .crc else .data }
        else { s1 with cnt := s.cnt + 1 }))
    ∧ (s.ph = .data → s.cnt.toNat < s.len.toNat →
      exec (.token false b) s = .next (
        let s1 := { s with off := s.off + 1, pbuf := s.pbuf ++ [b], crc := crcUpd s.crc b }
        if s.cnt.toNat + 1 = s.len.toNat then { s1 with cnt := 0, rxcrc := 0, ph := .crc } else { s1 with cnt := s.cnt + 1 }))

/-- `CRC`, `B(b)` (43_framer.md R210, R218, R219), with room for the chunk: assembly of the CRC field, and at the fourth byte
the comparison. -/
def Obligations.CrcTokenStep : Prop :=
  ∀ (s : State) (b : Byte), s.ph = .crc → (s.op = 0x30#8 ∨ s.op = 0x21#8) → s.cnt.toNat < 4 → s.off ≠ BitVec.allOnes 64 →
    s.stg.length < s.params.capChunks.toNat →
    let v : Word := (s.rxcrc <<< 8) ||| b.setWidth 32
    exec (.token false b) s = .next (
      if s.cnt = 3 then
        if v = s.crc ^^^ 0xFFFFFFFF#32 then
          if s.op = 0x30#8 then
            { s with off := s.off + 1, rxcrc := v, stg := s.stg ++ [{ ty := s.tc, data := s.pbuf }], ph := .len, cnt := 0
                     len := 0, cstart := s.off + 1 }
          else
            { s with off := s.off + 1, rxcrc := v, cnt := 4, ck := some { ty := s.tc, data := s.pbuf }, cend := s.off + 1
                     ph := .trail }
        else
          { s with off := s.off + 1, rxcrc := v, cnt := 4, ph := .drain
                   perr := some { st := .malformedChunk, sub := 3, idx := BitVec.ofNat 32 s.stg.length, off := s.cstart } }
      else { s with off := s.off + 1, rxcrc := v, cnt := s.cnt + 1 })

/-- `LOAD`, `B(b)` and `EOB` (42_chunk.md R174, 40_crc.md R141), with `CAP_BYTES` unbounded and room in the counters. -/
def Obligations.LoadTokenStep : Prop :=
  ∀ (s : State) (d b : Byte), s.ph = .load → s.params.capBytes = none → s.off ≠ BitVec.allOnes 64 →
    (s.op = 0x20#8 →
      exec (.token false b) s = .next (
        if 2 ^ 31 - 1 ≤ s.len.toNat then
          { s with perr := some { st := .lengthOverflow, sub := 0, idx := 0, off := 0 }, ph := .drain }
        else { s with pbuf := s.pbuf ++ [b], crc := crcUpd s.crc b, len := s.len + 1, off := s.off + 1 })
      ∧ exec (.token true d) s = .next
          { s with ck := some { ty := s.tc, data := s.pbuf }, ph := .idle
                   rsp := s.rsp ++ [{ st := .ok, sub := 0, idx := 0, off := s.off, val := s.crc ^^^ 0xFFFFFFFF#32 }] })
    ∧ (s.op = 0x01#8 →
      exec (.token false b) s = .next { s with crc := crcUpd s.crc b, off := s.off + 1 }
      ∧ exec (.token true d) s = .next
          { s with ph := .idle
                   rsp := s.rsp ++ [{ st := .ok, sub := 0, idx := 0, off := s.off, val := s.crc ^^^ 0xFFFFFFFF#32 }] })

/-- `EOB` in the framer's phases (43_framer.md R212, R220, R221, R223, R225): every one of them ends the command. -/
def Obligations.EobTokenStep : Prop :=
  ∀ (s : State) (d : Byte),
    (s.ph = .sig → s.op = 0x30#8 → exec (.token true d) s = .next
      { s with ph := .idle, rsp := s.rsp ++ [{ st := .invalidSignature, sub := 1, idx := 0, off := 0, val := 0 }] })
    ∧ (s.ph = .len → s.op = 0x30#8 → s.cnt = 0 → exec (.token true d) s = .next
      { s with ph := .idle, cont := some s.stg
               rsp := s.rsp ++ [{ st := .ok, sub := 0, idx := BitVec.ofNat 32 s.stg.length, off := s.off, val := 0 }] })
    ∧ ((s.ph = .len ∧ (s.op = 0x21#8 ∨ s.op = 0x30#8 ∧ s.cnt ≠ 0)
        ∨ (s.ph = .type ∨ s.ph = .data ∨ s.ph = .crc) ∧ (s.op = 0x21#8 ∨ s.op = 0x30#8)) →
      exec (.token true d) s = .next
        { s with ph := .idle
                 rsp := s.rsp ++ [{ st := .malformedChunk, sub := 1, idx := BitVec.ofNat 32 s.stg.length, off := s.cstart, val := 0 }] })
    ∧ (s.ph = .trail → s.op = 0x21#8 → exec (.token true d) s = .next
      { s with ph := .idle, rsp := s.rsp ++ [{ st := .ok, sub := 0, idx := 0, off := s.cend, val := s.crc ^^^ 0xFFFFFFFF#32 }] })
    ∧ (s.ph = .drain → s.op ∈ [0x30#8, 0x21#8, 0x20#8, 0x01#8] → ∀ e, s.perr = some e → exec (.token true d) s = .next
      { s with ph := .idle, rsp := s.rsp ++ [{ st := e.st, sub := e.sub, idx := e.idx, off := e.off, val := 0 }] })

/-- Bytes after an error or after the one chunk are discarded (43_framer.md R222, R225), and in a phase that takes no input a
token stays at the head of `DIN` (70_reset_and_hazards.md R353, log 12). -/
def Obligations.IgnoredTokenStep : Prop :=
  ∀ (s : State) (b : Byte),
    (s.ph = .drain → s.op ∈ [0x30#8, 0x21#8, 0x20#8, 0x01#8] → exec (.token false b) s = .next s)
    ∧ (s.ph = .trail → s.op = 0x21#8 → exec (.token false b) s = .next s)
    ∧ ∀ eob : Bool, s.ph.isInput = false →
        ∃ w : TokWord, decode (.tok w) = .ok (.token eob b) ∧ exec (.token eob b) s = .next { s with din := w :: s.din }

/-- A chunk element met where a chunk starts (30_encoding.md R92, 43_framer.md R214 to R219), with unbounded `CAP_BYTES`, for
the two commands that frame chunks. With the right checksum `CT_PARSE`, with room for one more chunk, stages it and the next
length field follows; `CK_PARSE` puts it into `ck` and the phase is `TRAIL`. With any other value in its CRC field it is
refused and the rest of the buffer is drained. That `CHUNK` as an instruction is its bytes taken one after another is the
model's choice (log 11). -/
def Obligations.ChunkElementIsStagedOrRefused : Prop :=
  ∀ (s : State) (c : Chunk) (x : Word), s.ph = .len → s.cnt = 0 → s.cstart = s.off → s.params.capBytes = none → ChunkOk c →
    s.off.toNat + 12 + c.data.length < 2 ^ 64 →
    (s.op = 0x21#8 ∨ (s.op = 0x30#8 ∧ s.stg.length < s.params.capChunks.toNat)) →
    ∃ t, exec (.chunk c.ty c.data x) s = .next t
      ∧ t.cont = s.cont ∧ t.cmd = s.cmd ∧ t.din = s.din ∧ t.dout = s.dout ∧ t.rsp = s.rsp ∧ t.op = s.op
      ∧ t.off = s.off + BitVec.ofNat 64 (12 + c.data.length)
      ∧ (if x = crc32 (be32 c.ty ++ c.data) then
          t.perr = s.perr
          ∧ (if s.op = 0x30#8 then
              t.stg = s.stg ++ [c] ∧ t.ck = s.ck ∧ t.ph = .len ∧ t.cnt = 0 ∧ t.len = 0 ∧ t.cstart = t.off
            else
              t.stg = s.stg ∧ t.ck = some c ∧ t.ph = .trail ∧ t.cend = t.off ∧ t.crc ^^^ 0xFFFFFFFF#32 = x)
        else
          t.stg = s.stg ∧ t.ck = s.ck ∧ t.ph = .drain ∧ t.cstart = s.cstart
          ∧ t.perr = some { st := .malformedChunk, sub := 3, idx := BitVec.ofNat 32 s.stg.length, off := s.off })

/-- The signature element at the start of a container buffer leads to the first length field (30_encoding.md R91, 43_framer.md
R209, R211). A response element ends the running command: the record goes to `RSP` and the phase is `IDLE` (46_system.md
R290); in `IDLE` no command runs and no response is produced (70_reset_and_hazards.md R353). That the two rows are run as
instructions so is the model's choice (log 11). -/
def Obligations.SignatureAndResponseElements : Prop :=
  (∀ s : State, s.ph = .sig → s.op = 0x30#8 → s.cnt = 0 → s.off = 0 →
    exec .signature s = .next { s with ph := .len, cnt := 0, len := 0, off := 8, cstart := 8 })
  ∧ ∀ (s : State) (r : Rsp), exec (.rsp r) s = .next (if s.ph = .idle then s else { s with rsp := s.rsp ++ [r], ph := .idle })

/-! ## Start rules -/

/-- Acceptance and start rule of the nine commands that take or give a buffer (40_crc.md R141; 42_chunk.md R170, R174, R184;
43_framer.md R202, R209; 44_serializer.md R246, R247, R249): what each writes, and nothing else. Those that give one are
taken with something to give: a chunk or a container held, for `CK_TEXT` a payload that is valid text. What becomes of `tc`
where a chunk or its bytes are emitted is the model's choice (log 21): `CK_SER` loads the type code of the chunk it begins
(10_state.md R34); `CT_SER` begins no chunk yet, and the plain emitters keep `tc`. -/
def Obligations.StartRules : Prop :=
  ∀ (s : State) (tc : Word),
    exec .crcCalc s = .next { s with op := 0x01#8, crc := 0xFFFFFFFF#32, off := 0, ph := .load }
    ∧ exec (.ckMake tc) s = .next { s with op := 0x20#8, ck := none, tc := tc, crc := crcRun 0xFFFFFFFF#32 (be32 tc), len := 0
                                           off := 0, pbuf := [], perr := none, ph := .load }
    ∧ exec .ckParse s = .next { s with op := 0x21#8, ck := none, stg := [], perr := none, off := 0, cstart := 0, cnt := 0, len := 0
                                       ph := .len }
    ∧ exec .ctParse s = .next { s with op := 0x30#8, cont := none, stg := [], perr := none, off := 0, cstart := 0, cnt := 0
                                       ph := .sig }
    ∧ (∀ c, s.ck = some c → exec .ckSer s = .next { s with op := 0x22#8, tc := c.ty, cnt := 0, off := 0, ph := .sLen })
    ∧ (∀ c, s.ck = some c → exec .ckData s = .next
        { s with op := 0x26#8, cnt := 0, off := 0, ph := if c.data = [] then .sEob else .sRaw })
    ∧ (∀ c, s.ck = some c → textValid s.params.text c.data = true → exec .ckText s = .next
        { s with op := 0x27#8, cnt := 0, off := 0, ph := if c.data = [] then .sEob else .sRaw })
    ∧ (∀ cs, s.cont = some cs → exec .ctSer s = .next { s with op := 0x31#8, sidx := 0, cnt := 0, off := 0, ph := .sSig })
    ∧ (∀ cs, s.cont = some cs → exec .ctList s = .next
        { s with op := 0x37#8, cnt := 0, off := 0, ph := if cs = [] then .sEob else .sRaw })
end

