-- ==== Sys2Proof/Laws/State.lean ====
section
/-! SUPPORT. What each named update of the state does to each field: one lemma per field per update. -/

namespace Sys2Proof.Machine

variable (s : State)

/-! `State.accept` -/

@[simp] theorem State.accept_params (o : Byte) : (s.accept o).params = s.params := rfl
@[simp] theorem State.accept_cont (o : Byte) : (s.accept o).cont = s.cont := rfl
@[simp] theorem State.accept_ck (o : Byte) : (s.accept o).ck = s.ck := rfl
@[simp] theorem State.accept_cmd (o : Byte) : (s.accept o).cmd = s.cmd := rfl
@[simp] theorem State.accept_din (o : Byte) : (s.accept o).din = s.din := rfl
@[simp] theorem State.accept_dout (o : Byte) : (s.accept o).dout = s.dout := rfl
@[simp] theorem State.accept_rsp (o : Byte) : (s.accept o).rsp = s.rsp := rfl
@[simp] theorem State.accept_ph (o : Byte) : (s.accept o).ph = s.ph := rfl
@[simp] theorem State.accept_op (o : Byte) : (s.accept o).op = o := rfl
@[simp] theorem State.accept_crc (o : Byte) : (s.accept o).crc = s.crc := rfl
@[simp] theorem State.accept_len (o : Byte) : (s.accept o).len = s.len := rfl
@[simp] theorem State.accept_tc (o : Byte) : (s.accept o).tc = s.tc := rfl
@[simp] theorem State.accept_rxcrc (o : Byte) : (s.accept o).rxcrc = s.rxcrc := rfl
@[simp] theorem State.accept_cnt (o : Byte) : (s.accept o).cnt = s.cnt := rfl
@[simp] theorem State.accept_off (o : Byte) : (s.accept o).off = s.off := rfl
@[simp] theorem State.accept_cstart (o : Byte) : (s.accept o).cstart = s.cstart := rfl
@[simp] theorem State.accept_cend (o : Byte) : (s.accept o).cend = s.cend := rfl
@[simp] theorem State.accept_pbuf (o : Byte) : (s.accept o).pbuf = s.pbuf := rfl
@[simp] theorem State.accept_stg (o : Byte) : (s.accept o).stg = s.stg := rfl
@[simp] theorem State.accept_perr (o : Byte) : (s.accept o).perr = s.perr := rfl
@[simp] theorem State.accept_sidx (o : Byte) : (s.accept o).sidx = s.sidx := rfl

/-! `State.respond` -/

@[simp] theorem State.respond_params (r : Rsp) : (s.respond r).params = s.params := rfl
@[simp] theorem State.respond_cont (r : Rsp) : (s.respond r).cont = s.cont := rfl
@[simp] theorem State.respond_ck (r : Rsp) : (s.respond r).ck = s.ck := rfl
@[simp] theorem State.respond_cmd (r : Rsp) : (s.respond r).cmd = s.cmd := rfl
@[simp] theorem State.respond_din (r : Rsp) : (s.respond r).din = s.din := rfl
@[simp] theorem State.respond_dout (r : Rsp) : (s.respond r).dout = s.dout := rfl
@[simp] theorem State.respond_rsp (r : Rsp) : (s.respond r).rsp = s.rsp ++ [r] := rfl
@[simp] theorem State.respond_ph (r : Rsp) : (s.respond r).ph = .idle := rfl
@[simp] theorem State.respond_op (r : Rsp) : (s.respond r).op = s.op := rfl
@[simp] theorem State.respond_crc (r : Rsp) : (s.respond r).crc = s.crc := rfl
@[simp] theorem State.respond_len (r : Rsp) : (s.respond r).len = s.len := rfl
@[simp] theorem State.respond_tc (r : Rsp) : (s.respond r).tc = s.tc := rfl
@[simp] theorem State.respond_rxcrc (r : Rsp) : (s.respond r).rxcrc = s.rxcrc := rfl
@[simp] theorem State.respond_cnt (r : Rsp) : (s.respond r).cnt = s.cnt := rfl
@[simp] theorem State.respond_off (r : Rsp) : (s.respond r).off = s.off := rfl
@[simp] theorem State.respond_cstart (r : Rsp) : (s.respond r).cstart = s.cstart := rfl
@[simp] theorem State.respond_cend (r : Rsp) : (s.respond r).cend = s.cend := rfl
@[simp] theorem State.respond_pbuf (r : Rsp) : (s.respond r).pbuf = s.pbuf := rfl
@[simp] theorem State.respond_stg (r : Rsp) : (s.respond r).stg = s.stg := rfl
@[simp] theorem State.respond_perr (r : Rsp) : (s.respond r).perr = s.perr := rfl
@[simp] theorem State.respond_sidx (r : Rsp) : (s.respond r).sidx = s.sidx := rfl

/-! `State.raise` -/

@[simp] theorem State.raise_params (st : Status) (sub : Byte) (i : Word) (o : Off) (v : Word) : (s.raise st sub i o v).params = s.params := rfl
@[simp] theorem State.raise_cont (st : Status) (sub : Byte) (i : Word) (o : Off) (v : Word) : (s.raise st sub i o v).cont = s.cont := rfl
@[simp] theorem State.raise_ck (st : Status) (sub : Byte) (i : Word) (o : Off) (v : Word) : (s.raise st sub i o v).ck = s.ck := rfl
@[simp] theorem State.raise_cmd (st : Status) (sub : Byte) (i : Word) (o : Off) (v : Word) : (s.raise st sub i o v).cmd = s.cmd := rfl
@[simp] theorem State.raise_din (st : Status) (sub : Byte) (i : Word) (o : Off) (v : Word) : (s.raise st sub i o v).din = s.din := rfl
@[simp] theorem State.raise_dout (st : Status) (sub : Byte) (i : Word) (o : Off) (v : Word) : (s.raise st sub i o v).dout = s.dout := rfl
@[simp] theorem State.raise_rsp (st : Status) (sub : Byte) (i : Word) (o : Off) (v : Word) : (s.raise st sub i o v).rsp = s.rsp ++ [{ st := st, sub := sub, idx := i, off := o, val := v }] := rfl
@[simp] theorem State.raise_ph (st : Status) (sub : Byte) (i : Word) (o : Off) (v : Word) : (s.raise st sub i o v).ph = .idle := rfl
@[simp] theorem State.raise_op (st : Status) (sub : Byte) (i : Word) (o : Off) (v : Word) : (s.raise st sub i o v).op = s.op := rfl
@[simp] theorem State.raise_crc (st : Status) (sub : Byte) (i : Word) (o : Off) (v : Word) : (s.raise st sub i o v).crc = s.crc := rfl
@[simp] theorem State.raise_len (st : Status) (sub : Byte) (i : Word) (o : Off) (v : Word) : (s.raise st sub i o v).len = s.len := rfl
@[simp] theorem State.raise_tc (st : Status) (sub : Byte) (i : Word) (o : Off) (v : Word) : (s.raise st sub i o v).tc = s.tc := rfl
@[simp] theorem State.raise_rxcrc (st : Status) (sub : Byte) (i : Word) (o : Off) (v : Word) : (s.raise st sub i o v).rxcrc = s.rxcrc := rfl
@[simp] theorem State.raise_cnt (st : Status) (sub : Byte) (i : Word) (o : Off) (v : Word) : (s.raise st sub i o v).cnt = s.cnt := rfl
@[simp] theorem State.raise_off (st : Status) (sub : Byte) (i : Word) (o : Off) (v : Word) : (s.raise st sub i o v).off = s.off := rfl
@[simp] theorem State.raise_cstart (st : Status) (sub : Byte) (i : Word) (o : Off) (v : Word) : (s.raise st sub i o v).cstart = s.cstart := rfl
@[simp] theorem State.raise_cend (st : Status) (sub : Byte) (i : Word) (o : Off) (v : Word) : (s.raise st sub i o v).cend = s.cend := rfl
@[simp] theorem State.raise_pbuf (st : Status) (sub : Byte) (i : Word) (o : Off) (v : Word) : (s.raise st sub i o v).pbuf = s.pbuf := rfl
@[simp] theorem State.raise_stg (st : Status) (sub : Byte) (i : Word) (o : Off) (v : Word) : (s.raise st sub i o v).stg = s.stg := rfl
@[simp] theorem State.raise_perr (st : Status) (sub : Byte) (i : Word) (o : Off) (v : Word) : (s.raise st sub i o v).perr = s.perr := rfl
@[simp] theorem State.raise_sidx (st : Status) (sub : Byte) (i : Word) (o : Off) (v : Word) : (s.raise st sub i o v).sidx = s.sidx := rfl

/-! `State.putTok` -/

@[simp] theorem State.putTok_params (t : Token) : (s.putTok t).params = s.params := rfl
@[simp] theorem State.putTok_cont (t : Token) : (s.putTok t).cont = s.cont := rfl
@[simp] theorem State.putTok_ck (t : Token) : (s.putTok t).ck = s.ck := rfl
@[simp] theorem State.putTok_cmd (t : Token) : (s.putTok t).cmd = s.cmd := rfl
@[simp] theorem State.putTok_din (t : Token) : (s.putTok t).din = s.din := rfl
@[simp] theorem State.putTok_dout (t : Token) : (s.putTok t).dout = s.dout ++ [tokWord t] := rfl
@[simp] theorem State.putTok_rsp (t : Token) : (s.putTok t).rsp = s.rsp := rfl
@[simp] theorem State.putTok_ph (t : Token) : (s.putTok t).ph = s.ph := rfl
@[simp] theorem State.putTok_op (t : Token) : (s.putTok t).op = s.op := rfl
@[simp] theorem State.putTok_crc (t : Token) : (s.putTok t).crc = s.crc := rfl
@[simp] theorem State.putTok_len (t : Token) : (s.putTok t).len = s.len := rfl
@[simp] theorem State.putTok_tc (t : Token) : (s.putTok t).tc = s.tc := rfl
@[simp] theorem State.putTok_rxcrc (t : Token) : (s.putTok t).rxcrc = s.rxcrc := rfl
@[simp] theorem State.putTok_cnt (t : Token) : (s.putTok t).cnt = s.cnt := rfl
@[simp] theorem State.putTok_off (t : Token) : (s.putTok t).off = s.off := rfl
@[simp] theorem State.putTok_cstart (t : Token) : (s.putTok t).cstart = s.cstart := rfl
@[simp] theorem State.putTok_cend (t : Token) : (s.putTok t).cend = s.cend := rfl
@[simp] theorem State.putTok_pbuf (t : Token) : (s.putTok t).pbuf = s.pbuf := rfl
@[simp] theorem State.putTok_stg (t : Token) : (s.putTok t).stg = s.stg := rfl
@[simp] theorem State.putTok_perr (t : Token) : (s.putTok t).perr = s.perr := rfl
@[simp] theorem State.putTok_sidx (t : Token) : (s.putTok t).sidx = s.sidx := rfl

/-! `State.putBack` -/

@[simp] theorem State.putBack_params (ts : List TokWord) : (s.putBack ts).params = s.params := rfl
@[simp] theorem State.putBack_cont (ts : List TokWord) : (s.putBack ts).cont = s.cont := rfl
@[simp] theorem State.putBack_ck (ts : List TokWord) : (s.putBack ts).ck = s.ck := rfl
@[simp] theorem State.putBack_cmd (ts : List TokWord) : (s.putBack ts).cmd = s.cmd := rfl
@[simp] theorem State.putBack_din (ts : List TokWord) : (s.putBack ts).din = ts ++ s.din := rfl
@[simp] theorem State.putBack_dout (ts : List TokWord) : (s.putBack ts).dout = s.dout := rfl
@[simp] theorem State.putBack_rsp (ts : List TokWord) : (s.putBack ts).rsp = s.rsp := rfl
@[simp] theorem State.putBack_ph (ts : List TokWord) : (s.putBack ts).ph = s.ph := rfl
@[simp] theorem State.putBack_op (ts : List TokWord) : (s.putBack ts).op = s.op := rfl
@[simp] theorem State.putBack_crc (ts : List TokWord) : (s.putBack ts).crc = s.crc := rfl
@[simp] theorem State.putBack_len (ts : List TokWord) : (s.putBack ts).len = s.len := rfl
@[simp] theorem State.putBack_tc (ts : List TokWord) : (s.putBack ts).tc = s.tc := rfl
@[simp] theorem State.putBack_rxcrc (ts : List TokWord) : (s.putBack ts).rxcrc = s.rxcrc := rfl
@[simp] theorem State.putBack_cnt (ts : List TokWord) : (s.putBack ts).cnt = s.cnt := rfl
@[simp] theorem State.putBack_off (ts : List TokWord) : (s.putBack ts).off = s.off := rfl
@[simp] theorem State.putBack_cstart (ts : List TokWord) : (s.putBack ts).cstart = s.cstart := rfl
@[simp] theorem State.putBack_cend (ts : List TokWord) : (s.putBack ts).cend = s.cend := rfl
@[simp] theorem State.putBack_pbuf (ts : List TokWord) : (s.putBack ts).pbuf = s.pbuf := rfl
@[simp] theorem State.putBack_stg (ts : List TokWord) : (s.putBack ts).stg = s.stg := rfl
@[simp] theorem State.putBack_perr (ts : List TokWord) : (s.putBack ts).perr = s.perr := rfl
@[simp] theorem State.putBack_sidx (ts : List TokWord) : (s.putBack ts).sidx = s.sidx := rfl

/-! `State.toDrain` -/

@[simp] theorem State.toDrain_params (e : PendingError) : (s.toDrain e).params = s.params := rfl
@[simp] theorem State.toDrain_cont (e : PendingError) : (s.toDrain e).cont = s.cont := rfl
@[simp] theorem State.toDrain_ck (e : PendingError) : (s.toDrain e).ck = s.ck := rfl
@[simp] theorem State.toDrain_cmd (e : PendingError) : (s.toDrain e).cmd = s.cmd := rfl
@[simp] theorem State.toDrain_din (e : PendingError) : (s.toDrain e).din = s.din := rfl
@[simp] theorem State.toDrain_dout (e : PendingError) : (s.toDrain e).dout = s.dout := rfl
@[simp] theorem State.toDrain_rsp (e : PendingError) : (s.toDrain e).rsp = s.rsp := rfl
@[simp] theorem State.toDrain_ph (e : PendingError) : (s.toDrain e).ph = .drain := rfl
@[simp] theorem State.toDrain_op (e : PendingError) : (s.toDrain e).op = s.op := rfl
@[simp] theorem State.toDrain_crc (e : PendingError) : (s.toDrain e).crc = s.crc := rfl
@[simp] theorem State.toDrain_len (e : PendingError) : (s.toDrain e).len = s.len := rfl
@[simp] theorem State.toDrain_tc (e : PendingError) : (s.toDrain e).tc = s.tc := rfl
@[simp] theorem State.toDrain_rxcrc (e : PendingError) : (s.toDrain e).rxcrc = s.rxcrc := rfl
@[simp] theorem State.toDrain_cnt (e : PendingError) : (s.toDrain e).cnt = s.cnt := rfl
@[simp] theorem State.toDrain_off (e : PendingError) : (s.toDrain e).off = s.off := rfl
@[simp] theorem State.toDrain_cstart (e : PendingError) : (s.toDrain e).cstart = s.cstart := rfl
@[simp] theorem State.toDrain_cend (e : PendingError) : (s.toDrain e).cend = s.cend := rfl
@[simp] theorem State.toDrain_pbuf (e : PendingError) : (s.toDrain e).pbuf = s.pbuf := rfl
@[simp] theorem State.toDrain_stg (e : PendingError) : (s.toDrain e).stg = s.stg := rfl
@[simp] theorem State.toDrain_perr (e : PendingError) : (s.toDrain e).perr = some e := rfl
@[simp] theorem State.toDrain_sidx (e : PendingError) : (s.toDrain e).sidx = s.sidx := rfl

/-! `State.tick` -/

@[simp] theorem State.tick_params : (s.tick).params = s.params := rfl
@[simp] theorem State.tick_cont : (s.tick).cont = s.cont := rfl
@[simp] theorem State.tick_ck : (s.tick).ck = s.ck := rfl
@[simp] theorem State.tick_cmd : (s.tick).cmd = s.cmd := rfl
@[simp] theorem State.tick_din : (s.tick).din = s.din := rfl
@[simp] theorem State.tick_dout : (s.tick).dout = s.dout := rfl
@[simp] theorem State.tick_rsp : (s.tick).rsp = s.rsp := rfl
@[simp] theorem State.tick_ph : (s.tick).ph = s.ph := rfl
@[simp] theorem State.tick_op : (s.tick).op = s.op := rfl
@[simp] theorem State.tick_crc : (s.tick).crc = s.crc := rfl
@[simp] theorem State.tick_len : (s.tick).len = s.len := rfl
@[simp] theorem State.tick_tc : (s.tick).tc = s.tc := rfl
@[simp] theorem State.tick_rxcrc : (s.tick).rxcrc = s.rxcrc := rfl
@[simp] theorem State.tick_cnt : (s.tick).cnt = s.cnt + 1 := rfl
@[simp] theorem State.tick_off : (s.tick).off = s.off + 1 := rfl
@[simp] theorem State.tick_cstart : (s.tick).cstart = s.cstart := rfl
@[simp] theorem State.tick_cend : (s.tick).cend = s.cend := rfl
@[simp] theorem State.tick_pbuf : (s.tick).pbuf = s.pbuf := rfl
@[simp] theorem State.tick_stg : (s.tick).stg = s.stg := rfl
@[simp] theorem State.tick_perr : (s.tick).perr = s.perr := rfl
@[simp] theorem State.tick_sidx : (s.tick).sidx = s.sidx := rfl

/-! `State.enter` -/

@[simp] theorem State.enter_params (p : Phase) : (s.enter p).params = s.params := rfl
@[simp] theorem State.enter_cont (p : Phase) : (s.enter p).cont = s.cont := rfl
@[simp] theorem State.enter_ck (p : Phase) : (s.enter p).ck = s.ck := rfl
@[simp] theorem State.enter_cmd (p : Phase) : (s.enter p).cmd = s.cmd := rfl
@[simp] theorem State.enter_din (p : Phase) : (s.enter p).din = s.din := rfl
@[simp] theorem State.enter_dout (p : Phase) : (s.enter p).dout = s.dout := rfl
@[simp] theorem State.enter_rsp (p : Phase) : (s.enter p).rsp = s.rsp := rfl
@[simp] theorem State.enter_ph (p : Phase) : (s.enter p).ph = p := rfl
@[simp] theorem State.enter_op (p : Phase) : (s.enter p).op = s.op := rfl
@[simp] theorem State.enter_crc (p : Phase) : (s.enter p).crc = s.crc := rfl
@[simp] theorem State.enter_len (p : Phase) : (s.enter p).len = s.len := rfl
@[simp] theorem State.enter_tc (p : Phase) : (s.enter p).tc = s.tc := rfl
@[simp] theorem State.enter_rxcrc (p : Phase) : (s.enter p).rxcrc = s.rxcrc := rfl
@[simp] theorem State.enter_cnt (p : Phase) : (s.enter p).cnt = 0 := rfl
@[simp] theorem State.enter_off (p : Phase) : (s.enter p).off = s.off := rfl
@[simp] theorem State.enter_cstart (p : Phase) : (s.enter p).cstart = s.cstart := rfl
@[simp] theorem State.enter_cend (p : Phase) : (s.enter p).cend = s.cend := rfl
@[simp] theorem State.enter_pbuf (p : Phase) : (s.enter p).pbuf = s.pbuf := rfl
@[simp] theorem State.enter_stg (p : Phase) : (s.enter p).stg = s.stg := rfl
@[simp] theorem State.enter_perr (p : Phase) : (s.enter p).perr = s.perr := rfl
@[simp] theorem State.enter_sidx (p : Phase) : (s.enter p).sidx = s.sidx := rfl

/-! `State.beginChunk` -/

@[simp] theorem State.beginChunk_params (c : Chunk) : (s.beginChunk c).params = s.params := rfl
@[simp] theorem State.beginChunk_cont (c : Chunk) : (s.beginChunk c).cont = s.cont := rfl
@[simp] theorem State.beginChunk_ck (c : Chunk) : (s.beginChunk c).ck = s.ck := rfl
@[simp] theorem State.beginChunk_cmd (c : Chunk) : (s.beginChunk c).cmd = s.cmd := rfl
@[simp] theorem State.beginChunk_din (c : Chunk) : (s.beginChunk c).din = s.din := rfl
@[simp] theorem State.beginChunk_dout (c : Chunk) : (s.beginChunk c).dout = s.dout := rfl
@[simp] theorem State.beginChunk_rsp (c : Chunk) : (s.beginChunk c).rsp = s.rsp := rfl
@[simp] theorem State.beginChunk_ph (c : Chunk) : (s.beginChunk c).ph = .sLen := rfl
@[simp] theorem State.beginChunk_op (c : Chunk) : (s.beginChunk c).op = s.op := rfl
@[simp] theorem State.beginChunk_crc (c : Chunk) : (s.beginChunk c).crc = s.crc := rfl
@[simp] theorem State.beginChunk_len (c : Chunk) : (s.beginChunk c).len = s.len := rfl
@[simp] theorem State.beginChunk_tc (c : Chunk) : (s.beginChunk c).tc = c.ty := rfl
@[simp] theorem State.beginChunk_rxcrc (c : Chunk) : (s.beginChunk c).rxcrc = s.rxcrc := rfl
@[simp] theorem State.beginChunk_cnt (c : Chunk) : (s.beginChunk c).cnt = 0 := rfl
@[simp] theorem State.beginChunk_off (c : Chunk) : (s.beginChunk c).off = s.off := rfl
@[simp] theorem State.beginChunk_cstart (c : Chunk) : (s.beginChunk c).cstart = s.cstart := rfl
@[simp] theorem State.beginChunk_cend (c : Chunk) : (s.beginChunk c).cend = s.cend := rfl
@[simp] theorem State.beginChunk_pbuf (c : Chunk) : (s.beginChunk c).pbuf = s.pbuf := rfl
@[simp] theorem State.beginChunk_stg (c : Chunk) : (s.beginChunk c).stg = s.stg := rfl
@[simp] theorem State.beginChunk_perr (c : Chunk) : (s.beginChunk c).perr = s.perr := rfl
@[simp] theorem State.beginChunk_sidx (c : Chunk) : (s.beginChunk c).sidx = s.sidx := rfl

/-! `State.emitByte` -/

@[simp] theorem State.emitByte_params (b : Byte) : (s.emitByte b).params = s.params := rfl
@[simp] theorem State.emitByte_cont (b : Byte) : (s.emitByte b).cont = s.cont := rfl
@[simp] theorem State.emitByte_ck (b : Byte) : (s.emitByte b).ck = s.ck := rfl
@[simp] theorem State.emitByte_cmd (b : Byte) : (s.emitByte b).cmd = s.cmd := rfl
@[simp] theorem State.emitByte_din (b : Byte) : (s.emitByte b).din = s.din := rfl
@[simp] theorem State.emitByte_dout (b : Byte) : (s.emitByte b).dout = s.dout ++ [tokWord (.b b)] := rfl
@[simp] theorem State.emitByte_rsp (b : Byte) : (s.emitByte b).rsp = s.rsp := rfl
@[simp] theorem State.emitByte_ph (b : Byte) : (s.emitByte b).ph = s.ph := rfl
@[simp] theorem State.emitByte_op (b : Byte) : (s.emitByte b).op = s.op := rfl
@[simp] theorem State.emitByte_crc (b : Byte) : (s.emitByte b).crc = s.crc := rfl
@[simp] theorem State.emitByte_len (b : Byte) : (s.emitByte b).len = s.len := rfl
@[simp] theorem State.emitByte_tc (b : Byte) : (s.emitByte b).tc = s.tc := rfl
@[simp] theorem State.emitByte_rxcrc (b : Byte) : (s.emitByte b).rxcrc = s.rxcrc := rfl
@[simp] theorem State.emitByte_cnt (b : Byte) : (s.emitByte b).cnt = s.cnt + 1 := rfl
@[simp] theorem State.emitByte_off (b : Byte) : (s.emitByte b).off = s.off + 1 := rfl
@[simp] theorem State.emitByte_cstart (b : Byte) : (s.emitByte b).cstart = s.cstart := rfl
@[simp] theorem State.emitByte_cend (b : Byte) : (s.emitByte b).cend = s.cend := rfl
@[simp] theorem State.emitByte_pbuf (b : Byte) : (s.emitByte b).pbuf = s.pbuf := rfl
@[simp] theorem State.emitByte_stg (b : Byte) : (s.emitByte b).stg = s.stg := rfl
@[simp] theorem State.emitByte_perr (b : Byte) : (s.emitByte b).perr = s.perr := rfl
@[simp] theorem State.emitByte_sidx (b : Byte) : (s.emitByte b).sidx = s.sidx := rfl

/-! `State.placeCmd` -/

@[simp] theorem State.placeCmd_params (w : CmdWord) : (s.placeCmd w).params = s.params := rfl
@[simp] theorem State.placeCmd_cont (w : CmdWord) : (s.placeCmd w).cont = s.cont := rfl
@[simp] theorem State.placeCmd_ck (w : CmdWord) : (s.placeCmd w).ck = s.ck := rfl
@[simp] theorem State.placeCmd_cmd (w : CmdWord) : (s.placeCmd w).cmd = w :: s.cmd := rfl
@[simp] theorem State.placeCmd_din (w : CmdWord) : (s.placeCmd w).din = s.din := rfl
@[simp] theorem State.placeCmd_dout (w : CmdWord) : (s.placeCmd w).dout = s.dout := rfl
@[simp] theorem State.placeCmd_rsp (w : CmdWord) : (s.placeCmd w).rsp = s.rsp := rfl
@[simp] theorem State.placeCmd_ph (w : CmdWord) : (s.placeCmd w).ph = .idle := rfl
@[simp] theorem State.placeCmd_op (w : CmdWord) : (s.placeCmd w).op = s.op := rfl
@[simp] theorem State.placeCmd_crc (w : CmdWord) : (s.placeCmd w).crc = s.crc := rfl
@[simp] theorem State.placeCmd_len (w : CmdWord) : (s.placeCmd w).len = s.len := rfl
@[simp] theorem State.placeCmd_tc (w : CmdWord) : (s.placeCmd w).tc = s.tc := rfl
@[simp] theorem State.placeCmd_rxcrc (w : CmdWord) : (s.placeCmd w).rxcrc = s.rxcrc := rfl
@[simp] theorem State.placeCmd_cnt (w : CmdWord) : (s.placeCmd w).cnt = s.cnt := rfl
@[simp] theorem State.placeCmd_off (w : CmdWord) : (s.placeCmd w).off = s.off := rfl
@[simp] theorem State.placeCmd_cstart (w : CmdWord) : (s.placeCmd w).cstart = s.cstart := rfl
@[simp] theorem State.placeCmd_cend (w : CmdWord) : (s.placeCmd w).cend = s.cend := rfl
@[simp] theorem State.placeCmd_pbuf (w : CmdWord) : (s.placeCmd w).pbuf = s.pbuf := rfl
@[simp] theorem State.placeCmd_stg (w : CmdWord) : (s.placeCmd w).stg = s.stg := rfl
@[simp] theorem State.placeCmd_perr (w : CmdWord) : (s.placeCmd w).perr = s.perr := rfl
@[simp] theorem State.placeCmd_sidx (w : CmdWord) : (s.placeCmd w).sidx = s.sidx := rfl

/-! `State.putBuffer` -/

@[simp] theorem State.putBuffer_params (o : Option (List Byte)) : (s.putBuffer o).params = s.params := by cases o <;> rfl
@[simp] theorem State.putBuffer_cont (o : Option (List Byte)) : (s.putBuffer o).cont = s.cont := by cases o <;> rfl
@[simp] theorem State.putBuffer_ck (o : Option (List Byte)) : (s.putBuffer o).ck = s.ck := by cases o <;> rfl
@[simp] theorem State.putBuffer_cmd (o : Option (List Byte)) : (s.putBuffer o).cmd = s.cmd := by cases o <;> rfl
@[simp] theorem State.putBuffer_din (o : Option (List Byte)) : (s.putBuffer o).din = s.din := by cases o <;> rfl
@[simp] theorem State.putBuffer_dout (o : Option (List Byte)) :
    (s.putBuffer o).dout = s.dout ++ (o.map bufferToks).getD [] := by
  cases o <;> simp [State.putBuffer]
@[simp] theorem State.putBuffer_rsp (o : Option (List Byte)) : (s.putBuffer o).rsp = s.rsp := by cases o <;> rfl
@[simp] theorem State.putBuffer_ph (o : Option (List Byte)) : (s.putBuffer o).ph = s.ph := by cases o <;> rfl
@[simp] theorem State.putBuffer_op (o : Option (List Byte)) : (s.putBuffer o).op = s.op := by cases o <;> rfl
@[simp] theorem State.putBuffer_crc (o : Option (List Byte)) : (s.putBuffer o).crc = s.crc := by cases o <;> rfl
@[simp] theorem State.putBuffer_len (o : Option (List Byte)) : (s.putBuffer o).len = s.len := by cases o <;> rfl
@[simp] theorem State.putBuffer_tc (o : Option (List Byte)) : (s.putBuffer o).tc = s.tc := by cases o <;> rfl
@[simp] theorem State.putBuffer_rxcrc (o : Option (List Byte)) : (s.putBuffer o).rxcrc = s.rxcrc := by cases o <;> rfl
@[simp] theorem State.putBuffer_cnt (o : Option (List Byte)) : (s.putBuffer o).cnt = s.cnt := by cases o <;> rfl
@[simp] theorem State.putBuffer_off (o : Option (List Byte)) : (s.putBuffer o).off = s.off := by cases o <;> rfl
@[simp] theorem State.putBuffer_cstart (o : Option (List Byte)) : (s.putBuffer o).cstart = s.cstart := by cases o <;> rfl
@[simp] theorem State.putBuffer_cend (o : Option (List Byte)) : (s.putBuffer o).cend = s.cend := by cases o <;> rfl
@[simp] theorem State.putBuffer_pbuf (o : Option (List Byte)) : (s.putBuffer o).pbuf = s.pbuf := by cases o <;> rfl
@[simp] theorem State.putBuffer_stg (o : Option (List Byte)) : (s.putBuffer o).stg = s.stg := by cases o <;> rfl
@[simp] theorem State.putBuffer_perr (o : Option (List Byte)) : (s.putBuffer o).perr = s.perr := by cases o <;> rfl
@[simp] theorem State.putBuffer_sidx (o : Option (List Byte)) : (s.putBuffer o).sidx = s.sidx := by cases o <;> rfl

/-! `State.complete` -/

@[simp] theorem State.complete_params (x : Txn) : (s.complete x).params = s.params := by simp [State.complete]
@[simp] theorem State.complete_cont (x : Txn) : (s.complete x).cont = x.arch.cont := by simp [State.complete]
@[simp] theorem State.complete_ck (x : Txn) : (s.complete x).ck = x.arch.ck := by simp [State.complete]
@[simp] theorem State.complete_cmd (x : Txn) : (s.complete x).cmd = s.cmd := by simp [State.complete]
@[simp] theorem State.complete_din (x : Txn) : (s.complete x).din = s.din := by simp [State.complete]
@[simp] theorem State.complete_dout (x : Txn) : (s.complete x).dout = s.dout ++ (x.out.map bufferToks).getD [] := by simp [State.complete]
@[simp] theorem State.complete_rsp (x : Txn) : (s.complete x).rsp = s.rsp ++ [x.rsp] := by simp [State.complete]
@[simp] theorem State.complete_ph (x : Txn) : (s.complete x).ph = .idle := by simp [State.complete]
@[simp] theorem State.complete_op (x : Txn) : (s.complete x).op = s.op := by simp [State.complete]
@[simp] theorem State.complete_crc (x : Txn) : (s.complete x).crc = s.crc := by simp [State.complete]
@[simp] theorem State.complete_len (x : Txn) : (s.complete x).len = s.len := by simp [State.complete]
@[simp] theorem State.complete_tc (x : Txn) : (s.complete x).tc = s.tc := by simp [State.complete]
@[simp] theorem State.complete_rxcrc (x : Txn) : (s.complete x).rxcrc = s.rxcrc := by simp [State.complete]
@[simp] theorem State.complete_cnt (x : Txn) : (s.complete x).cnt = s.cnt := by simp [State.complete]
@[simp] theorem State.complete_off (x : Txn) : (s.complete x).off = s.off := by simp [State.complete]
@[simp] theorem State.complete_cstart (x : Txn) : (s.complete x).cstart = s.cstart := by simp [State.complete]
@[simp] theorem State.complete_cend (x : Txn) : (s.complete x).cend = s.cend := by simp [State.complete]
@[simp] theorem State.complete_pbuf (x : Txn) : (s.complete x).pbuf = s.pbuf := by simp [State.complete]
@[simp] theorem State.complete_stg (x : Txn) : (s.complete x).stg = s.stg := by simp [State.complete]
@[simp] theorem State.complete_perr (x : Txn) : (s.complete x).perr = s.perr := by simp [State.complete]
@[simp] theorem State.complete_sidx (x : Txn) : (s.complete x).sidx = s.sidx := by simp [State.complete]

/-! The function level's view. -/

@[simp] theorem State.arch_params : s.arch.params = s.params := rfl
@[simp] theorem State.arch_cont : s.arch.cont = s.cont := rfl
@[simp] theorem State.arch_ck : s.arch.ck = s.ck := rfl

end Sys2Proof.Machine
end

