-- ==== Sys2Proof/Laws/Ops.lean ====
section
/-! SUPPORT. For each shared operation one lemma that says everything it can do; later proofs cite these and do not unfold
the operation. -/

namespace Sys2Proof.Machine

/-- The three kinds of phase beside `IDLE` exclude one another. -/
theorem Phase.kinds (p : Phase) :
    (p = .idle ∧ p.isInput = false ∧ p.isEmitter = false) ∨ (p ≠ .idle ∧ p.isInput = true ∧ p.isEmitter = false)
      ∨ (p ≠ .idle ∧ p.isInput = false ∧ p.isEmitter = true) := by
  cases p <;> simp [Phase.isInput, Phase.isEmitter]

/-- Everything `fetch` can answer. -/
theorem fetch_cases (s : State) :
    (s.ph = .idle ∧ s.cmd = [] ∧ fetch s = .wait)
      ∨ (∃ w rest, s.ph = .idle ∧ s.cmd = w :: rest ∧ fetch s = .instr (decodeCmd w) { s with cmd := rest })
      ∨ (s.ph.isInput = true ∧ s.din = [] ∧ fetch s = .wait)
      ∨ (∃ w rest, s.ph.isInput = true ∧ s.din = w :: rest ∧ fetch s = .instr (decodeTok w) { s with din := rest })
      ∨ (s.ph.isEmitter = true ∧ fetch s = .emit) := by
  unfold fetch
  rcases Phase.kinds s.ph with ⟨h, -, -⟩ | ⟨h, h1, -⟩ | ⟨h, h1, h2⟩
  · cases hc : s.cmd <;> simp [h]
  · cases hd : s.din <;> simp [h, h1]
  · simp [h, h1, h2]

/-- Everything a step can do: wait, run a command, run a token, or emit (46_system.md R291). -/
theorem step_cases (s : State) :
    (s.ph = .idle ∧ s.cmd = [] ∧ step s = .next s)
      ∨ (∃ w rest, s.ph = .idle ∧ s.cmd = w :: rest ∧ step s = exec (decodeCmd w) { s with cmd := rest })
      ∨ (s.ph.isInput = true ∧ s.din = [] ∧ step s = .next s)
      ∨ (∃ w rest, s.ph.isInput = true ∧ s.din = w :: rest
          ∧ step s = takeToken (tokenOf (w.getLsbD 8) (w.extractLsb' 0 8)) (tokFields (w.getLsbD 8) (w.extractLsb' 0 8))
              { s with din := rest })
      ∨ (s.ph.isEmitter = true ∧ step s = emitStep s) := by
  rcases fetch_cases s with ⟨h, h1, h2⟩ | ⟨w, rest, h, h1, h2⟩ | ⟨h, h1, h2⟩ | ⟨w, rest, h, h1, h2⟩ | ⟨h, h2⟩
  · exact .inl ⟨h, h1, by simp [step, h2]⟩
  · exact .inr (.inl ⟨w, rest, h, h1, by simp [step, h2]⟩)
  · exact .inr (.inr (.inl ⟨h, h1, by simp [step, h2]⟩))
  · exact .inr (.inr (.inr (.inl ⟨w, rest, h, h1, by simp [step, h2, decodeTok, exec, execToken]⟩)))
  · exact .inr (.inr (.inr (.inr ⟨h, by simp [step, h2]⟩)))

/-- A property of both branches is one of the choice. -/
theorem of_ite {α : Type} {P : α → Prop} {p : Prop} [Decidable p] {x y : α} (hx : P x) (hy : P y) : P (if p then x else y) := by
  split <;> assumption

/-- What a command word can stand for: a property of all the commands of the opcode table holds of the decoded word. -/
theorem decodeCmd_rec {P : Instr → Prop} (h : ∀ i, (∀ a buf, (transact i a buf).isSome = true) → P i) (w : CmdWord) :
    P (decodeCmd w) := by
  unfold decodeCmd
  dsimp only
  repeat' apply of_ite
  all_goals exact h _ fun _ _ => rfl

/-- A byte in an input phase that the running command uses. -/
theorem takeToken_byte {s : State} (h : s.ph.isInput = true) (hu : s.ph.usedBy s.op = true) (d : Byte) (w : TokWord) :
    takeToken (.b d) w s = takeByte d s := by
  simp [takeToken, h, hu]

/-- The `EOB` mark in an input phase that the running command uses. -/
theorem takeToken_eob {s : State} (h : s.ph.isInput = true) (hu : s.ph.usedBy s.op = true) (w : TokWord) :
    takeToken .eob w s = takeEob s := by
  simp [takeToken, h, hu]

/-- `takeToken` in a phase that takes no input: the word stays at the head of `DIN`. -/
theorem takeToken_waits {s : State} (h : s.ph.isInput = false) (t : Token) (w : TokWord) :
    takeToken t w s = .next (s.putBack [w]) := by
  simp [takeToken, h]

/-- When a token gives a next state, what that state is. -/
theorem takeToken_cases {t : Token} {w : TokWord} {s s' : State} (h : takeToken t w s = .next s') :
    (s.ph.isInput = false ∧ s' = s.putBack [w])
      ∨ (s.ph.isInput = true ∧ s.ph.usedBy s.op = true
          ∧ ((∃ d, t = .b d ∧ takeByte d s = .next s') ∨ (t = .eob ∧ takeEob s = .next s'))) := by
  unfold takeToken at h
  split at h
  · simp_all
  · split at h
    · simp at h
    · cases t <;> simp_all

/-- When a byte gives a next state, what that state is (43_framer.md R227). -/
theorem takeByte_cases {b : Byte} {s s' : State} (h : takeByte b s = .next s') :
    ((s.ph = .trail ∨ s.ph = .drain) ∧ s' = s)
      ∨ (s.ph = .load ∧ s.op = opCkMake ∧ s' = s.takeMake b)
      ∨ (s.ph = .load ∧ s.op ≠ opCkMake ∧ s' = s.takeCalc b)
      ∨ (s.cnt.toNat < s.fieldSize ∧ s.off = Config.maxOff ∧ s' = s.toDrain (s.chunkError .capacityExceeded 0))
      ∨ (s.cnt.toNat < s.fieldSize ∧ s.off ≠ Config.maxOff ∧ s' = s.takeCounted b) := by
  unfold takeByte at h
  split at h
  · simp_all
  · simp_all
  · split at h <;> simp_all
  · split at h
    · simp at h
    · split at h <;> simp_all

/-- When the `EOB` mark gives a next state, what that state is (43_framer.md R227). -/
theorem takeEob_cases {s s' : State} (h : takeEob s = .next s') :
    (s.ph = .sig ∧ s' = s.raise .invalidSignature subSigShort 0 0 0)
      ∨ (s.ph = .len ∧ s.op = opCtParse ∧ s.cnt = 0 ∧ s' = s.commit)
      ∨ (s.ph = .trail ∧ s' = s.respond (mkRsp .ok (off := s.cend) (val := s.crc ^^^ Config.crcXorOut)))
      ∨ (∃ e, s.ph = .drain ∧ s.perr = some e ∧ s' = s.respond (pendingRsp e))
      ∨ (s.ph = .load ∧ s' = s.loadDone)
      ∨ (s.ph ≠ .sig ∧ s.ph ≠ .trail ∧ s.ph ≠ .drain ∧ s.ph ≠ .load ∧ (s.ph = .len → ¬(s.op = opCtParse ∧ s.cnt = 0))
          ∧ s' = s.truncated) := by
  unfold takeEob at h
  split at h
  · simp_all
  · split at h <;> simp_all
  · simp_all
  · split at h <;> simp_all
  · simp_all
  · simp_all

/-- What no byte in a counting phase changes, and that such a byte ends no command (43_framer.md R211 to R219). -/
structure ByteFrame (s t : State) : Prop where
  params : t.params = s.params
  cont : t.cont = s.cont
  ck : t.ck = s.ck ∨ (s.ph = .crc ∧ s.op ≠ opCtParse ∧ t.ck = some s.framed ∧ t.ph = .trail)
  cmd : t.cmd = s.cmd
  din : t.din = s.din
  dout : t.dout = s.dout
  rsp : t.rsp = s.rsp
  op : t.op = s.op
  ph : t.ph = .idle → s.ph = .idle

theorem State.takeCounted_frame (s : State) (b : Byte) : ByteFrame s (s.takeCounted b) := by
  unfold State.takeCounted
  split <;> rename_i hp
  · unfold State.takeSig; dsimp only; split
    · split <;> constructor <;> simp [hp]
    · constructor <;> simp
  · unfold State.takeLen State.lenComplete; dsimp only; split
    · split
      · constructor <;> simp
      · split <;> constructor <;> simp
    · constructor <;> simp [hp]
  · unfold State.takeType; dsimp only; split
    · constructor <;> simp [hp]
      by_cases hl : s.len = 0#32 <;> simp [hl]
    · constructor <;> simp [hp]
  · unfold State.takeData; dsimp only; split <;> constructor <;> simp [hp]
  · unfold State.takeCrc State.crcComplete; dsimp only; split
    · split
      · split
        · split <;> constructor <;> simp
        · next ho => constructor <;> simp_all [State.framed]
      · constructor <;> simp
    · constructor <;> simp [hp]
  · constructor <;> simp

/-- Before a chunk the emitter begins the chunk at `sidx`, or goes to the end (44_serializer.md R248). -/
theorem nextChunk_cases (s : State) :
    (∃ c, (s.cont.getD [])[s.sidx.toNat]? = some c ∧ s.nextChunk = s.beginChunk c)
      ∨ ((s.cont.getD []).length ≤ s.sidx.toNat ∧ s.nextChunk = s.enter .sEob) := by
  unfold State.nextChunk
  split
  · next c h => exact .inl ⟨c, h, rfl⟩
  · next h => exact .inr ⟨List.getElem?_eq_none_iff.mp h, rfl⟩

/-- After a chunk the emitter begins the next one, or goes to the end (44_serializer.md R247, R248). -/
theorem afterCrc_cases (s : State) :
    (∃ c, s.op = opCtSer ∧ (s.cont.getD [])[(s.sidx + 1).toNat]? = some c
        ∧ s.afterCrc = State.beginChunk { s with sidx := s.sidx + 1 } c)
      ∨ (s.op = opCtSer ∧ (s.cont.getD []).length ≤ (s.sidx + 1).toNat
        ∧ s.afterCrc = State.enter { s with sidx := s.sidx + 1 } .sEob)
      ∨ (s.op ≠ opCtSer ∧ s.afterCrc = s.enter .sEob) := by
  unfold State.afterCrc
  split
  · next ho =>
    rcases nextChunk_cases { s with sidx := s.sidx + 1 } with ⟨c, h, e⟩ | ⟨h, e⟩
    · exact .inl ⟨c, ho, h, e⟩
    · exact .inr (.inl ⟨ho, h, e⟩)
  · next ho => exact .inr (.inr ⟨ho, rfl⟩)

/-- When a field is being emitted, what the next state is (44_serializer.md R248). -/
theorem emitField_cases {s s' : State} {field : List Byte} {k : State → State} (h : s.emitField field k = .next s') :
    ∃ b, field[s.cnt.toNat]? = some b
      ∧ s' = if (s.emitByte b).cnt.toNat = field.length then k (s.emitByte b) else s.emitByte b := by
  unfold State.emitField at h
  split at h
  · simp at h
  · next b hb => exact ⟨b, hb, by simpa using h.symm⟩

/-- A field emits its byte whenever the counter stands inside it. -/
theorem emitField_inside {s : State} {field : List Byte} (k : State → State) (h : s.cnt.toNat < field.length) :
    s.emitField field k = .next
      (if (s.emitByte field[s.cnt.toNat]).cnt.toNat = field.length then k (s.emitByte field[s.cnt.toNat])
       else s.emitByte field[s.cnt.toNat]) := by
  unfold State.emitField
  rw [List.getElem?_eq_getElem h]

/-- When the plain emitter gives a next state, what that state is (44_serializer.md R249). -/
theorem emitRaw_cases {s s' : State} (h : s.emitRaw = .next s') :
    ∃ b, s.rawList[s.off.toNat]? = some b
      ∧ s' = if (s.emitByte b).off.toNat = s.rawList.length then { s.emitByte b with ph := .sEob } else s.emitByte b := by
  unfold State.emitRaw at h
  split at h
  · simp at h
  · next b hb => exact ⟨b, hb, by simpa using h.symm⟩

/-- When an emitter step gives a next state, which of the emitters ran (46_system.md R291 (c)). -/
theorem emitStep_cases {s s' : State} (h : emitStep s = .next s') (he : s.ph.isEmitter = true) :
    s.ph.usedBy s.op = true
      ∧ ((s.ph = .sSig ∧ s.cont.isSome = true ∧ s.emitField Config.sig State.nextChunk = .next s')
        ∨ (∃ c, s.emitted = some c ∧ (s.ph = .sLen ∨ s.ph = .sType ∨ s.ph = .sData ∨ s.ph = .sCrc)
            ∧ s.emitChunk c = .next s')
        ∨ (s.ph = .sRaw ∧ s.emitRaw = .next s')
        ∨ (s.ph = .sEob ∧ s' = (s.putTok .eob).respond s.emitRsp)) := by
  unfold emitStep at h
  split at h
  · simp at h
  · next hu =>
    refine ⟨by simpa using hu, ?_⟩
    cases hp : s.ph <;> simp [hp, Phase.isEmitter] at h he ⊢
    · split at h
      · simp at h
      · next hc => exact ⟨by cases hq : s.cont <;> simp_all, h⟩
    · split at h
      · simp at h
      · next c hc => exact ⟨c, hc, h⟩
    · split at h
      · simp at h
      · next c hc => exact ⟨c, hc, h⟩
    · split at h
      · simp at h
      · next c hc => exact ⟨c, hc, h⟩
    · split at h
      · simp at h
      · next c hc => exact ⟨c, hc, h⟩
    · exact h
    · exact h.symm

/-- A stream element in an input phase is its bytes one after another; outside it stays in `DIN` (log 11, log 12). -/
theorem offerBytes_cases (bs : List Byte) (s : State) :
    (s.ph.isInput = true ∧ offerBytes bs s = feedBytes bs s)
      ∨ (s.ph.isInput = false ∧ offerBytes bs s = .next (s.putBack (bs.map (fun b => tokWord (.b b))))) := by
  cases h : s.ph.isInput <;> simp [offerBytes, h]

/-- A stream element is taken in two parts. -/
theorem feedBytes_append (xs ys : List Byte) (s : State) :
    feedBytes (xs ++ ys) s = (match feedBytes xs s with
      | .next s' => feedBytes ys s'
      | .fault r => .fault r
      | .refused r => .refused r) := by
  induction xs generalizing s with
  | nil => rfl
  | cons x xs ih =>
    simp only [List.cons_append, feedBytes]
    cases takeToken (.b x) (tokWord (.b x)) s <;> simp [ih]

/-- Starting `CK_SER`: the chunk begins, or the answer is given at once (44_serializer.md R247). -/
theorem startCkSer_cases (s : State) :
    (∃ c, s.ck = some c ∧ s.startCkSer = { s.beginChunk c with off := 0 })
      ∨ (s.ck = none ∧ s.startCkSer = s.complete (fnCkSer s.arch)) := by
  unfold State.startCkSer
  split
  · next h => exact .inr ⟨h, rfl⟩
  · next c h => exact .inl ⟨c, h, rfl⟩

/-- Starting the plain emitter: the counters start, or the answer is given at once (44_serializer.md R249). -/
theorem startEmit_cases (s : State) (first : Phase) (t : Txn) :
    (t.rsp.st = .ok ∧ s.startEmit first t = { s.enter first with off := 0 })
      ∨ (t.rsp.st ≠ .ok ∧ s.startEmit first t = s.complete t) := by
  by_cases h : t.rsp.st = .ok <;> simp [State.startEmit, h]

/-- Putting a copy of `ck` into the container: refused for capacity, or stored (45_container_ops.md R262, R264). -/
theorem storeAt_cases (a : Arch) (cs : List Chunk) (c : Chunk) (p : Nat) :
    (storeAt a cs c p = a.answer (mkRsp .capacityExceeded (idx := idxOf cs.length))
        ∧ (a.params.capChunks.toNat ≤ cs.length ∨ capFits a.params (a.contBytes + a.ckBytes + chunkLen c) = false))
      ∨ (storeAt a cs c p = { arch := { a with cont := some (insertAt cs p c) }
                              rsp := mkRsp .ok (idx := idxOf p) (val := idxOf (cs.length + 1)), out := none }
        ∧ cs.length < a.params.capChunks.toNat ∧ capFits a.params (a.contBytes + a.ckBytes + chunkLen c) = true) := by
  unfold storeAt
  split
  · next h => exact .inl ⟨rfl, by simpa [capFull] using h⟩
  · next h => exact .inr ⟨rfl, by simpa [capFull] using h⟩

/-- A capacity is downward closed (20_memory.md R81). -/
theorem withinCap_mono {cap : Option Nat} {m n : Nat} (h : m ≤ n) (hn : withinCap cap n = true) : withinCap cap m = true := by
  cases cap <;> simp_all [withinCap]; omega

/-- `CAP_BYTES` is downward closed (20_memory.md R81). -/
theorem capFits_mono {p : Config.Params} {m n : Nat} (h : m ≤ n) (hn : capFits p n = true) : capFits p m = true :=
  withinCap_mono h hn

@[simp] theorem payloadBytes_nil : payloadBytes [] = 0 := rfl

@[simp] theorem payloadBytes_cons (c : Chunk) (cs : List Chunk) : payloadBytes (c :: cs) = chunkLen c + payloadBytes cs := by
  simp [payloadBytes]

/-- The payload bytes of a longer list. -/
theorem payloadBytes_append (xs ys : List Chunk) : payloadBytes (xs ++ ys) = payloadBytes xs + payloadBytes ys := by
  simp [payloadBytes]

/-- Zero steps of a machine. -/
theorem run_zero_iff (M : Host.Core) (s t : M.State) : M.run 0 s = .next t ↔ s = t := by
  rw [Host.Core.run]
  exact ⟨fun h => by injection h, fun h => by rw [h]⟩

/-- The first of several steps of a machine. -/
theorem run_succ_iff (M : Host.Core) (k : Nat) (s t : M.State) :
    M.run (k + 1) s = .next t ↔ ∃ u, M.step s = .next u ∧ M.run k u = .next t := by
  rw [Host.Core.run]
  cases M.step s <;> simp

/-- Zero steps lead from a state to itself. -/
theorem RunsTo_zero (s t : State) : RunsTo 0 s t ↔ s = t := run_zero_iff Sys2Proof.core s t

/-- The first of several steps. -/
theorem RunsTo_succ (k : Nat) (s t : State) : RunsTo (k + 1) s t ↔ ∃ u, step s = .next u ∧ RunsTo k u t :=
  run_succ_iff Sys2Proof.core k s t

/-- Runs compose. -/
theorem RunsTo_trans {j k : Nat} {s t u : State} (h : RunsTo j s t) (g : RunsTo k t u) : RunsTo (j + k) s u := by
  induction j generalizing s with
  | zero => rw [(RunsTo_zero s t).mp h, Nat.zero_add]; exact g
  | succ j ih =>
    obtain ⟨v, h1, h2⟩ := (RunsTo_succ j s t).mp h
    rw [Nat.add_right_comm]
    exact (RunsTo_succ (j + k) s u).mpr ⟨v, h1, ih h2⟩

end Sys2Proof.Machine
end

