-- ==== Sys2Proof/Laws/Fields.lean ====
section
/-! SUPPORT. The bytes and bits of fields: the four bytes of a 32-bit field, the fields of a command word. -/

namespace Sys2Proof.Machine

/-- A 32-bit field as the four bytes side by side (30_encoding.md R97). -/
theorem rd32_append (b0 b1 b2 b3 : Byte) : rd32 b0 b1 b2 b3 = b0 ++ b1 ++ b2 ++ b3 := by
  unfold rd32
  apply BitVec.eq_of_getLsbD_eq
  intro i hi
  simp only [BitVec.getLsbD_append, BitVec.getLsbD_or, BitVec.getLsbD_shiftLeft, BitVec.getLsbD_setWidth]
  by_cases h1 : i < 8
  · simp [h1, show i < 16 by omega, show i < 24 by omega, show i < 32 by omega]
  by_cases h2 : i < 16
  · simp [h1, h2, show i < 24 by omega, show i < 32 by omega, show i - 8 < 8 by omega, show i - 8 < 32 by omega, BitVec.getLsbD_of_ge b3 i (by omega)]
  by_cases h3 : i < 24
  · simp [h1, h2, h3, show i < 32 by omega, show ¬ i - 8 < 8 by omega, show i - 16 < 8 by omega, show i - 8 < 32 by omega, show i - 16 < 32 by omega, BitVec.getLsbD_of_ge b3 i (by omega), BitVec.getLsbD_of_ge b2 (i - 8) (by omega), Nat.sub_sub]
  · simp [h1, h2, h3, show i < 32 by omega, show ¬ i - 8 < 8 by omega, show 8 ≤ i - 16 by omega, show i - 24 < 8 by omega, show i - 24 < 32 by omega, show i - 8 < 32 by omega, show i - 16 < 32 by omega, BitVec.getLsbD_of_ge b3 i (by omega), BitVec.getLsbD_of_ge b2 (i - 8) (by omega), Nat.sub_sub]

/-- Splitting the value of four bytes gives the bytes back (30_encoding.md R97). -/
theorem be32_rd32 (b0 b1 b2 b3 : Byte) : be32 (rd32 b0 b1 b2 b3) = [b0, b1, b2, b3] := by
  rw [rd32_append]
  have e0 : (b0 ++ b1 ++ b2 ++ b3 : BitVec 32).extractLsb' 24 8 = b0 := by
    apply BitVec.eq_of_getLsbD_eq; intro i hi
    simp only [BitVec.getLsbD_extractLsb', BitVec.getLsbD_append, hi, decide_true, Bool.true_and]
    rw [if_neg (by omega), if_neg (by omega), if_neg (by omega)]
    congr 1; omega
  have e1 : (b0 ++ b1 ++ b2 ++ b3 : BitVec 32).extractLsb' 16 8 = b1 := by
    apply BitVec.eq_of_getLsbD_eq; intro i hi
    simp only [BitVec.getLsbD_extractLsb', BitVec.getLsbD_append, hi, decide_true, Bool.true_and]
    rw [if_neg (by omega), if_neg (by omega), if_pos (by omega)]
    congr 1; omega
  have e2 : (b0 ++ b1 ++ b2 ++ b3 : BitVec 32).extractLsb' 8 8 = b2 := by
    apply BitVec.eq_of_getLsbD_eq; intro i hi
    simp only [BitVec.getLsbD_extractLsb', BitVec.getLsbD_append, hi, decide_true, Bool.true_and]
    rw [if_neg (by omega), if_pos (by omega)]
    congr 1; omega
  have e3 : (b0 ++ b1 ++ b2 ++ b3 : BitVec 32).extractLsb' 0 8 = b3 := by
    apply BitVec.eq_of_getLsbD_eq; intro i hi
    simp only [BitVec.getLsbD_extractLsb', BitVec.getLsbD_append, hi, decide_true, Bool.true_and]
    rw [if_pos (by omega)]
    congr 1; omega
  simp only [be32, e0, e1, e2, e3]

/-- Assembling the bytes of a value gives the value back (30_encoding.md R97). -/
theorem wordOfBytes_be32 (w : Word) : wordOfBytes (be32 w) = w := by
  show rd32 (w.extractLsb' 24 8) (w.extractLsb' 16 8) (w.extractLsb' 8 8) (w.extractLsb' 0 8) = w
  rw [rd32_append]
  apply BitVec.eq_of_getLsbD_eq
  intro i hi
  simp only [BitVec.getLsbD_append, BitVec.getLsbD_extractLsb']
  by_cases h1 : i < 8
  · rw [if_pos h1]; simp [h1]
  by_cases h2 : i - 8 < 8
  · rw [if_neg h1, if_pos h2]; simp only [h2, decide_true, Bool.true_and]; congr 1; omega
  by_cases h3 : i - 8 - 8 < 8
  · rw [if_neg h1, if_neg h2, if_pos h3]; simp only [h3, decide_true, Bool.true_and]; congr 1; omega
  · rw [if_neg h1, if_neg h2, if_neg h3]; simp only [show i - 8 - 8 - 8 < 8 by omega, decide_true, Bool.true_and]; congr 1; omega

/-- The framer's byte by byte assembly of a 32-bit field forgets what the register held (30_encoding.md R97). -/
theorem shiftIn_four (r : Word) (b0 b1 b2 b3 : Byte) : shiftIn (shiftIn (shiftIn (shiftIn r b0) b1) b2) b3 = rd32 b0 b1 b2 b3 := by
  unfold shiftIn rd32
  simp only [BitVec.shiftLeft_or_distrib, ← BitVec.shiftLeft_add]
  rw [show r <<< (8 + 8 + 8 + 8) = 0#32 from BitVec.shiftLeft_eq_zero (by omega), BitVec.zero_or]

@[simp] theorem be32_length (w : Word) : (be32 w).length = 4 := rfl

/-- The value of the first four bytes of a list. -/
theorem wordOfBytes_four (b0 b1 b2 b3 : Byte) (l : List Byte) : wordOfBytes (b0 :: b1 :: b2 :: b3 :: l) = rd32 b0 b1 b2 b3 := rfl

/-- The four bytes of a word, and the word assembled from them (30_encoding.md R97). -/
theorem be32_bytes (v : Word) : ∃ a b c d, be32 v = [a, b, c, d] ∧ rd32 a b c d = v := by
  exact ⟨_, _, _, _, rfl, wordOfBytes_be32 v⟩

/-- `op` of a command word built from its fields (30_encoding.md R101). -/
@[simp] theorem cmdOp_cmdWord (op : Byte) (tc pos : Word) : cmdOp (cmdWord op tc pos) = op := by
  apply BitVec.eq_of_getLsbD_eq
  intro i hi
  simp only [cmdOp, cmdWord, BitVec.getLsbD_extractLsb', BitVec.getLsbD_or, BitVec.getLsbD_shiftLeft, BitVec.getLsbD_setWidth,
    hi, decide_true, Bool.true_and]
  rw [BitVec.getLsbD_of_ge tc (64 + i - 32) (by omega), BitVec.getLsbD_of_ge pos (64 + i) (by omega)]
  simp [show 64 + i < 72 by omega, show i < 72 by omega, BitVec.getLsbD_eq_getElem hi]

/-- `tc` of a command word built from its fields (30_encoding.md R101). -/
@[simp] theorem cmdTc_cmdWord (op : Byte) (tc pos : Word) : cmdTc (cmdWord op tc pos) = tc := by
  apply BitVec.eq_of_getLsbD_eq
  intro i hi
  simp only [cmdTc, cmdWord, BitVec.getLsbD_extractLsb', BitVec.getLsbD_or, BitVec.getLsbD_shiftLeft, BitVec.getLsbD_setWidth,
    hi, decide_true, Bool.true_and]
  rw [BitVec.getLsbD_of_ge pos (32 + i) (by omega)]
  simp [show 32 + i < 72 by omega, show 32 + i < 64 by omega, show i < 72 by omega, BitVec.getLsbD_eq_getElem hi]

/-- `pos` of a command word built from its fields (30_encoding.md R101). -/
@[simp] theorem cmdPos_cmdWord (op : Byte) (tc pos : Word) : cmdPos (cmdWord op tc pos) = pos := by
  apply BitVec.eq_of_getLsbD_eq
  intro i hi
  simp only [cmdPos, cmdWord, BitVec.getLsbD_extractLsb', BitVec.getLsbD_or, BitVec.getLsbD_shiftLeft, BitVec.getLsbD_setWidth,
    hi, decide_true, Bool.true_and, Nat.zero_add]
  simp [show i < 72 by omega, show i < 64 by omega, hi]

end Sys2Proof.Machine
end

