-- ==== Sys2Proof/Laws/Feed.lean ====
section
/-! SUPPORT. Runs of bytes at the input side: what the framer does with a field, with a part of one, and with a whole buffer. -/

namespace Sys2Proof.Machine

/-- A byte in a counting phase whose counter stands inside its field is taken (43_framer.md R227). -/
theorem take_counted {s : State} (b : Byte) (w : TokWord) (hi : s.ph.isInput = true) (hu : s.ph.usedBy s.op = true)
    (hc : s.cnt.toNat < s.fieldSize) (ho : s.off ≠ Config.maxOff) : takeToken (.b b) w s = .next (s.takeCounted b) := by
  rw [takeToken_byte hi hu]
  have : s.ph ≠ .trail ∧ s.ph ≠ .drain ∧ s.ph ≠ .load := by
    refine ⟨?_, ?_, ?_⟩ <;> intro h <;> simp [State.fieldSize, h] at hc
  obtain ⟨h1, h2, h3⟩ := this
  cases hp : s.ph <;> simp_all [takeByte]

/-- The first of several bytes in a counting phase. -/
theorem feed_one {s : State} (b : Byte) (bs : List Byte) (hi : s.ph.isInput = true) (hu : s.ph.usedBy s.op = true)
    (hc : s.cnt.toNat < s.fieldSize) (ho : s.off ≠ Config.maxOff) : feedBytes (b :: bs) s = feedBytes bs (s.takeCounted b) := by
  rw [feedBytes, take_counted b _ hi hu hc ho]

/-- The commands that use the framer (43_framer.md R208). -/
def Framing (s : State) : Prop := s.op = opCtParse ∨ s.op = opCkParse

/-- The phases inside a chunk take input, and both commands that frame chunks use them (43_framer.md R208). -/
theorem framing_used {s : State} (hf : Framing s) (hp : s.ph = .len ∨ s.ph = .type ∨ s.ph = .data ∨ s.ph = .crc) : s.ph.usedBy s.op = true ∧ s.ph.isInput = true := by
  rcases hf with h | h <;> rcases hp with hp | hp | hp | hp <;> simp [h, hp, Phase.usedBy, Phase.isInput]

/-- An offset below the largest one. -/
theorem off_add_ne_max {x : Off} {n : Nat} (k : Nat) (hk : k < n) (h : x.toNat + n < 2 ^ 64) : x + BitVec.ofNat 64 k ≠ Config.maxOff := by
  intro e
  have := congrArg BitVec.toNat e
  simp [Config.maxOff, BitVec.toNat_add] at this; omega

/-- `LEN`, `B(b)` (43_framer.md R214, R215). -/
theorem len_step {s : State} (hf : Framing s) (hp : s.ph = .len) (hc : s.cnt.toNat < 4) (b : Byte) (bs : List Byte) (ho : s.off ≠ Config.maxOff) :
    feedBytes (b :: bs) s = feedBytes bs
      (let s1 := { s with len := shiftIn s.len b, cnt := s.cnt + 1, off := s.off + 1 }
       if s1.cnt = 4 then s1.lenComplete else s1) := by
  have hu := framing_used hf (.inl hp)
  rw [feed_one b _ hu.2 hu.1 (by simp [State.fieldSize, hp, hc]) ho, show s.takeCounted b = s.takeLen b by unfold State.takeCounted; rw [hp]]
  rfl

/-- `TYPE`, `B(b)` (43_framer.md R216). -/
theorem type_step {s : State} (hf : Framing s) (hp : s.ph = .type) (hc : s.cnt.toNat < 4) (b : Byte) (bs : List Byte) (ho : s.off ≠ Config.maxOff) :
    feedBytes (b :: bs) s = feedBytes bs
      (let s1 := { s with tc := shiftIn s.tc b, crc := crcUpd s.crc b, cnt := s.cnt + 1, off := s.off + 1 }
       if s1.cnt = 4 then { s1 with ph := (if s1.len = 0 then .crc else .data), cnt := 0, rxcrc := 0 } else s1) := by
  have hu := framing_used hf (.inr (.inl hp))
  rw [feed_one b _ hu.2 hu.1 (by simp [State.fieldSize, hp, hc]) ho, show s.takeCounted b = s.takeType b by unfold State.takeCounted; rw [hp]]
  rfl

/-- `DATA`, `B(b)` (43_framer.md R217). -/
theorem data_step {s : State} (hf : Framing s) (hp : s.ph = .data) (hc : s.cnt.toNat < s.len.toNat) (b : Byte) (bs : List Byte) (ho : s.off ≠ Config.maxOff) :
    feedBytes (b :: bs) s = feedBytes bs
      (let s1 := { s with pbuf := s.pbuf ++ [b], crc := crcUpd s.crc b, cnt := s.cnt + 1, off := s.off + 1 }
       if s1.cnt = s1.len then { s1 with ph := .crc, cnt := 0, rxcrc := 0 } else s1) := by
  have hu := framing_used hf (.inr (.inr (.inl hp)))
  rw [feed_one b _ hu.2 hu.1 (by simp [State.fieldSize, hp, hc]) ho, show s.takeCounted b = s.takeData b by unfold State.takeCounted; rw [hp]]
  rfl

/-- `CRC`, `B(b)` (43_framer.md R218, R219). -/
theorem crc_step {s : State} (hf : Framing s) (hp : s.ph = .crc) (hc : s.cnt.toNat < 4) (b : Byte) (bs : List Byte) (ho : s.off ≠ Config.maxOff) :
    feedBytes (b :: bs) s = feedBytes bs
      (let s1 := { s with rxcrc := shiftIn s.rxcrc b, cnt := s.cnt + 1, off := s.off + 1 }
       if s1.cnt = 4 then s1.crcComplete else s1) := by
  have hu := framing_used hf (.inr (.inr (.inr hp)))
  rw [feed_one b _ hu.2 hu.1 (by simp [State.fieldSize, hp, hc]) ho, show s.takeCounted b = s.takeCrc b by unfold State.takeCounted; rw [hp]]
  rfl

/-- A whole length field (43_framer.md R214, R215). -/
theorem feed_len {s : State} (hf : Framing s) (hp : s.ph = .len) (hc : s.cnt = 0) (b0 b1 b2 b3 : Byte) (rest : List Byte) (ho : s.off.toNat + 4 < 2 ^ 64) :
    feedBytes (b0 :: b1 :: b2 :: b3 :: rest) s = feedBytes rest (State.lenComplete { s with len := rd32 b0 b1 b2 b3, cnt := 4, off := s.off + 4 }) := by
  have m := fun k hk => off_add_ne_max (x := s.off) k (n := 4) hk ho
  rw [len_step hf hp (by simp [hc]) b0 _ (by simpa using m 0 (by omega))]
  simp only [hc]
  rw [if_neg (by decide)]
  refine (len_step ?_ ?_ ?_ b1 _ ?_).trans ?_
  · exact hf
  · exact hp
  · simp
  · exact (by simpa using m 1 (by omega))
  simp only []
  rw [if_neg (by decide)]
  refine (len_step ?_ ?_ ?_ b2 _ ?_).trans ?_
  · exact hf
  · exact hp
  · simp
  · exact (by simpa [BitVec.add_assoc] using m 2 (by omega))
  simp only []
  rw [if_neg (by decide)]
  refine (len_step ?_ ?_ ?_ b3 _ ?_).trans ?_
  · exact hf
  · exact hp
  · simp
  · exact (by simpa [BitVec.add_assoc] using m 3 (by omega))
  simp only [shiftIn_four, BitVec.add_assoc]
  rw [if_pos (by decide)]
  rfl

/-- A whole type field (43_framer.md R216). -/
theorem feed_type {s : State} (hf : Framing s) (hp : s.ph = .type) (hc : s.cnt = 0) (b0 b1 b2 b3 : Byte) (rest : List Byte) (ho : s.off.toNat + 4 < 2 ^ 64) :
    feedBytes (b0 :: b1 :: b2 :: b3 :: rest) s = feedBytes rest { s with tc := rd32 b0 b1 b2 b3, crc := crcRun s.crc [b0, b1, b2, b3], cnt := 0, rxcrc := 0, off := s.off + 4, ph := if s.len = 0 then .crc else .data } := by
  have m := fun k hk => off_add_ne_max (x := s.off) k (n := 4) hk ho
  rw [type_step hf hp (by simp [hc]) b0 _ (by simpa using m 0 (by omega))]
  simp only [hc]
  rw [if_neg (by decide)]
  refine (type_step ?_ ?_ ?_ b1 _ ?_).trans ?_
  · exact hf
  · exact hp
  · simp
  · exact (by simpa using m 1 (by omega))
  simp only []
  rw [if_neg (by decide)]
  refine (type_step ?_ ?_ ?_ b2 _ ?_).trans ?_
  · exact hf
  · exact hp
  · simp
  · exact (by simpa [BitVec.add_assoc] using m 2 (by omega))
  simp only []
  rw [if_neg (by decide)]
  refine (type_step ?_ ?_ ?_ b3 _ ?_).trans ?_
  · exact hf
  · exact hp
  · simp
  · exact (by simpa [BitVec.add_assoc] using m 3 (by omega))
  simp only [shiftIn_four, BitVec.add_assoc]
  rw [if_pos (by decide)]
  rfl

/-- A whole CRC field (43_framer.md R218, R219). -/
theorem feed_crc {s : State} (hf : Framing s) (hp : s.ph = .crc) (hc : s.cnt = 0) (b0 b1 b2 b3 : Byte) (rest : List Byte) (ho : s.off.toNat + 4 < 2 ^ 64) :
    feedBytes (b0 :: b1 :: b2 :: b3 :: rest) s = feedBytes rest (State.crcComplete { s with rxcrc := rd32 b0 b1 b2 b3, cnt := 4, off := s.off + 4 }) := by
  have m := fun k hk => off_add_ne_max (x := s.off) k (n := 4) hk ho
  rw [crc_step hf hp (by simp [hc]) b0 _ (by simpa using m 0 (by omega))]
  simp only [hc]
  rw [if_neg (by decide)]
  refine (crc_step ?_ ?_ ?_ b1 _ ?_).trans ?_
  · exact hf
  · exact hp
  · simp
  · exact (by simpa using m 1 (by omega))
  simp only []
  rw [if_neg (by decide)]
  refine (crc_step ?_ ?_ ?_ b2 _ ?_).trans ?_
  · exact hf
  · exact hp
  · simp
  · exact (by simpa [BitVec.add_assoc] using m 2 (by omega))
  simp only []
  rw [if_neg (by decide)]
  refine (crc_step ?_ ?_ ?_ b3 _ ?_).trans ?_
  · exact hf
  · exact hp
  · simp
  · exact (by simpa [BitVec.add_assoc] using m 3 (by omega))
  simp only [shiftIn_four, BitVec.add_assoc]
  rw [if_pos (by decide)]
  rfl

/-- Counting one byte more. -/
theorem ofNat_succ_off (n : Nat) : BitVec.ofNat 64 (n+1) = 1 + BitVec.ofNat 64 n := by
  apply BitVec.eq_of_toNat_eq; simp [BitVec.toNat_add]; omega

/-- A whole payload (43_framer.md R217). -/
theorem feed_data (data : List Byte) : ∀ {s : State}, Framing s → s.ph = .data → ∀ rest : List Byte, data ≠ [] → s.cnt.toNat + data.length = s.len.toNat → s.off.toNat + data.length < 2 ^ 64 →
    feedBytes (data ++ rest) s = feedBytes rest { s with pbuf := s.pbuf ++ data, crc := crcRun s.crc data, cnt := 0, rxcrc := 0, off := s.off + BitVec.ofNat 64 data.length, ph := .crc } := by
  induction data with
  | nil => intro s _ _ _ h; exact absurd rfl h
  | cons b data ih =>
    intro s hf hp rest _ hl ho
    simp only [List.length_cons] at hl ho
    have hm : s.off ≠ Config.maxOff := by simpa using off_add_ne_max (x := s.off) 0 (n := data.length + 1) (by omega) (by omega)
    have hlt := s.len.isLt
    rw [List.cons_append, data_step hf hp (by omega) b _ hm]
    have hc1 : (s.cnt + 1).toNat = s.cnt.toNat + 1 := by simp [BitVec.toNat_add]; omega
    have ho1 : (s.off + 1).toNat = s.off.toNat + 1 := by simp [BitVec.toNat_add]; omega
    dsimp only
    by_cases hd : data = []
    · subst hd
      simp only [List.length_nil] at hl
      rw [if_pos (by apply BitVec.eq_of_toNat_eq; omega)]
      rfl
    · have : 0 < data.length := List.length_pos_iff.mpr hd
      rw [if_neg (by intro h; have := congrArg BitVec.toNat h; omega)]
      refine (ih ?_ ?_ rest hd ?_ ?_).trans ?_
      · exact hf
      · exact hp
      · simp only [hc1]; omega
      · simp only [ho1]; omega
      · simp only [List.append_assoc, List.singleton_append, BitVec.add_assoc, List.length_cons, ofNat_succ_off]
        rfl

/-- The beginning of a length field. -/
theorem part_len (bs : List Byte) : ∀ {s : State}, Framing s → s.ph = .len → s.cnt.toNat + bs.length < 4 → s.off.toNat + bs.length < 2 ^ 64 →
    ∃ l, feedBytes bs s = .next { s with len := l, cnt := s.cnt + BitVec.ofNat 32 bs.length, off := s.off + BitVec.ofNat 64 bs.length } := by
  induction bs with
  | nil => intro s _ _ _ _; exact ⟨s.len, by simp [feedBytes]⟩
  | cons b bs ih =>
    intro s hf hp hl ho
    simp only [List.length_cons] at hl ho
    have hm : s.off ≠ Config.maxOff := by simpa using off_add_ne_max (x := s.off) 0 (n := bs.length + 1) (by omega) (by omega)
    have hc1 : (s.cnt + 1).toNat = s.cnt.toNat + 1 := by simp [BitVec.toNat_add]; omega
    have ho1 : (s.off + 1).toNat = s.off.toNat + 1 := by simp [BitVec.toNat_add]; omega
    rw [len_step hf hp (by omega) b _ hm]
    dsimp only
    rw [if_neg (by intro h; have := congrArg BitVec.toNat h; simp at this hc1; omega)]
    obtain ⟨l, h⟩ := ih (s := { s with len := shiftIn s.len b, cnt := s.cnt + 1, off := s.off + 1 }) hf hp (by simp only [hc1]; omega) (by simp only [ho1]; omega)
    refine ⟨l, h.trans ?_⟩
    have e1 : BitVec.ofNat 32 (bs.length+1) = 1 + BitVec.ofNat 32 bs.length := by
      apply BitVec.eq_of_toNat_eq; simp [BitVec.toNat_add]; omega
    have e2 : BitVec.ofNat 64 (bs.length+1) = 1 + BitVec.ofNat 64 bs.length := by
      apply BitVec.eq_of_toNat_eq; simp [BitVec.toNat_add]; omega
    simp only [List.length_cons, e1, e2, BitVec.add_assoc]

/-- The beginning of a type field. -/
theorem part_type (bs : List Byte) : ∀ {s : State}, Framing s → s.ph = .type → s.cnt.toNat + bs.length < 4 → s.off.toNat + bs.length < 2 ^ 64 →
    ∃ l c n, feedBytes bs s = .next { s with tc := l, crc := c, cnt := n, off := s.off + BitVec.ofNat 64 bs.length } ∧ n.toNat < 4 := by
  induction bs with
  | nil => intro s _ _ hl _; exact ⟨s.tc, s.crc, s.cnt, by simp [feedBytes], by simpa using hl⟩
  | cons b bs ih =>
    intro s hf hp hl ho
    simp only [List.length_cons] at hl ho
    have hm : s.off ≠ Config.maxOff := by simpa using off_add_ne_max (x := s.off) 0 (n := bs.length + 1) (by omega) (by omega)
    have hc1 : (s.cnt + 1).toNat = s.cnt.toNat + 1 := by simp [BitVec.toNat_add]; omega
    have ho1 : (s.off + 1).toNat = s.off.toNat + 1 := by simp [BitVec.toNat_add]; omega
    rw [type_step hf hp (by omega) b _ hm]
    dsimp only
    rw [if_neg (by intro h; have := congrArg BitVec.toNat h; simp at this hc1; omega)]
    obtain ⟨l, c, n, h, hn⟩ := ih (s := { s with tc := shiftIn s.tc b, crc := crcUpd s.crc b, cnt := s.cnt + 1, off := s.off + 1 }) hf hp (by simp only [hc1]; omega) (by simp only [ho1]; omega)
    refine ⟨l, c, n, h.trans ?_, hn⟩
    have e2 : BitVec.ofNat 64 (bs.length+1) = 1 + BitVec.ofNat 64 bs.length := by
      apply BitVec.eq_of_toNat_eq; simp [BitVec.toNat_add]; omega
    simp only [List.length_cons, e2, BitVec.add_assoc]

/-- The beginning of a payload. -/
theorem part_data (bs : List Byte) : ∀ {s : State}, Framing s → s.ph = .data → s.cnt.toNat + bs.length < s.len.toNat → s.off.toNat + bs.length < 2 ^ 64 →
    ∃ l c n, feedBytes bs s = .next { s with pbuf := l, crc := c, cnt := n, off := s.off + BitVec.ofNat 64 bs.length } ∧ n.toNat < s.len.toNat := by
  induction bs with
  | nil => intro s _ _ hl _; exact ⟨s.pbuf, s.crc, s.cnt, by simp [feedBytes], by simpa using hl⟩
  | cons b bs ih =>
    intro s hf hp hl ho
    simp only [List.length_cons] at hl ho
    have hlt := s.len.isLt
    have hm : s.off ≠ Config.maxOff := by simpa using off_add_ne_max (x := s.off) 0 (n := bs.length + 1) (by omega) (by omega)
    have hc1 : (s.cnt + 1).toNat = s.cnt.toNat + 1 := by simp [BitVec.toNat_add]; omega
    have ho1 : (s.off + 1).toNat = s.off.toNat + 1 := by simp [BitVec.toNat_add]; omega
    rw [data_step hf hp (by omega) b _ hm]
    dsimp only
    rw [if_neg (by intro h; have := congrArg BitVec.toNat h; omega)]
    obtain ⟨l, c, n, h, hn⟩ := ih (s := { s with pbuf := s.pbuf ++ [b], crc := crcUpd s.crc b, cnt := s.cnt + 1, off := s.off + 1 }) hf hp (by simp only [hc1]; omega) (by simp only [ho1]; omega)
    refine ⟨l, c, n, h.trans ?_, hn⟩
    have e2 : BitVec.ofNat 64 (bs.length+1) = 1 + BitVec.ofNat 64 bs.length := by
      apply BitVec.eq_of_toNat_eq; simp [BitVec.toNat_add]; omega
    simp only [List.length_cons, e2, BitVec.add_assoc]

/-- The beginning of a CRC field. -/
theorem part_crc (bs : List Byte) : ∀ {s : State}, Framing s → s.ph = .crc → s.cnt.toNat + bs.length < 4 → s.off.toNat + bs.length < 2 ^ 64 →
    ∃ l n, feedBytes bs s = .next { s with rxcrc := l, cnt := n, off := s.off + BitVec.ofNat 64 bs.length } ∧ n.toNat < 4 := by
  induction bs with
  | nil => intro s _ _ hl _; exact ⟨s.rxcrc, s.cnt, by simp [feedBytes], by simpa using hl⟩
  | cons b bs ih =>
    intro s hf hp hl ho
    simp only [List.length_cons] at hl ho
    have hm : s.off ≠ Config.maxOff := by simpa using off_add_ne_max (x := s.off) 0 (n := bs.length + 1) (by omega) (by omega)
    have hc1 : (s.cnt + 1).toNat = s.cnt.toNat + 1 := by simp [BitVec.toNat_add]; omega
    have ho1 : (s.off + 1).toNat = s.off.toNat + 1 := by simp [BitVec.toNat_add]; omega
    rw [crc_step hf hp (by omega) b _ hm]
    dsimp only
    rw [if_neg (by intro h; have := congrArg BitVec.toNat h; simp at this hc1; omega)]
    obtain ⟨l, n, h, hn⟩ := ih (s := { s with rxcrc := shiftIn s.rxcrc b, cnt := s.cnt + 1, off := s.off + 1 }) hf hp (by simp only [hc1]; omega) (by simp only [ho1]; omega)
    refine ⟨l, n, h.trans ?_, hn⟩
    have e2 : BitVec.ofNat 64 (bs.length+1) = 1 + BitVec.ofNat 64 bs.length := by
      apply BitVec.eq_of_toNat_eq; simp [BitVec.toNat_add]; omega
    simp only [List.length_cons, e2, BitVec.add_assoc]

/-- Bytes in `DRAIN` and `TRAIL` change nothing (43_framer.md R222, R225). -/
theorem feed_ignored (bs : List Byte) (s : State) (h : (s.ph = .drain ∨ s.ph = .trail)) (hu : s.ph.usedBy s.op = true) : feedBytes bs s = .next s := by
  induction bs with
  | nil => rfl
  | cons b bs ih =>
    have hi : s.ph.isInput = true := by rcases h with h | h <;> simp [h, Phase.isInput]
    rw [feedBytes, takeToken_byte hi hu]
    have : takeByte b s = .next s := by rcases h with h | h <;> simp [takeByte, h]
    rw [this]; exact ih

/-- The state with another input channel. -/
def withDin (x : List TokWord) (s : State) : State := { s with din := x }

/-- Taking a byte in a counting phase does not look at `DIN`. -/
theorem takeCounted_din (s : State) (b : Byte) (x : List TokWord) : State.takeCounted { s with din := x } b = { s.takeCounted b with din := x } := by
  show _ = withDin x (s.takeCounted b)
  unfold State.takeCounted
  dsimp only
  cases h : s.ph <;> dsimp only <;> (try (show _ = _; rw [← h]; rfl))
  · unfold State.takeSig; dsimp only; rw [apply_ite (withDin x)]; rw [apply_ite (withDin x)]; rw [← h]; rfl
  · unfold State.takeLen State.lenComplete; dsimp only; rw [apply_ite (withDin x), apply_ite (withDin x), apply_ite (withDin x)]; rw [← h]; rfl
  · unfold State.takeType; dsimp only; rw [apply_ite (withDin x)]; rw [← h]; rfl
  · unfold State.takeData; dsimp only; rw [apply_ite (withDin x)]; rw [← h]; rfl
  · unfold State.takeCrc State.crcComplete; dsimp only; rw [apply_ite (withDin x), apply_ite (withDin x), apply_ite (withDin x), apply_ite (withDin x)]; rw [← h]; rfl

/-- Taking a byte does not look at `DIN`. -/
theorem takeByte_din (s : State) (b : Byte) (x : List TokWord) (t : State) (h : takeByte b s = .next t) : takeByte b { s with din := x } = .next { t with din := x } := by
  rcases takeByte_cases h with ⟨hp, rfl⟩ | ⟨hp, ho, rfl⟩ | ⟨hp, ho, rfl⟩ | ⟨h1, h2, rfl⟩ | ⟨h1, h2, rfl⟩
  · rcases hp with hp | hp <;> simp [takeByte, hp]
  · have : takeByte b { s with din := x } = .next (State.takeMake { s with din := x } b) := by simp [takeByte, hp, ho]
    rw [this]; show _ = Host.Outcome.next (withDin x _); unfold State.takeMake; rw [apply_ite (withDin x), apply_ite (withDin x)]; rfl
  · have : takeByte b { s with din := x } = .next (State.takeCalc { s with din := x } b) := by simp [takeByte, hp, ho]
    rw [this]; show _ = Host.Outcome.next (withDin x _); unfold State.takeCalc; rw [apply_ite (withDin x)]; rfl
  · have hc : s.ph ≠ .trail ∧ s.ph ≠ .drain ∧ s.ph ≠ .load := by
      refine ⟨?_, ?_, ?_⟩ <;> intro h <;> simp [State.fieldSize, h] at h1
    unfold takeByte
    dsimp only
    split
    · exact absurd ‹_› hc.1
    · exact absurd ‹_› hc.2.1
    · exact absurd ‹_› hc.2.2
    · rw [if_neg (show ¬ State.fieldSize { s with din := x } ≤ s.cnt.toNat from by
        rw [show State.fieldSize { s with din := x } = s.fieldSize from rfl]; omega), if_pos h2]; rfl
  · have hc : s.ph ≠ .trail ∧ s.ph ≠ .drain ∧ s.ph ≠ .load := by
      refine ⟨?_, ?_, ?_⟩ <;> intro h <;> simp [State.fieldSize, h] at h1
    unfold takeByte
    dsimp only
    split
    · exact absurd ‹_› hc.1
    · exact absurd ‹_› hc.2.1
    · exact absurd ‹_› hc.2.2
    · rw [if_neg (show ¬ State.fieldSize { s with din := x } ≤ s.cnt.toNat from by
        rw [show State.fieldSize { s with din := x } = s.fieldSize from rfl]; omega), if_neg h2, takeCounted_din]

/-- After a byte the phase still takes input: only `EOB` ends a command (43_framer.md R227). -/
theorem takeByte_isInput (s t : State) (b : Byte) (h : takeByte b s = .next t) (hi : s.ph.isInput = true) : t.ph.isInput = true := by
  rcases takeByte_cases h with ⟨hp, rfl⟩ | ⟨hp, ho, rfl⟩ | ⟨hp, ho, rfl⟩ | ⟨h1, h2, rfl⟩ | ⟨h1, h2, rfl⟩
  · exact hi
  · unfold State.takeMake; split_ifs <;> first | rfl | (simp [hp, Phase.isInput])
  · unfold State.takeCalc; split_ifs <;> first | rfl | (simp [hp, Phase.isInput])
  · rfl
  · unfold State.takeCounted State.takeSig State.takeLen State.lenComplete State.takeType State.takeData State.takeCrc State.crcComplete
    split <;> (try dsimp only) <;> (try split_ifs) <;> first | rfl | exact hi

/-- The fields of the word of a byte token (30_encoding.md R100). -/
theorem tokWord_b_fields (b : Byte) : (tokWord (.b b)).getLsbD 8 = false ∧ (tokWord (.b b)).extractLsb' 0 8 = b := by
  simp only [tokWord, tokFields]
  refine ⟨by simp, ?_⟩
  apply BitVec.eq_of_getLsbD_eq; intro i hi; simp [hi]; omega

/-- A step with a byte at the head of `DIN`. -/
theorem step_takes_byte {s : State} (hi : s.ph.isInput = true) (b : Byte) (rest : List TokWord) (hd : s.din = tokWord (.b b) :: rest) (w : TokWord) (t : State)
   (h : takeToken (.b b) w { s with din := rest } = .next t) : step s = .next t := by
  have hn : s.ph ≠ .idle := by intro h; simp [h, Phase.isInput] at hi
  unfold step fetch
  rw [if_neg hn, if_pos hi, hd]
  dsimp only [decodeTok]
  rw [(tokWord_b_fields b).1, (tokWord_b_fields b).2]
  show takeToken (.b b) _ _ = _
  rcases takeToken_cases h with ⟨g, _⟩ | ⟨_, hu, ⟨d, hd, g⟩ | ⟨hd, _⟩⟩
  · simp [hi] at g
  · cases hd; rw [takeToken_byte (s := { s with din := rest }) hi hu]; exact g
  · cases hd

/-- As many steps as bytes at the head of `DIN` take the bytes one after another. -/
theorem run_feedBytes (bs : List Byte) : ∀ (s t : State) (rest : List TokWord), s.ph.isInput = true → s.din = bs.map (fun b => tokWord (.b b)) ++ rest →
    feedBytes bs { s with din := rest } = .next t → RunsTo bs.length s t ∧ t.ph.isInput = true ∧ t.din = rest := by
  induction bs with
  | nil =>
    intro s t rest hi hd h
    simp [feedBytes] at h hd
    subst h
    refine ⟨?_, hi, rfl⟩
    have : s = { s with din := rest } := by rw [← hd]
    rw [← this]; exact (RunsTo_zero s s).mpr rfl
  | cons b bs ih =>
    intro s t rest hi hd h
    rw [feedBytes] at h
    split at h
    · next s' hs' =>
      have hb : takeByte b { s with din := rest } = .next s' := by
        rcases takeToken_cases hs' with ⟨g, _⟩ | ⟨_, hu, ⟨d, hd, g⟩ | ⟨hd, _⟩⟩
        · exact absurd hi (by rw [show s.ph.isInput = false from g]; simp)
        · cases hd; exact g
        · cases hd
      have hus : s.ph.usedBy s.op = true := by
        rcases takeToken_cases hs' with ⟨g, _⟩ | ⟨_, hu, _⟩
        · exact absurd hi (by rw [show s.ph.isInput = false from g]; simp)
        · exact hu
      have hsd := takeByte_din _ b (bs.map (fun b => tokWord (.b b)) ++ rest) _ hb
      have hstep : step s = .next { s' with din := bs.map (fun b => tokWord (.b b)) ++ rest } := by
        apply step_takes_byte hi b (bs.map (fun b => tokWord (.b b)) ++ rest) (by rw [hd]; rfl) (tokWord (.b b))
        exact (takeToken_byte (by exact hi) (by exact hus) _ _).trans hsd
      have hi' := takeByte_isInput _ _ b hb hi
      have hdin' : s'.din = rest := by
        have := takeByte_din _ b rest _ hb
        simp only at this
        rw [hb] at this
        injection this with this
        rw [this]
      obtain ⟨q1, q2, q3⟩ := ih { s' with din := bs.map (fun b => tokWord (.b b)) ++ rest } t rest hi' rfl (by
        have : ({ s' with din := rest } : State) = s' := by rw [← hdin']
        show feedBytes bs { s' with din := rest } = _
        rw [this]; exact h)
      exact ⟨(RunsTo_succ _ _ _).mpr ⟨_, hstep, q1⟩, q2, q3⟩
    · simp at h
    · simp at h

/-- One step more. -/
theorem RunsTo_snoc (k : Nat) (s t u : State) (h : RunsTo k s t) (h2 : step t = .next u) : RunsTo (k+1) s u :=
  RunsTo_trans h ((RunsTo_succ 0 t u).mpr ⟨u, h2, (RunsTo_zero u u).mpr rfl⟩)

/-- As many steps as tokens of a buffer take its bytes and then its `EOB`. -/
theorem run_buffer (s t u : State) (buf : List Byte) (rest : List TokWord) (hb : HasBuffer s buf rest) (hi : s.ph.isInput = true)
   (hf : feedBytes buf { s with din := rest } = .next t) (hu : t.ph.usedBy t.op = true) (he : takeEob t = .next u) : RunsTo (buf.length + 1) s u := by
  obtain ⟨e, he8, hd⟩ := hb
  -- feed with e :: rest
  have key : ∀ (bs : List Byte) (a b : State) (x : List TokWord), a.ph.isInput = true → feedBytes bs a = .next b → feedBytes bs { a with din := x } = .next { b with din := x } := by
    intro bs
    induction bs with
    | nil => intro a b x _ h; cases h; rfl
    | cons c bs ih =>
      intro a b x hi h
      rw [feedBytes] at h ⊢
      split at h
      · next s' hs' =>
        rcases takeToken_cases hs' with ⟨g, _⟩ | ⟨_, hu, ⟨d, hd, g⟩ | ⟨hd, _⟩⟩
        · rw [hi] at g; cases g
        · cases hd
          rw [takeToken_byte (s := { a with din := x }) hi hu, takeByte_din _ _ x _ g]
          exact ih _ _ x (takeByte_isInput _ _ _ g hi) h
        · cases hd
      · cases h
      · cases h
  have hf2 := key buf { s with din := rest } t (e :: rest) hi hf
  obtain ⟨q1, q2, q3⟩ := run_feedBytes buf s _ (e :: rest) hi hd hf2
  apply RunsTo_snoc _ _ _ _ q1
  have hti : t.ph.isInput = true := q2
  have hdt : t.din = rest := by
    have := key buf { s with din := rest } t rest hi hf
    have h2 : feedBytes buf { s with din := rest } = .next { t with din := rest } := this
    rw [hf] at h2; injection h2 with h2; rw [h2]
  have hn : t.ph ≠ .idle := by intro h; simp [h, Phase.isInput] at hti
  unfold step fetch
  simp only
  rw [if_neg hn, if_pos hti]
  dsimp only [decodeTok]
  rw [he8]
  show takeToken .eob _ { t with din := rest } = _
  have : ({ t with din := rest } : State) = t := by rw [← hdt]
  rw [this, takeToken_eob hti hu]; exact he

end Sys2Proof.Machine
end

