-- ==== Sys2Proof/Laws/Framing.lean ====
section
/-! SUPPORT. The framer and the function level on one chunk. -/

namespace Sys2Proof.Machine

/-- What no token inside a command changes. -/
structure Keep (s t : State) : Prop where
  params : t.params = s.params
  cmd : t.cmd = s.cmd
  din : t.din = s.din
  dout : t.dout = s.dout
  rsp : t.rsp = s.rsp
  op : t.op = s.op
  cont : t.cont = s.cont

/-- Keeping composes. -/
theorem Keep.trans {a b c : State} (h : Keep a b) (g : Keep b c) : Keep a c :=
  ⟨g.1.trans h.1, g.2.trans h.2, g.3.trans h.3, g.4.trans h.4, g.5.trans h.5, g.6.trans h.6, g.7.trans h.7⟩
/-- Nothing changed. -/
theorem Keep.refl (a : State) : Keep a a := ⟨rfl, rfl, rfl, rfl, rfl, rfl, rfl⟩

/-- `n` bytes after the start of a chunk, inside one of its fields. -/
def Mid (s t : State) (n : Nat) : Prop := Keep s t ∧ t.ck = s.ck ∧ t.stg = s.stg ∧ t.cstart = s.cstart ∧ t.off = s.off + BitVec.ofNat 64 n ∧
  ((t.ph = .len ∧ (t.cnt = 0 → n = 0) ∧ t.cnt.toNat < 4) ∨ t.ph = .type ∧ t.cnt.toNat < 4 ∨ t.ph = .data ∧ t.cnt.toNat < t.len.toNat ∨ t.ph = .crc ∧ t.cnt.toNat < 4)

/-- The chunk being framed has failed and the rest of the buffer is drained (43_framer.md R222). -/
def Drained (s t : State) (st : Status) (sub : Byte) : Prop := Keep s t ∧ t.ck = s.ck ∧ t.ph = .drain ∧ t.perr = some ⟨st, sub, idxOf s.stg.length, s.cstart⟩

/-- A list of at least four elements. -/
theorem exists_four {α} (l : List α) (h : 4 ≤ l.length) : ∃ a b c d r, l = a :: b :: c :: d :: r := by
  match l, h with
  | a :: b :: c :: d :: r, _ => exact ⟨a, b, c, d, r, rfl⟩

/-- The rest of a drained buffer changes nothing (43_framer.md R222). -/
theorem feed_drained {u : State} (hf : Framing u) (e : PendingError) (r : List Byte) : feedBytes r (u.toDrain e) = .next (u.toDrain e) := by
  apply feed_ignored
  · left; rfl
  · rcases hf with hf | hf <;> simp [hf, Phase.usedBy]

/-- The streaming law (40_crc.md R135). -/
theorem crcRun_crcRun (c : Word) (a b : List Byte) : crcRun (crcRun c a) b = crcRun c (a ++ b) := by simp [crcRun]

/-- The bytes of a whole chunk element, from the start of its length field to the comparison (43_framer.md R214 to R219). -/
theorem feed_chunkFields {s : State} (hf : Framing s) (hp : s.ph = .len) (hc : s.cnt = 0) (c : Chunk) (x : Word) (rest : List Byte)
    (hl : ChunkOk c) (hcap : capFits s.params (s.framedBytes + c.data.length) = true) (ho : s.off.toNat + 12 + c.data.length < 2 ^ 64) :
    feedBytes (chunkFields c.ty c.data x ++ rest) s = feedBytes rest (State.crcComplete
      { s with len := BitVec.ofNat 32 c.data.length, tc := c.ty, pbuf := c.data, crc := crcRun Config.crcInit (be32 c.ty ++ c.data)
               rxcrc := x, cnt := 4, off := s.off + BitVec.ofNat 64 (12 + c.data.length), ph := .crc }) := by
  obtain ⟨a, b, d, e, hn, hv⟩ := be32_bytes (BitVec.ofNat 32 c.data.length)
  obtain ⟨a', b', d', e', hn', hv'⟩ := be32_bytes c.ty
  obtain ⟨a'', b'', d'', e'', hn'', hv''⟩ := be32_bytes x
  have hm : c.data.length ≤ 2147483647 := hl
  have hln : (BitVec.ofNat 32 c.data.length).toNat = c.data.length := by simp; omega
  have ho4 : (s.off + 4).toNat = s.off.toNat + 4 := by simp [BitVec.toNat_add]; omega
  have ho8 : (s.off + 4 + 4).toNat = s.off.toNat + 8 := by simp [BitVec.toNat_add]; omega
  have hoff : s.off + 4 + 4 + BitVec.ofNat 64 c.data.length + 4 = s.off + BitVec.ofNat 64 (12 + c.data.length) := by
    apply BitVec.eq_of_toNat_eq; simp [BitVec.toNat_add]; omega
  rw [chunkFields, hn, hn', hn'']
  simp only [List.cons_append, List.nil_append, List.append_assoc]
  rw [feed_len hf hp hc _ _ _ _ _ (by omega), hv]
  unfold State.lenComplete
  rw [if_neg (by simp only [hln, Config.maxLen]; omega), if_neg (by simpa [State.framedBytes, State.arch, hln] using hcap)]
  rw [feed_type (by exact hf) rfl rfl _ _ _ _ _ (by simp only [State.enter, ho4]; omega), hv']
  by_cases hd : c.data = []
  · simp only [hd, State.enter, List.length_nil, List.nil_append]
    rw [feed_crc (by exact hf) (by simp) rfl _ _ _ _ _ (by simp only [ho8]; omega), hv'']
    have h12 : s.off + 4#64 + 4#64 + 4#64 = s.off + 12#64 := by simpa [hd] using hoff
    simp [h12]
  · have hz : ¬ (BitVec.ofNat 32 c.data.length = 0) := by
      intro h; have := congrArg BitVec.toNat h; rw [hln] at this; simp at this; exact hd this
    simp only [State.enter]
    rw [feed_data c.data (by exact hf) (if_neg hz) _ hd (by simp only [hln]; simp) (by simp only [ho8]; omega)]
    rw [feed_crc (by exact hf) rfl rfl _ _ _ _ _ (by simp only [BitVec.toNat_add, ho8]; simp; omega), hv'']
    simp only [hoff, List.nil_append, crcRun_crcRun, List.cons_append]

/-- The bytes `CRC_CALC` takes, while `off` can count them (40_crc.md R141). -/
theorem feed_calc (buf : List Byte) : ∀ s : State, s.ph = .load → s.op = opCrcCalc → s.off.toNat + buf.length < 2 ^ 64 →
    feedBytes buf s = .next { s with crc := crcRun s.crc buf, off := s.off + BitVec.ofNat 64 buf.length } := by
  induction buf with
  | nil => intro s _ _ _; simp [feedBytes, crcRun]
  | cons b buf ih =>
    intro s hp ho hl
    simp only [List.length_cons] at hl
    have hm : s.off ≠ Config.maxOff := by simpa using off_add_ne_max (x := s.off) 0 (n := buf.length + 1) (by omega) (by omega)
    have h1 : (s.off + 1).toNat = s.off.toNat + 1 := by simp [BitVec.toNat_add]; omega
    rw [feedBytes, takeToken_byte (by simp [hp, Phase.isInput]) (by simp [hp, ho, Phase.usedBy])]
    have : takeByte b s = .next { s with crc := crcUpd s.crc b, off := s.off + 1 } := by
      simp [takeByte, hp, ho, opCrcCalc, opCkMake, State.takeCalc, hm]
    rw [this]
    refine (ih { s with crc := crcUpd s.crc b, off := s.off + 1 } hp ho (by simp only [h1]; omega)).trans ?_
    have e2 : BitVec.ofNat 64 (buf.length + 1) = 1 + BitVec.ofNat 64 buf.length := by
      apply BitVec.eq_of_toNat_eq; simp [BitVec.toNat_add]; omega
    simp [crcRun, e2, BitVec.add_assoc]

/-- What the framer does with bytes from the start of a length field is what `parse_chunk` says of them (43_framer.md R214 to R219, R228; 42_chunk.md R176): they end inside the chunk, or it fails and the rest is drained, or it is complete. -/
theorem feed_chunk {s : State} (hf : Framing s) (hp : s.ph = .len) (hc : s.cnt = 0) (bs : List Byte) (ho : s.off.toNat + bs.length < 2 ^ 64)
   (lim : Limits) (used : Nat) (hlim : ∀ L, lim.fits (used + L) = capFits s.params (s.framedBytes + L)) :
   (∃ t, parseChunkWith lim used bs 0 = .fail .malformedChunk subTruncated ∧ feedBytes bs s = .next t ∧ Mid s t bs.length)
   ∨ (∃ t st sub, parseChunkWith lim used bs 0 = .fail st sub ∧ ¬ (st = .malformedChunk ∧ sub = subTruncated) ∧ feedBytes bs s = .next t ∧ Drained s t st sub)
   ∨ (∃ c o u, parseChunkWith lim used bs 0 = .ok c o ∧ o ≤ bs.length ∧ 12 ≤ o ∧ o = 12 + c.data.length ∧ c.data.length ≤ Config.maxLen ∧ capFits s.params (s.framedBytes + c.data.length) = true ∧ feedBytes bs s = feedBytes (bs.drop o) (State.crcComplete u) ∧ Keep s u ∧ u.ck = s.ck
        ∧ u.stg = s.stg ∧ u.cstart = s.cstart ∧ u.off = s.off + BitVec.ofNat 64 o ∧ u.framed = c ∧ u.rxcrc = u.crc ^^^ Config.crcXorOut ∧ u.crc ^^^ Config.crcXorOut = chunkCrc c) := by
  by_cases h4 : bs.length < 4
  · left
    obtain ⟨l, h⟩ := part_len bs hf hp (by simp [hc]; omega) ho
    refine ⟨_, ?_, h, ⟨rfl, rfl, rfl, rfl, rfl, rfl, rfl⟩, rfl, rfl, rfl, rfl, .inl ⟨hp, ?_, ?_⟩⟩
    · simp [parseChunkWith, h4]
    · intro h; simp [hc] at h; have := congrArg BitVec.toNat h; simp at this; omega
    · simp [hc]; omega
  obtain ⟨b0, b1, b2, b3, r, rfl⟩ := exists_four bs (by omega)
  simp only [List.length_cons] at ho
  rw [feed_len hf hp hc _ _ _ _ _ (by omega)]
  unfold parseChunkWith
  simp only [List.drop_zero, h4, if_false, wordOfBytes_four]
  generalize hL : rd32 b0 b1 b2 b3 = L
  by_cases hm : Config.maxLen < L.toNat
  · right; left
    simp only [hm, if_true]
    have e : (State.lenComplete { s with len := L, cnt := 4, off := s.off + 4 }) = ({ s with len := L, cnt := 4, off := s.off + 4 } : State).toDrain (s.chunkError .malformedChunk subLengthTooLarge) := by
      unfold State.lenComplete; simp only [hm, if_true]; rfl
    rw [e]
    exact ⟨_, _, _, rfl, by decide, feed_drained (u := { s with len := L, cnt := 4, off := s.off + 4 }) hf _ _, ⟨rfl, rfl, rfl, rfl, rfl, rfl, rfl⟩, rfl, rfl, rfl⟩
  simp only [hm, if_false]
  by_cases hcap : lim.fits (used + L.toNat) = true
  rotate_left
  · right; left
    have hcap2 : capFits s.params (s.framedBytes + L.toNat) = false := by rw [← hlim]; simpa using hcap
    have hcap' : lim.fits (used + L.toNat) = false := by simpa using hcap
    have e : (State.lenComplete { s with len := L, cnt := 4, off := s.off + 4 }) = ({ s with len := L, cnt := 4, off := s.off + 4 } : State).toDrain (s.chunkError .capacityExceeded 0) := by
      unfold State.lenComplete; simp only [hm, if_false]
      rw [if_pos (by
        show (!capFits s.params (s.framedBytes + L.toNat)) = true
        rw [hcap2]; rfl)]
      rfl
    rw [e, hcap']
    exact ⟨_, _, _, rfl, by decide, feed_drained (u := { s with len := L, cnt := 4, off := s.off + 4 }) hf _ _, ⟨rfl, rfl, rfl, rfl, rfl, rfl, rfl⟩, rfl, rfl, rfl⟩
  have hcap2 : capFits s.params (s.framedBytes + L.toNat) = true := by rw [← hlim]; exact hcap
  simp only [hcap, Bool.not_true, Bool.false_eq_true, if_false]
  have hlc : (State.lenComplete { s with len := L, cnt := 4, off := s.off + 4 }) = { s with len := L, cnt := 0, off := s.off + 4, ph := .type, tc := 0, crc := Config.crcInit, pbuf := [] } := by
    unfold State.lenComplete; simp only [hm, if_false]
    rw [if_neg (by
        show ¬ (!capFits s.params (s.framedBytes + L.toNat)) = true
        rw [hcap2]; decide)]
    rfl
  rw [hlc]
  have ho4 : (s.off + 4).toNat = s.off.toNat + 4 := by simp [BitVec.toNat_add]; omega
  by_cases h8 : r.length < 4
  · left
    rw [if_pos (by simp only [List.length_cons]; omega)]
    obtain ⟨l, c, n, h, hn⟩ := part_type r (s := { s with len := L, cnt := 0, off := s.off + 4, ph := .type, tc := 0, crc := Config.crcInit, pbuf := [] }) hf rfl (by simp; omega) (by simp only [ho4]; omega)
    refine ⟨_, rfl, h, ⟨rfl, rfl, rfl, rfl, rfl, rfl, rfl⟩, rfl, rfl, rfl, ?_, .inr (.inl ⟨rfl, hn⟩)⟩
    simp only [BitVec.add_assoc, List.length_cons]
    congr 1; apply BitVec.eq_of_toNat_eq; simp [BitVec.toNat_add]; omega
  obtain ⟨t0, t1, t2, t3, r, rfl⟩ := exists_four r (by omega)
  simp only [List.length_cons] at ho
  rw [feed_type (s := { s with len := L, cnt := 0, off := s.off + 4, ph := .type, tc := 0, crc := Config.crcInit, pbuf := [] }) hf rfl rfl _ _ _ _ _ (by simp only [ho4]; omega)]
  have ho8 : (s.off + 4 + 4).toNat = s.off.toNat + 8 := by simp [BitVec.toNat_add]; omega
  have hlen : ∀ n, (State.framedBytes s) = (State.framedBytes s) + 0 * n := by intro n; omega
  -- data
  have hdata : ∀ (u : State), u = { s with len := L, tc := rd32 t0 t1 t2 t3, crc := crcRun Config.crcInit [t0,t1,t2,t3], cnt := 0, rxcrc := 0, off := s.off + 4 + 4, pbuf := [], ph := if L = 0 then .crc else .data } →
     (r.length < L.toNat → ∃ t, feedBytes r u = .next t ∧ Mid s t (r.length + 8))
     ∧ (L.toNat ≤ r.length → feedBytes r u = feedBytes (r.drop L.toNat) { u with pbuf := r.take L.toNat, crc := crcRun Config.crcInit ([t0,t1,t2,t3] ++ r.take L.toNat), off := s.off + BitVec.ofNat 64 (8 + L.toNat), ph := .crc }) := by
    intro u hu
    have hfu : Framing u := by rw [hu]; exact hf
    by_cases hL0 : L = 0
    · subst hL0
      refine ⟨fun h => by simp at h, fun _ => ?_⟩
      subst hu
      simp only [if_true, show (0 : Word).toNat = 0 from rfl, List.drop_zero, List.take_zero, List.append_nil, BitVec.add_assoc]
      rfl
    · have hLp : 0 < L.toNat := by
        rcases Nat.eq_zero_or_pos L.toNat with h | h
        · exact absurd (BitVec.eq_of_toNat_eq h) hL0
        · exact h
      have hpu : u.ph = .data := by rw [hu]; simp only [hL0, if_false]
      have hcu : u.cnt = 0 := by rw [hu]
      have hlu : u.len = L := by rw [hu]
      have hou : u.off = s.off + 4 + 4 := by rw [hu]
      refine ⟨fun h => ?_, fun h => ?_⟩
      · obtain ⟨l, c, n, h, hn⟩ := part_data r (s := u) hfu hpu (by rw [hcu, hlu]; simpa using h) (by rw [hou, ho8]; omega)
        refine ⟨_, h, ⟨?_, ?_, ?_, ?_, ?_, .inr (.inr (.inl ⟨hpu, ?_⟩))⟩⟩
        · constructor <;> rw [hu]
        · rw [hu]
        · rw [hu]
        · rw [hu]
        · show u.off + _ = _
          rw [hou]; simp only [BitVec.add_assoc]
          congr 1; apply BitVec.eq_of_toNat_eq; simp [BitVec.toNat_add]; omega
        · exact hn
      · have htl : (r.take L.toNat).length = L.toNat := by simp [h]
        have := feed_data (r.take L.toNat) (s := u) hfu hpu (r.drop L.toNat) (by intro h0; rw [h0] at htl; simp at htl; omega) (by rw [hcu, hlu, htl]; simp) (by rw [hou, ho8, htl]; omega)
        rw [List.take_append_drop] at this
        rw [this, htl, hou]
        subst hu
        simp only [List.nil_append, crcRun_crcRun, BitVec.add_assoc]
        have e : (4#64 + (4#64 + BitVec.ofNat 64 L.toNat)) = BitVec.ofNat 64 (8 + L.toNat) := by
          apply BitVec.eq_of_toNat_eq; simp [BitVec.toNat_add]; omega
        rw [show ((4 : Off) + (4 + BitVec.ofNat 64 L.toNat)) = BitVec.ofNat 64 (8 + L.toNat) from e]
  obtain ⟨hd1, hd2⟩ := hdata _ rfl
  by_cases hr : r.length < L.toNat
  · left
    rw [if_pos (by simp only [List.length_cons]; omega)]
    obtain ⟨t, ht, hmid⟩ := hd1 hr
    exact ⟨t, rfl, ht, hmid⟩
  rw [hd2 (by omega)]
  have hoL : (s.off + BitVec.ofNat 64 (8 + L.toNat)).toNat = s.off.toNat + (8 + L.toNat) := by simp [BitVec.toNat_add]; omega
  have hcl : (r.drop L.toNat).length = r.length - L.toNat := by simp
  by_cases hc4 : (r.drop L.toNat).length < 4
  · left
    rw [if_pos (by simp only [List.length_cons]; omega)]
    obtain ⟨l, n, h, hn⟩ := part_crc (r.drop L.toNat) (s := { s with len := L, tc := rd32 t0 t1 t2 t3, crc := crcRun Config.crcInit ([t0,t1,t2,t3] ++ r.take L.toNat), cnt := 0, rxcrc := 0, off := s.off + BitVec.ofNat 64 (8 + L.toNat), pbuf := r.take L.toNat, ph := .crc }) hf rfl (by simp only [show (0 : Word).toNat = 0 from rfl]; omega) (by simp only [hoL]; omega)
    refine ⟨_, rfl, h, ⟨rfl, rfl, rfl, rfl, rfl, rfl, rfl⟩, rfl, rfl, rfl, ?_, .inr (.inr (.inr ⟨rfl, hn⟩))⟩
    simp only [BitVec.add_assoc, List.length_cons]
    congr 1; apply BitVec.eq_of_toNat_eq; simp [BitVec.toNat_add]; omega
  obtain ⟨c0, c1, c2, c3, r', hr'⟩ := exists_four (r.drop L.toNat) (by omega)
  rw [hr', feed_crc (s := { s with len := L, tc := rd32 t0 t1 t2 t3, crc := crcRun Config.crcInit ([t0,t1,t2,t3] ++ r.take L.toNat), cnt := 0, rxcrc := 0, off := s.off + BitVec.ofNat 64 (8 + L.toNat), pbuf := r.take L.toNat, ph := .crc }) hf rfl rfl _ _ _ _ _ (by simp only [hoL]; omega)]
  have hrl : r'.length + 4 + L.toNat = r.length := by
    have := congrArg List.length hr'; simp at this; omega
  rw [if_neg (by simp only [List.length_cons]; omega)]
  have htl : (r.take L.toNat).length = L.toNat := by simp; omega
  have hd8 : List.drop (8 + L.toNat) (b0 :: b1 :: b2 :: b3 :: t0 :: t1 :: t2 :: t3 :: r) = c0 :: c1 :: c2 :: c3 :: r' := by
    rw [← hr', show 8 + L.toNat = L.toNat + 8 by omega]; rfl
  have hd12 : List.drop (0 + 12 + L.toNat) (b0 :: b1 :: b2 :: b3 :: t0 :: t1 :: t2 :: t3 :: r) = r' := by
    have : List.drop (4 + L.toNat) r = r' := by
      have := congrArg (List.drop 4) hr'
      rw [List.drop_drop, Nat.add_comm] at this; exact this
    rw [← this, show 0 + 12 + L.toNat = (4 + L.toNat) + 8 by omega]; rfl
  simp only [hd8]
  have e4 : List.drop 4 (b0 :: b1 :: b2 :: b3 :: t0 :: t1 :: t2 :: t3 :: r) = t0 :: t1 :: t2 :: t3 :: r := rfl
  have e8 : List.drop 8 (b0 :: b1 :: b2 :: b3 :: t0 :: t1 :: t2 :: t3 :: r) = r := rfl
  simp only [e4, e8, wordOfBytes_four]
  have hcrc : crcRun Config.crcInit ([t0,t1,t2,t3] ++ r.take L.toNat) ^^^ Config.crcXorOut = chunkCrc { ty := rd32 t0 t1 t2 t3, data := r.take L.toNat } := by
    simp only [chunkCrc, be32_rd32]; rfl
  by_cases hx : rd32 c0 c1 c2 c3 = chunkCrc { ty := rd32 t0 t1 t2 t3, data := r.take L.toNat }
  · right; right
    rw [if_pos hx]
    refine ⟨_, _, { s with len := L, tc := rd32 t0 t1 t2 t3, crc := crcRun Config.crcInit ([t0,t1,t2,t3] ++ r.take L.toNat), cnt := 4, rxcrc := rd32 c0 c1 c2 c3, off := s.off + BitVec.ofNat 64 (8 + L.toNat) + 4, pbuf := r.take L.toNat, ph := .crc }, rfl, ?_, ?_, ?_, ?_, ?_, ?_, ⟨rfl, rfl, rfl, rfl, rfl, rfl, rfl⟩, rfl, rfl, rfl, ?_, rfl, ?_, ?_⟩
    · simp only [List.length_cons]; omega
    · omega
    · simp only [htl]
    · rw [htl]; omega
    · rw [htl]; exact hcap2
    · rw [hd12]
    · simp only [BitVec.add_assoc]
      congr 1; apply BitVec.eq_of_toNat_eq; simp [BitVec.toNat_add]; omega
    · rw [hcrc]; exact hx
    · exact hcrc
  · right; left
    rw [if_neg hx]
    have e : State.crcComplete { s with len := L, tc := rd32 t0 t1 t2 t3, crc := crcRun Config.crcInit ([t0,t1,t2,t3] ++ r.take L.toNat), cnt := 4, rxcrc := rd32 c0 c1 c2 c3, off := s.off + BitVec.ofNat 64 (8 + L.toNat) + 4, pbuf := r.take L.toNat, ph := .crc }
       = ({ s with len := L, tc := rd32 t0 t1 t2 t3, crc := crcRun Config.crcInit ([t0,t1,t2,t3] ++ r.take L.toNat), cnt := 4, rxcrc := rd32 c0 c1 c2 c3, off := s.off + BitVec.ofNat 64 (8 + L.toNat) + 4, pbuf := r.take L.toNat, ph := .crc } : State).toDrain (s.chunkError .malformedChunk subCrcMismatch) := by
      unfold State.crcComplete
      rw [if_neg (by simp only [hcrc]; exact hx)]; rfl
    rw [e]
    exact ⟨_, _, _, rfl, by decide, feed_drained (u := { s with len := L, tc := rd32 t0 t1 t2 t3, crc := crcRun Config.crcInit ([t0,t1,t2,t3] ++ r.take L.toNat), cnt := 4, rxcrc := rd32 c0 c1 c2 c3, off := s.off + BitVec.ofNat 64 (8 + L.toNat) + 4, pbuf := r.take L.toNat, ph := .crc }) hf _ _, ⟨rfl, rfl, rfl, rfl, rfl, rfl, rfl⟩, rfl, rfl, rfl⟩

end Sys2Proof.Machine
end

