-- ==== Sys2Proof/Laws/PerInstr.lean ====
section
/-! SUPPORT. Statements made per instruction: one lemma for each constructor of Instr. -/

namespace Sys2Proof.Laws.UnusedFieldsAreZero

open Sys2Proof.Machine

/-- The fields of a command word that its opcode does not use are sent as 0 (30_encoding.md R101): only `TY_CHECK`,
`TY_PROPS`, `CK_MAKE`, `CT_FIND`, `CT_REMOVE` use `tc`, and only `CT_INSERT`, `CT_FIND`, `CT_GET` use `pos` (R102). -/
def Statement (i : Instr) : Prop :=
  ∀ w, encode i = .cmd w →
    (cmdOp w ∉ [0x10#8, 0x11#8, 0x20#8, 0x34#8, 0x36#8] → cmdTc w = 0) ∧ (cmdOp w ∉ [0x33#8, 0x34#8, 0x35#8] → cmdPos w = 0)

/-- A word whose used fields are among those of its opcode. -/
theorem of_cmdWord {op : Byte} {tc pos : Word} (ht : op ∉ [0x10#8, 0x11#8, 0x20#8, 0x34#8, 0x36#8] → tc = 0)
    (hp : op ∉ [0x33#8, 0x34#8, 0x35#8] → pos = 0) {w : CmdWord} (h : Code.cmd (cmdWord op tc pos) = .cmd w) :
    (cmdOp w ∉ [0x10#8, 0x11#8, 0x20#8, 0x34#8, 0x36#8] → cmdTc w = 0) ∧ (cmdOp w ∉ [0x33#8, 0x34#8, 0x35#8] → cmdPos w = 0) := by
  cases h
  rw [cmdOp_cmdWord, cmdTc_cmdWord, cmdPos_cmdWord]
  exact ⟨ht, hp⟩

theorem nop : Statement .nop := fun _ h => of_cmdWord (fun _ => rfl) (fun _ => rfl) h
theorem crcCalc : Statement .crcCalc := fun _ h => of_cmdWord (fun _ => rfl) (fun _ => rfl) h
theorem tyCheck (tc : Word) : Statement (.tyCheck tc) := fun _ h => of_cmdWord (fun h => absurd (by decide) h) (fun _ => rfl) h
theorem tyProps (tc : Word) : Statement (.tyProps tc) := fun _ h => of_cmdWord (fun h => absurd (by decide) h) (fun _ => rfl) h
theorem ckMake (tc : Word) : Statement (.ckMake tc) := fun _ h => of_cmdWord (fun h => absurd (by decide) h) (fun _ => rfl) h
theorem ckParse : Statement .ckParse := fun _ h => of_cmdWord (fun _ => rfl) (fun _ => rfl) h
theorem ckSer : Statement .ckSer := fun _ h => of_cmdWord (fun _ => rfl) (fun _ => rfl) h
theorem ckType : Statement .ckType := fun _ h => of_cmdWord (fun _ => rfl) (fun _ => rfl) h
theorem ckLen : Statement .ckLen := fun _ h => of_cmdWord (fun _ => rfl) (fun _ => rfl) h
theorem ckCrc : Statement .ckCrc := fun _ h => of_cmdWord (fun _ => rfl) (fun _ => rfl) h
theorem ckData : Statement .ckData := fun _ h => of_cmdWord (fun _ => rfl) (fun _ => rfl) h
theorem ckText : Statement .ckText := fun _ h => of_cmdWord (fun _ => rfl) (fun _ => rfl) h
theorem ctParse : Statement .ctParse := fun _ h => of_cmdWord (fun _ => rfl) (fun _ => rfl) h
theorem ctSer : Statement .ctSer := fun _ h => of_cmdWord (fun _ => rfl) (fun _ => rfl) h
theorem ctAppend : Statement .ctAppend := fun _ h => of_cmdWord (fun _ => rfl) (fun _ => rfl) h
theorem ctInsert (pos : Word) : Statement (.ctInsert pos) := fun _ h => of_cmdWord (fun _ => rfl) (fun h => absurd (by decide) h) h
theorem ctFind (tc pos : Word) : Statement (.ctFind tc pos) := fun _ h => of_cmdWord (fun h => absurd (by decide) h) (fun h => absurd (by decide) h) h
theorem ctGet (pos : Word) : Statement (.ctGet pos) := fun _ h => of_cmdWord (fun _ => rfl) (fun h => absurd (by decide) h) h
theorem ctRemove (tc : Word) : Statement (.ctRemove tc) := fun _ h => of_cmdWord (fun h => absurd (by decide) h) (fun _ => rfl) h
theorem ctList : Statement .ctList := fun _ h => of_cmdWord (fun _ => rfl) (fun _ => rfl) h
theorem ctCount : Statement .ctCount := fun _ h => of_cmdWord (fun _ => rfl) (fun _ => rfl) h
theorem signature : Statement .signature := fun _ h => by cases h
theorem chunk (ty : Word) (data : List Byte) (crc : Word) : Statement (.chunk ty data crc) := fun _ h => by cases h
theorem token (eob : Bool) (data : Byte) : Statement (.token eob data) := fun _ h => by cases h
theorem rsp (r : Rsp) : Statement (.rsp r) := fun _ h => by cases h
theorem undefinedOp (op : Byte) : Statement (.undefinedOp op) := fun _ h => of_cmdWord (fun _ => rfl) (fun _ => rfl) h

end Sys2Proof.Laws.UnusedFieldsAreZero
end

