-- ==== Sys2Proof/Tests/Slice0.lean ====
section
/-! SUPPORT. The model's own tests. Expected values come from spec/95_test_vectors.md, named in each comment, or from the
encodings of 30_encoding.md written out; the witnesses show that the hypotheses of the statements can be met. -/

namespace Sys2Proof.Tests

open Sys2Proof.Machine

/-! ## Helpers -/

/-- The outcome is a next state with the property. -/
def check (o : Result) (p : State → Bool) : Bool :=
  match o with
  | .next t => p t
  | .fault _ => false
  | .refused _ => false

def iend : Chunk := { ty := 0x49454E44#32, data := [] }
def idat : Chunk := { ty := 0x49444154#32, data := [0x78, 0xDA, 0x63, 0x60, 0x00, 0x00, 0x00, 0x02, 0x00, 0x01] }
def ihdr : Chunk := { ty := 0x49484452#32, data := [0x00, 0x00, 0x00, 0x01, 0x00, 0x00, 0x00, 0x01, 0x08, 0x00, 0x00, 0x00, 0x00] }
def rust : Chunk := { ty := 0x72755374#32, data := [0x68, 0x65, 0x6C, 0x6C, 0x6F] }
def png : List Chunk := [ihdr, idat, iend]

/-- An idle block holding a container and a chunk. -/
def holding (cont : Option (List Chunk)) (ck : Option Chunk) : State := { State.reset with cont := cont, ck := ck }

/-- The start state of 95_test_vectors.md section 8. -/
def start : State := holding (some png) (some rust)

/-- A block in a phase of a running command. -/
def running (op : Byte) (ph : Phase) : State := { State.reset with op := op, ph := ph }

/-- One response, as its word, was given and the phase is `IDLE`. -/
def answers (t : State) (w : RspWord) : Bool := t.rsp.map rspWord == [w] && t.ph == .idle

/-! ## Well-formedness: an ill-formed term for each check -/

/-- 0x20 is `CK_MAKE`, no undefined opcode (30_encoding.md R102). -/
theorem test_wf_undefined_op : (Instr.undefinedOp 0x20#8).wellFormed = false := by decide

/-- `OK` carries no sub-cause (60_exceptions.md R308). -/
theorem test_wf_sub_cause : (Instr.rsp { st := .ok, sub := 1, idx := 0, off := 0, val := 0 }).wellFormed = false := by decide

/-- The checksum of the empty `IEND` chunk ends in 82 (V2.7). -/
theorem test_wf_chunk_crc : (Instr.chunk 0x49454E44#32 [] 0xAE426083#32).wellFormed = false := by decide +kernel

/-- A payload above `MAX_LEN` is no chunk (30_encoding.md R99). -/
theorem test_wf_chunk_length (ty crc : Word) (data : List Byte) (h : 2147483647 < data.length) :
    (Instr.chunk ty data crc).wellFormed = false := by
  have : ¬ data.length ≤ Config.maxLen := by simp only [Config.maxLen]; omega
  simp [Instr.wellFormed, this]

/-! ## Decoding: words written out from 30_encoding.md R100 to R102, R91, R92 and 10_state.md R42 -/

theorem test_decode_nop : decode (.cmd 0x000000000000000000#72) = .ok .nop := by decide
theorem test_decode_crcCalc : decode (.cmd 0x010000000000000000#72) = .ok .crcCalc := by decide
theorem test_decode_tyCheck : decode (.cmd 0x105275537400000007#72) = .ok (.tyCheck 0x52755374#32) := by decide
theorem test_decode_tyProps : decode (.cmd 0x115275537400000000#72) = .ok (.tyProps 0x52755374#32) := by decide
theorem test_decode_ckMake : decode (.cmd 0x207275537400000000#72) = .ok (.ckMake 0x72755374#32) := by decide
theorem test_decode_ckParse : decode (.cmd 0x210000000000000000#72) = .ok .ckParse := by decide
theorem test_decode_ckSer : decode (.cmd 0x220000000000000000#72) = .ok .ckSer := by decide
theorem test_decode_ckType : decode (.cmd 0x230000000000000000#72) = .ok .ckType := by decide
theorem test_decode_ckLen : decode (.cmd 0x240000000000000000#72) = .ok .ckLen := by decide
theorem test_decode_ckCrc : decode (.cmd 0x250000000000000000#72) = .ok .ckCrc := by decide
theorem test_decode_ckData : decode (.cmd 0x260000000000000000#72) = .ok .ckData := by decide
theorem test_decode_ckText : decode (.cmd 0x270000000000000000#72) = .ok .ckText := by decide
theorem test_decode_ctParse : decode (.cmd 0x300000000000000000#72) = .ok .ctParse := by decide
theorem test_decode_ctSer : decode (.cmd 0x310000000000000000#72) = .ok .ctSer := by decide
theorem test_decode_ctAppend : decode (.cmd 0x320000000000000000#72) = .ok .ctAppend := by decide
theorem test_decode_ctInsert : decode (.cmd 0x330000000000000002#72) = .ok (.ctInsert 2#32) := by decide
theorem test_decode_ctFind : decode (.cmd 0x3449454E4400000001#72) = .ok (.ctFind 0x49454E44#32 1#32) := by decide
theorem test_decode_ctGet : decode (.cmd 0x350000000000000003#72) = .ok (.ctGet 3#32) := by decide
theorem test_decode_ctRemove : decode (.cmd 0x367275537400000000#72) = .ok (.ctRemove 0x72755374#32) := by decide
theorem test_decode_ctList : decode (.cmd 0x370000000000000000#72) = .ok .ctList := by decide
theorem test_decode_ctCount : decode (.cmd 0x380000000000000000#72) = .ok .ctCount := by decide

/-- One past `CT_COUNT` and one past `CK_TEXT` (95_test_vectors.md section 8, system-level). -/
theorem test_decode_undefinedOp :
    decode (.cmd 0x390000000000000000#72) = .ok (.undefinedOp 0x39#8)
    ∧ decode (.cmd 0x28FFFFFFFF00000009#72) = .ok (.undefinedOp 0x28#8) := by decide

/-- Bit 8 is `eob` (R100); its data bits are ignored by the meaning. -/
theorem test_decode_token :
    decode (.tok 0x0AE#9) = .ok (.token false 0xAE#8) ∧ decode (.tok 0x1AE#9) = .ok (.token true 0xAE#8) := by decide

theorem test_decode_signature :
    decode (.stream [0x89, 0x50, 0x4E, 0x47, 0x0D, 0x0A, 0x1A, 0x0A]) = .ok .signature := by decide

/-- The bytes of `RUST` (V4.2). -/
theorem test_decode_chunk :
    decode (.stream [0x00, 0x00, 0x00, 0x05, 0x72, 0x75, 0x53, 0x74, 0x68, 0x65, 0x6C, 0x6C, 0x6F, 0xAE, 0x50, 0x8D, 0x6F])
      = .ok (.chunk 0x72755374#32 [0x68, 0x65, 0x6C, 0x6C, 0x6F] 0xAE508D6F#32) := by decide +kernel

/-- The response of V6.16. -/
theorem test_decode_rsp : decode (.rsp 0x820300000001000000000000002100000000#144)
    = .ok (.rsp { st := .malformedChunk, sub := 3, idx := 1, off := 33, val := 0 }) := by decide

/-- What the decoder refuses, by name: a code that is no status, a sub-cause of none, a chunk cut short (V4.13), one with a
length above `MAX_LEN` (V4.11), one with a wrong CRC (V4.14), and bytes after the element. -/
theorem test_decode_refuses :
    decode (.rsp 0x020000000000000000000000000000000000#144) = .error .unknownStatus
    ∧ decode (.rsp 0x820400000000000000000000000000000000#144) = .error .badSubCause
    ∧ decode (.stream [0x00, 0x00, 0x00, 0x00, 0x49, 0x45, 0x4E, 0x44, 0xAE, 0x42, 0x60]) = .error .streamTruncated
    ∧ decode (.stream [0x80, 0x00, 0x00, 0x00, 0x49, 0x45, 0x4E, 0x44, 0xAE, 0x42, 0x60, 0x82]) = .error .streamLengthTooLarge
    ∧ decode (.stream [0x00, 0x00, 0x00, 0x00, 0x49, 0x45, 0x4E, 0x44, 0xAE, 0x42, 0x60, 0x83]) = .error .streamCrcMismatch
    ∧ decode (.stream [0x89, 0x50, 0x4E, 0x47, 0x0D, 0x0A, 0x1A, 0x0A, 0x00]) = .error .streamTrailing := by decide +kernel

/-! ## One step of each instruction -/

/-- `NOP` (95_test_vectors.md section 8, system-level). -/
theorem test_nop : check (exec .nop start) (fun t => answers t 0#144 && t.cont == start.cont && t.ck == start.ck) = true := by decide

/-- Opcode `0x7F` (95_test_vectors.md section 8, system-level; P3 step 14). -/
theorem test_undefinedOp :
    check (exec (.undefinedOp 0x7F#8) start) (fun t => answers t 0xC5000000000000000000000000000000007F#144) = true := by decide

/-- `CRC_CALC` is accepted with the initial register, and the byte `61` gives the raw register of V2.2. -/
theorem test_crcCalc : check (exec .crcCalc start) (fun t => t.ph == .load && t.crc == 0xFFFFFFFF#32 && t.cont == start.cont) = true := by
  decide

/-- A byte of `CRC_CALC`; and one that `off` cannot count: the failure reports no chunk, beside a container and stale `stg`
(40_crc.md R140). -/
theorem test_crcCalc_byte :
    check (exec (.token false 0x61#8) { running 0x01#8 .load with crc := 0xFFFFFFFF#32 })
      (fun t => t.crc == 0x174841BC#32 && t.off == 1) = true
    ∧ check (exec (.token false 0x61#8) { running 0x01#8 .load with cont := some png, stg := png, off := 0xFFFFFFFFFFFFFFFF#64 })
      (fun t => t.perr.any (fun e => e.st == .capacityExceeded && e.idx == 0) && t.ph == .drain) = true := by decide

/-- The check value V2.3, at the function level of `CRC_CALC` (V2.31). -/
theorem test_crcCalc_check_value :
    rspWord (fnCrcCalc start.arch [0x31, 0x32, 0x33, 0x34, 0x35, 0x36, 0x37, 0x38, 0x39]).rsp
      = 0x0000000000000000000000000009CBF43926#144 := by decide +kernel

/-- V3.2 and V3.3. -/
theorem test_tyCheck :
    check (exec (.tyCheck 0x52753174#32) start) (fun t => answers t 0x830100000000000000000000000000000000#144) = true
    ∧ check (exec (.tyCheck 0x52756174#32) start) (fun t => answers t 0x830200000000000000000000000000000000#144) = true := by decide

/-- V3.1. -/
theorem test_tyCheck_ok : check (exec (.tyCheck 0x52755374#32) start) (fun t => answers t 0#144) = true := by decide

/-- V3.1, V3.5, V3.6, V3.14. -/
theorem test_tyProps :
    check (exec (.tyProps 0x52755374#32) start) (fun t => answers t 0x2F#144) = true
    ∧ check (exec (.tyProps 0x72755374#32) start) (fun t => answers t 0x27#144) = true
    ∧ check (exec (.tyProps 0x49484452#32) start) (fun t => answers t 0x1F#144) = true
    ∧ check (exec (.tyProps 0x415A617A#32) start) (fun t => answers t 0x3A#144) = true := by decide

/-- `CK_MAKE "IEND"`: the raw register after the type (V2.7's trace), `ck` empty. -/
theorem test_ckMake : check (exec (.ckMake 0x49454E44#32) start)
    (fun t => t.ph == .load && t.crc == 0x51BD9F7D#32 && t.ck == none && t.cont == start.cont) = true := by decide +kernel

/-- V4.1, at the function level. -/
theorem test_ckMake_rsp :
    rspWord (fnCkMake start.arch 0x72755374#32 rust.data).rsp = 0x0000000000000000000000000005AE508D6F#144 := by decide +kernel

/-- `CK_PARSE` starts in `LEN` with `ck` empty (TR4). -/
theorem test_ckParse : check (exec .ckParse start) (fun t => t.ph == .len && t.ck == none && t.cont == start.cont) = true := by decide

/-- V4.7 (bytes after the chunk are ignored) and V4.14, at the function level. -/
theorem test_ckParse_rsp :
    rspWord (fnCkParse start.arch [0x00, 0x00, 0x00, 0x00, 0x49, 0x45, 0x4E, 0x44, 0xAE, 0x42, 0x60, 0x82, 0xFF, 0xEE]).rsp
      = 0x000000000000000000000000000CAE426082#144
    ∧ rspWord (fnCkParse start.arch [0x00, 0x00, 0x00, 0x00, 0x49, 0x45, 0x4E, 0x44, 0xAE, 0x42, 0x60, 0x83]).rsp
      = 0x820300000000000000000000000000000000#144 := by decide +kernel

/-- V4.18: `NoChunk` with one `EOB`. -/
theorem test_ckSer_none :
    check (exec .ckSer State.reset) (fun t => answers t 0xC20000000000000000000000000000000000#144 && t.dout == [0x100#9]) = true := by
  decide

/-- `CK_SER` of `RUST` begins with its length field, `tc` being its type code (10_state.md R34). -/
theorem test_ckSer_start : check (exec .ckSer start) (fun t => t.ph == .sLen && t.tc == 0x72755374#32) = true := by decide

/-- V4.2: the bytes of `RUST`. -/
theorem test_ckSer_bytes : serChunk rust
    = [0x00, 0x00, 0x00, 0x05, 0x72, 0x75, 0x53, 0x74, 0x68, 0x65, 0x6C, 0x6C, 0x6F, 0xAE, 0x50, 0x8D, 0x6F] := by decide +kernel

/-- V4.19. -/
theorem test_ckType : check (exec .ckType start) (fun t => answers t 0x72755374#144) = true := by decide
theorem test_ckLen : check (exec .ckLen start) (fun t => answers t 5#144) = true := by decide
theorem test_ckCrc : check (exec .ckCrc start) (fun t => answers t 0xAE508D6F#144) = true := by decide +kernel

/-- V4.17. -/
theorem test_ckType_none : check (exec .ckType State.reset) (fun t => answers t 0xC20000000000000000000000000000000000#144) = true := by
  decide

/-- V4.20: `CK_DATA` starts to emit the payload; V4.23: nothing to emit. -/
theorem test_ckData : check (exec .ckData start) (fun t => t.ph == .sRaw && t.off == 0 && t.ck == some rust) = true := by decide
theorem test_ckData_empty : check (exec .ckData (holding none (some iend))) (fun t => t.ph == .sEob) = true := by decide

/-- V4.22: the payload `FF` is no text. -/
theorem test_ckText : check (exec .ckText (holding none (some { ty := 0x74455874#32, data := [0xFF] })))
    (fun t => answers t 0x850000000000000000000000000000000000#144 && t.dout == [0x100#9]) = true := by decide

/-- More cases of `TextValid` (95_test_vectors.md section 4, end). -/
theorem test_ckText_utf8 :
    [[], [0x7F], [0xC2, 0x80], [0xE0, 0xA0, 0x80], [0xED, 0x9F, 0xBF], [0xEF, 0xBF, 0xBF], [0xF0, 0x90, 0x80, 0x80],
      [0xF4, 0x8F, 0xBF, 0xBF]].all (textValid .utf8) = true
    ∧ [[0x80], [0xC0, 0x80], [0xC1, 0xBF], [0xE0, 0x9F, 0xBF], [0xED, 0xA0, 0x80], [0xF0, 0x8F, 0xBF, 0xBF],
      [0xF4, 0x90, 0x80, 0x80], [0xF5, 0x80, 0x80, 0x80], [0xE2, 0x82], [0x68, 0xC3]].any (textValid .utf8) = false := by decide

/-- TR1, acceptance. -/
theorem test_ctParse : check (exec .ctParse start)
    (fun t => t.ph == .sig && t.cont == none && t.stg == [] && t.off == 0 && t.ck == start.ck) = true := by decide

/-- V6.5, V6.8, V6.9, V6.13, at the function level. -/
theorem test_ctParse_rsp :
    rspWord (fnCtParse start.arch []).rsp = 0x810100000000000000000000000000000000#144
    ∧ rspWord (fnCtParse start.arch [0x89, 0x51]).rsp = 0x810200000000000000000000000000000000#144
    ∧ rspWord (fnCtParse start.arch (Config.sig ++ [0xFF, 0xFF, 0xFF, 0xFF, 0x49, 0x44, 0x41, 0x54, 0x01, 0x02, 0x03])).rsp
      = 0x820200000000000000000000000800000000#144
    ∧ rspWord (fnCtParse start.arch (Config.sig ++ [0x00])).rsp = 0x820100000000000000000000000800000000#144 := by decide +kernel

/-- V6.30: `NoContainer` with one `EOB`; V6.32: `SIG ++ IENDC`. -/
theorem test_ctSer_none :
    check (exec .ctSer State.reset) (fun t => answers t 0xC10000000000000000000000000000000000#144 && t.dout == [0x100#9]) = true := by
  decide
theorem test_ctSer_bytes : serialize [iend] = [0x89, 0x50, 0x4E, 0x47, 0x0D, 0x0A, 0x1A, 0x0A,
    0x00, 0x00, 0x00, 0x00, 0x49, 0x45, 0x4E, 0x44, 0xAE, 0x42, 0x60, 0x82] := by decide +kernel

/-- V8.1, V8.19. -/
theorem test_ctAppend : check (exec .ctAppend start)
    (fun t => answers t 0x000000000003000000000000000000000004#144 && t.cont == some [ihdr, idat, iend, rust]
      && t.ck == some rust) = true := by decide
theorem test_ctAppend_none :
    check (exec .ctAppend State.reset) (fun t => answers t 0xC10000000000000000000000000000000000#144) = true := by decide

/-- V8.3, V8.5 (the largest position). -/
theorem test_ctInsert : check (exec (.ctInsert 2) start)
    (fun t => answers t 0x000000000002000000000000000000000004#144 && t.cont == some [ihdr, idat, rust, iend]) = true := by decide
theorem test_ctInsert_bad : check (exec (.ctInsert 4294967295) start)
    (fun t => answers t 0xC30000000003000000000000000000000000#144 && t.cont == some png) = true := by decide

/-- V8.8 (the third), V8.6. -/
theorem test_ctFind : check (exec (.ctFind 0x49444154#32 1) start)
    (fun t => answers t 0x000000000001000000000000000A00000000#144) = true := by decide
theorem test_ctFind_none : check (exec (.ctFind 0x49444154#32 2) start)
    (fun t => answers t 0x010000000003000000000000000000000000#144) = true := by decide

/-- V8.10, V8.11. -/
theorem test_ctGet : check (exec (.ctGet 0) start)
    (fun t => answers t 0x000000000000000000000000000D49484452#144 && t.ck == some ihdr && t.cont == some png) = true := by decide
theorem test_ctGet_bad : check (exec (.ctGet 3) start)
    (fun t => answers t 0xC30000000003000000000000000000000000#144 && t.ck == some rust) = true := by decide

/-- V8.13, V8.12. -/
theorem test_ctRemove : check (exec (.ctRemove 0x49444154#32) start)
    (fun t => answers t 0x000000000001000000000000000A00000002#144 && t.cont == some [ihdr, iend] && t.ck == some idat) = true := by
  decide
theorem test_ctRemove_none : check (exec (.ctRemove 0x72755374#32) start)
    (fun t => answers t 0x840000000003000000000000000000000003#144 && t.cont == some png && t.ck == some rust) = true := by decide

/-- V8.14: the bytes of the type codes; V8.20: nothing to emit. -/
theorem test_ctList : check (exec .ctList start) (fun t => t.ph == .sRaw) = true
    ∧ typeBytes png = [0x49, 0x48, 0x44, 0x52, 0x49, 0x44, 0x41, 0x54, 0x49, 0x45, 0x4E, 0x44] := by decide
theorem test_ctList_empty : check (exec .ctList (holding (some []) none)) (fun t => t.ph == .sEob) = true := by decide

/-- V8.14, V8.20. -/
theorem test_ctCount : check (exec .ctCount start) (fun t => answers t 0x000000000003000000000000000000000003#144) = true := by decide
theorem test_ctCount_empty : check (exec .ctCount (holding (some []) none)) (fun t => answers t 0#144) = true := by decide

/-- TR1: the fourth length byte `00` of `80 00 00 00`. -/
theorem test_token_length : check (exec (.token false 0x00#8)
      { running 0x30#8 .len with cnt := 3, len := 0x00800000#32, off := 11, cstart := 8 })
    (fun t => t.ph == .drain && t.off == 12
      && t.perr == some { st := .malformedChunk, sub := 2, idx := 0, off := 8 }) = true := by decide

/-- TR1: the `EOB` after it (with any data bits). -/
theorem test_token_eob : check (exec (.token true 0xFF#8)
      { running 0x30#8 .drain with perr := some { st := .malformedChunk, sub := 2, idx := 0, off := 8 } })
    (fun t => answers t 0x820200000000000000000000000800000000#144) = true := by decide

/-- TR1: the eight signature bytes lead to `LEN` at offset 8. -/
theorem test_signature : check (exec .signature (running 0x30#8 .sig)) (fun t => t.ph == .len && t.off == 8 && t.cstart == 8) = true := by
  decide

/-- The same chunk goes to `ck` in `CK_PARSE` (TR4). -/
theorem test_chunk_ck : check (exec (.chunk 0x49454E44#32 [] 0xAE426082#32) (running 0x21#8 .len))
    (fun t => t.ph == .trail && t.ck == some iend && t.cend == 12) = true := by decide +kernel

/-- V6.2's chunk is staged; with the CRC of V6.15 it fails at offset 8. -/
theorem test_chunk : check (exec (.chunk 0x49454E44#32 [] 0xAE426082#32) { running 0x30#8 .len with off := 8, cstart := 8 })
    (fun t => t.ph == .len && t.stg == [iend] && t.off == 20 && t.cstart == 20) = true := by decide +kernel
theorem test_chunk_bad : check (exec (.chunk 0x49454E44#32 [] 0xAE426083#32) { running 0x30#8 .len with off := 8, cstart := 8 })
    (fun t => t.ph == .drain && t.perr == some { st := .malformedChunk, sub := 3, idx := 0, off := 8 }) = true := by decide +kernel

/-- A response ends the running command. -/
theorem test_rsp : check (exec (.rsp { st := .notFound, sub := 0, idx := 3, off := 0, val := 0 }) (running 0x21#8 .drain))
    (fun t => answers t 0x010000000003000000000000000000000000#144) = true := by decide

/-- TR6: the first byte of the signature is put on `DOUT`. -/
theorem test_emit : check (step { running 0x31#8 .sSig with cont := some [] }) (fun t => t.dout == [0x089#9] && t.cnt == 1) = true := by
  decide

/-- After the last byte of the signature the first chunk begins, and `tc` is its type code (10_state.md R34). -/
theorem test_emit_begins_chunk : check (step { running 0x31#8 .sSig with cont := some png, cnt := 7, off := 7 })
    (fun t => t.ph == .sLen && t.cnt == 0 && t.tc == 0x49484452#32) = true := by decide

/-- TR6: the `EOB` and the response. -/
theorem test_emit_eob : check (step { running 0x31#8 .sEob with cont := some [], off := 8 })
    (fun t => t.dout == [0x100#9] && answers t 0x000000000000000000000000000800000000#144) = true := by decide

/-- A command word placed after reset is decoded and run by the next step (P3 step 1). -/
theorem test_withFetchWord : check (step (State.reset.withFetchWord 72 0x380000000000000000))
    (fun t => answers t 0xC10000000000000000000000000000000000#144) = true := by decide

/-- The host's moves: a command sent is the one run, and its response is what the host takes. -/
theorem test_host : check (step (State.reset.sendCommand 0#72)) (fun t => t.takeResponse.map (fun p => rspWord p.1) == some 0#144) = true := by
  decide

/-- The pseudo-instructions: P4 steps 2 to 5 (`FIND_ALL`), P2 steps 2 to 4 and 7 to 8 (`APPEND_BEFORE`, `REMOVE`). -/
theorem test_find_all :
    recordedPositions (pseudoFindAll (holding (some [rust, iend, rust, rust]) none).arch 0x72755374#32) = [0, 2, 3]
    ∧ (pseudoFindAll (holding (some [rust, iend, rust, rust]) none).arch 0x72755374#32).length = 4 := by decide
theorem test_append_before :
    (pseudoAppendBefore (holding (some png) none).arch 0x49454E44#32 0x72755374#32 rust.data).map (fun x => rspWord x.rsp)
      = [0x0000000000000000000000000005AE508D6F#144, 0x000000000002000000000000000000000000#144,
        0x000000000002000000000000000000000004#144] := by decide +kernel
theorem test_remove :
    (pseudoRemove (holding (some [ihdr, idat, rust, iend]) none).arch 0x72755374#32).map (fun x => (rspWord x.rsp, x.out))
      = [(0x000000000002000000000000000500000003#144, none), (0x000000000000000000000000000500000000#144, some rust.data)] := by
  decide

/-! ## Witnesses: concrete states and operands that meet the hypotheses of a statement, at the boundary values of each clause -/

/-- An `EOB` word whose data bits are not 0 (30_encoding.md R100). -/
def eobOnes : TokWord := 0x1FF#9

/-- A state whose `DIN` holds a buffer, its `EOB` and one more word. -/
def fed (buf : List Byte) : State := { start with din := buf.map (fun b => tokWord (.b b)) ++ eobOnes :: [0x000#9] }

/-- In the middle of a parse, the first byte of a payload of two taken. -/
def midData : State :=
  { running 0x30#8 .data with len := 2, cnt := 1, pbuf := [0x68], stg := [iend], off := 29, cstart := 20, din := [0x169#9, 0x069#9] }

/-- In the middle of `CT_SER`, at the last byte of a CRC field. -/
def midEmit : State := { running 0x31#8 .sCrc with cont := some png, sidx := 2, tc := 0x49454E44#32, cnt := 3, off := 8 }

theorem witness_HasBuffer (buf : List Byte) : HasBuffer (fed buf) buf [0x000#9] := ⟨eobOnes, by decide, rfl⟩

/-- The empty buffer, one of five bytes, and one that `off` cannot count; `CkMakeRuns`, `CkParseRuns` and `CtParseRuns` have the
same hypothesis. -/
theorem witness_CrcCalcRuns :
    HasBuffer (fed []) [] [0x000#9] ∧ HasBuffer (fed rust.data) rust.data [0x000#9]
    ∧ HasBuffer (fed (List.replicate (2 ^ 64) 0#8)) (List.replicate (2 ^ 64) 0#8) [0x000#9]
    ∧ ¬ (List.replicate (2 ^ 64) 0#8).length < 2 ^ 64 :=
  ⟨witness_HasBuffer _, witness_HasBuffer _, witness_HasBuffer _, by rw [List.length_replicate]; exact Nat.lt_irrefl _⟩

theorem witness_DecodeEncodeRoundTrip :
    (Instr.undefinedOp 0xFF#8).wellFormed = true ∧ (Instr.ctFind 0xFFFFFFFF#32 0xFFFFFFFF#32).wellFormed = true
    ∧ (Instr.rsp { st := .malformedChunk, sub := 3, idx := 0xFFFFFFFF#32, off := 0, val := 0 }).wellFormed = true
    ∧ (Instr.token true 0xFF#8).wellFormed = true ∧ Instr.signature.wellFormed = true
    ∧ (Instr.chunk 0x49454E44#32 [] 0xAE426082#32).wellFormed = true := by decide +kernel

/-- An undefined opcode and the largest defined one. -/
theorem witness_EveryCommandWordDecodes :
    cmdOp 0x390000000000000000#72 ∉ definedOps ∧ cmdOp 0x380000000000000000#72 ∈ definedOps := by decide

/-- Words that differ in unused fields only: `NOP` in both, `CK_MAKE` in `pos`, `CT_GET` in `tc`, an undefined opcode in both. -/
theorem witness_UnusedFieldsAreIgnored :
    [(0x000000000000000000#72, 0x00FFFFFFFFFFFFFFFF#72), (0x207275537400000000#72, 0x2072755374FFFFFFFF#72),
      (0x350000000000000003#72, 0x35FFFFFFFF00000003#72), (0x7F0000000000000000#72, 0x7F000000010000000A#72)].all
      (fun p : CmdWord × CmdWord => cmdOp p.1 == cmdOp p.2
        && (!(cmdOp p.1 ∈ [0x10#8, 0x11#8, 0x20#8, 0x34#8, 0x36#8]) || cmdTc p.1 == cmdTc p.2)
        && (!(cmdOp p.1 ∈ [0x33#8, 0x34#8, 0x35#8]) || cmdPos p.1 == cmdPos p.2)) = true
    ∧ start.ph = .idle ∧ cmdOp 0x0000000000000000#72 ∈ definedOps := by decide

theorem witness_StepRunsDecodedCommand :
    start.ph = .idle ∧ ({ start with cmd := [0x3449454E4400000001#72, 0#72] } : State).cmd = 0x3449454E4400000001#72 :: [0#72]
    ∧ decode (.cmd 0x3449454E4400000001#72) = .ok (.ctFind 0x49454E44#32 1#32) := by decide

/-- One state for each clause. -/
theorem witness_StepTakesOrEmitsOrWaits :
    (midData.ph.isInput = true ∧ midData.din = 0x169#9 :: [0x069#9] ∧ decode (.tok 0x169#9) = .ok (.token true 0x69#8))
    ∧ midEmit.ph.isEmitter = true ∧ (start.ph = .idle ∧ start.cmd = [])
    ∧ ((running 0x21#8 .trail).ph.isInput = true ∧ (running 0x21#8 .trail).din = []) := by decide

/-- A step that takes a token, one that puts a token, one that answers. -/
theorem witness_StepMovesChannelsInOrder :
    (∃ t, step midData = .next t ∧ t.din = [0x069#9] ∧ t.rsp ≠ midData.rsp)
    ∧ (∃ t, step midEmit = .next t ∧ t.dout ≠ midEmit.dout)
    ∧ ∃ t, step { start with cmd := [0#72] } = .next t ∧ t.cmd = [] :=
  ⟨⟨_, rfl, by decide, by decide⟩, ⟨_, rfl, by decide +kernel⟩, ⟨_, rfl, by decide⟩⟩

/-- `CT_APPEND` writes `cont`, `CT_GET` writes `ck`, and the `EOB` of a parse at a chunk boundary writes `cont`. -/
theorem witness_RegistersAreWrittenByTheirCommandsOnly :
    (∃ t, step { start with cmd := [0x320000000000000000#72] } = .next t ∧ t.cont ≠ start.cont)
    ∧ (∃ t, step { start with cmd := [0x350000000000000000#72] } = .next t ∧ t.ck ≠ start.ck)
    ∧ ∃ t, step { running 0x30#8 .len with stg := [iend], din := [eobOnes] } = .next t ∧ t.cont ≠ none :=
  ⟨⟨_, rfl, by decide⟩, ⟨_, rfl, by decide⟩, ⟨_, rfl, by decide⟩⟩

/-- The invariant in the middle of a parse, with a step from there. -/
theorem witness_StepKeepsInvariant : midData.Inv ∧ ∃ t, step midData = .next t :=
  ⟨{ store := ⟨fun _ h => by simp [midData, running, State.reset] at h,
       fun _ h => by simp [midData, running, State.reset] at h, by decide⟩
     dout := fun _ h => by simp [midData, running, State.reset] at h
     used := by decide
     phase := by
       refine ⟨⟨by decide, by decide, ⟨?_, by decide⟩, by decide⟩, by unfold LengthOk; decide, by decide, by decide⟩
       intro c hc
       obtain rfl : c = iend := by simpa [midData] using hc
       unfold ChunkOk; decide }, _, rfl⟩

/-- The same for a state that emits. -/
theorem witness_InvariantStateNeverStops : midEmit.Inv :=
  { store := ⟨by
      intro cs hcs
      obtain rfl : cs = png := by simpa [midEmit] using hcs.symm
      refine ⟨?_, by decide⟩
      unfold ChunkOk; decide, fun _ h => by simp [midEmit, running, State.reset] at h, by decide⟩
    dout := fun _ h => by simp [midEmit, running, State.reset] at h
    used := by decide
    phase := ⟨iend, by decide, by decide, by decide⟩ }

/-- Two idle blocks that differ in every working register, and a run of one step. -/
theorem witness_StaleRegistersAreNeverSeen :
    start.ph = .idle
    ∧ SameVisible start { start with op := 0x30#8, crc := 1, len := 2, tc := 3, rxcrc := 4, cnt := 5, off := 6, cstart := 7, cend := 8,
                                     pbuf := [9], stg := [iend], perr := some { st := .ok, sub := 0, idx := 0, off := 0 }, sidx := 10 }
    ∧ RunsTo 1 { start with cmd := [0#72] } (State.answered start 0x00#8 { st := .ok, sub := 0, idx := 0, off := 0, val := 0 }) :=
  ⟨rfl, ⟨rfl, rfl, rfl, rfl, rfl, rfl, rfl, rfl⟩, rfl⟩

/-- Both registers empty, and one of them with the other held. -/
theorem witness_EmptyBlockAnswers :
    (State.reset.cont = none ∧ State.reset.ck = none) ∧ ((holding (some png) none).ck = none ∧ (holding (some png) none).cont = some png)
    ∧ (holding none (some rust)).cont = none := by decide

theorem witness_NopAndUndefinedOpcodeAnswer :
    start.ph = .idle ∧ ({ start with cmd := [0xFF0000000000000000#72] } : State).cmd = [0xFF0000000000000000#72]
    ∧ cmdOp 0xFF0000000000000000#72 ∉ definedOps := by decide

/-- The hypotheses of `CkSerRuns` and `CkDataRuns`, with a payload and with none. -/
theorem witness_CkSerRuns :
    (start.ck = some rust ∧ ChunkOk rust) ∧ ((holding none (some iend)).ck = some iend ∧ ChunkOk iend) := by
  unfold ChunkOk; decide

/-- Both sides of `CkTextRuns`: valid text, and the byte `FF`. -/
theorem witness_CkTextRuns :
    (start.ck = some rust ∧ ChunkOk rust ∧ textValid start.params.text rust.data = true)
    ∧ ((holding none (some { ty := 0x74455874#32, data := [0xFF] })).ck = some { ty := 0x74455874#32, data := [0xFF] }
      ∧ ChunkOk { ty := 0x74455874#32, data := [0xFF] } ∧ textValid .utf8 [0xFF] = false) := by
  unfold ChunkOk; decide

theorem witness_DefaultTextIsWellFormedUtf8 : textValid .utf8 [0xC2, 0x80, 0x68] = true := by decide

/-- The hypothesis of the first clause at its largest length, and a buffer of the second. -/
theorem witness_ParseChunkByCases :
    ([0x00, 0x00, 0x00] : List Byte).length < 4 ∧ parseChunk [0x00, 0x00, 0x00] 0 = .fail .malformedChunk 1
    ∧ parseChunk [0x7F, 0xFF, 0xFF, 0xFF] 0 = .fail .malformedChunk 1
    ∧ parseChunk [0x80, 0x00, 0x00, 0x00] 0 = .fail .malformedChunk 2 := by decide

theorem witness_ChunkRoundTrip :
    ChunkOk rust ∧ parseChunk (serChunk iend ++ [0xFF]) 0 = .ok iend 12 :=
  ⟨by unfold ChunkOk; decide, by decide +kernel⟩

/-- `IEND` with its third byte damaged, at `before` = the first two. -/
theorem witness_DamagedChunkIsRefused :
    ChunkOk iend ∧ (0x4E#8 ≠ 0x4F#8)
    ∧ be32 iend.ty ++ iend.data = [0x49, 0x45] ++ 0x4E#8 :: [0x44]
    ∧ be32 0x49454F44#32 ++ [] = [0x49, 0x45] ++ 0x4F#8 :: [0x44]
    ∧ 0xAE426083#32 ≠ chunkCrc iend :=
  ⟨by unfold ChunkOk; decide, by decide, by decide, by decide, by decide +kernel⟩

theorem witness_LoadersFollowTheRules :
    start.arch.params.capBytes = none ∧ start.arch.params.capChunks = 0xFFFFFFFF#32 ∧ Config.sig.length < 2 ^ 32 := by decide

/-- A differing byte at the last place, a prefix of seven bytes, and the signature alone. -/
theorem witness_ParseTestsTheSignatureFirst :
    (∃ k, k < 8 ∧ k < (Config.sig.take 7 ++ [0x0D]).length ∧ (Config.sig.take 7 ++ [0x0D])[k]? ≠ Config.sig[k]?)
    ∧ ((∀ k, k < 8 → k < (Config.sig.take 7).length → (Config.sig.take 7)[k]? = Config.sig[k]?) ∧ (Config.sig.take 7).length < 8)
    ∧ Config.sig = Config.sig ++ [] :=
  ⟨⟨7, by decide, by decide, by decide⟩, by decide, by decide⟩

/-- The hypotheses of `CtSerRuns` and `CtListRuns`, and the chunk lists of `ContainerRoundTrip`. -/
theorem witness_CtSerRuns : start.cont = some png ∧ ListOk start.params png := by
  refine ⟨rfl, ?_, by decide⟩
  unfold ChunkOk; decide

theorem witness_ContainerRoundTrip : (∀ c ∈ png, ChunkOk c) ∧ parse (serialize [iend]) = .ok [iend] :=
  ⟨by unfold ChunkOk; decide, by decide +kernel⟩

theorem witness_FindAllGivesEveryMatch : start.arch.cont = some png ∧ png.length < 2 ^ 32 := by decide

theorem witness_SerializeLength : png.length < 2 ^ 32 ∧ ∀ c ∈ png, c.data.length ≤ 2 ^ 31 - 1 := by decide

theorem witness_AppendIsInsertAtCount :
    (∀ cs, start.cont = some cs → (3#32).toNat = cs.length) ∧ ∀ cs, State.reset.cont = some cs → (0#32).toNat = cs.length :=
  ⟨fun cs h => by obtain rfl : png = cs := by simpa [start, holding] using h
                  decide, fun cs h => by simp [State.reset] at h⟩

/-- At the end of the sequence, and between two chunks. -/
theorem witness_RemoveUndoesInsert :
    (3 ≤ png.length ∧ ∀ d ∈ png.take 3, d.ty ≠ rust.ty) ∧ (1 ≤ png.length ∧ ∀ d ∈ png.take 1, d.ty ≠ iend.ty) := by decide

/-- A command that fails, and one that takes a buffer, at the function level. -/
theorem witness_StatusMatrix :
    (∃ x, transact (.ctGet 3) start.arch [] = some x ∧ x.rsp.st = .badPosition)
    ∧ (∃ x, transact .ckParse start.arch [0x00] = some x ∧ x.rsp.st = .malformedChunk)
    ∧ start.arch.params = Config.defaultParams ∧ ∀ cs, start.arch.cont = some cs → cs.length < 2 ^ 32 - 1 :=
  ⟨⟨_, rfl, by decide⟩, ⟨_, rfl, by decide⟩, by decide, fun cs h => by
    obtain rfl : png = cs := by simpa [start, holding, State.arch] using h
    decide⟩

/-- One failure of each kind the statement tells apart. -/
theorem witness_FailuresKeepTheOtherRegisters :
    (∃ x, transact .ctParse start.arch [] = some x ∧ x.rsp.st ≠ .ok)
    ∧ (∃ x, transact .ckParse start.arch [] = some x ∧ x.rsp.st ≠ .ok)
    ∧ (∃ x, transact .ckText (holding none none).arch [] = some x ∧ x.rsp.st ≠ .ok)
    ∧ ∃ x, transact (.ctFind 0 0) start.arch [] = some x ∧ x.rsp.st ≠ .ok :=
  ⟨⟨_, rfl, by decide⟩, ⟨_, rfl, by decide⟩, ⟨_, rfl, by decide⟩, ⟨_, rfl, by decide⟩⟩

/-- The last byte of the signature. -/
theorem witness_SigTokenStep : ∃ s : State, s.ph = .sig ∧ s.op = 0x30#8 ∧ s.cnt.toNat < 8 ∧ s.cnt = 7 ∧ s.off ≠ BitVec.allOnes 64 :=
  ⟨{ running 0x30#8 .sig with cnt := 7, off := 7 }, by decide⟩

theorem witness_LenTokenStep : ∃ s : State, s.ph = .len ∧ (s.op = 0x30#8 ∨ s.op = 0x21#8) ∧ s.cnt.toNat < 4 ∧ s.cnt = 3
    ∧ s.off ≠ BitVec.allOnes 64 ∧ s.params.capBytes = none :=
  ⟨{ running 0x21#8 .len with cnt := 3, off := 3, len := 0x00800000#32 }, by decide⟩

/-- The last type byte of an empty chunk, and the last payload byte. -/
theorem witness_TypeAndDataTokenStep :
    (∃ s : State, (s.op = 0x30#8 ∨ s.op = 0x21#8) ∧ s.off ≠ BitVec.allOnes 64 ∧ s.ph = .type ∧ s.cnt.toNat < 4 ∧ s.cnt = 3 ∧ s.len = 0)
    ∧ ∃ s : State, (s.op = 0x30#8 ∨ s.op = 0x21#8) ∧ s.off ≠ BitVec.allOnes 64 ∧ s.ph = .data ∧ s.cnt.toNat < s.len.toNat
      ∧ s.cnt.toNat + 1 = s.len.toNat :=
  ⟨⟨{ running 0x30#8 .type with cnt := 3 }, by decide⟩, ⟨midData, by decide⟩⟩

/-- The last byte of a matching CRC field, for each of the two commands, and of one that differs. -/
theorem witness_CrcTokenStep :
    [({ running 0x30#8 .crc with cnt := 3, rxcrc := 0x00AE4260#32, crc := ~~~0xAE426082#32 }, 0x82#8),
      ({ running 0x21#8 .crc with cnt := 3, rxcrc := 0x00AE4260#32, crc := ~~~0xAE426082#32 }, 0x82#8),
      ({ running 0x30#8 .crc with cnt := 3, rxcrc := 0x00AE4260#32, crc := ~~~0xAE426082#32 }, 0x83#8)].all
      (fun p : State × Byte => p.1.ph == .crc && (p.1.op == 0x30#8 || p.1.op == 0x21#8) && decide (p.1.cnt.toNat < 4)
        && p.1.off != BitVec.allOnes 64 && decide (p.1.stg.length < p.1.params.capChunks.toNat)
        && (((p.1.rxcrc <<< 8) ||| p.2.setWidth 32) == (p.1.crc ^^^ 0xFFFFFFFF#32)) == (p.2 == 0x82#8)) = true := by decide

/-- Room for one more byte, no room, and `CRC_CALC`. -/
theorem witness_LoadTokenStep :
    [{ running 0x20#8 .load with len := 2147483646 }, { running 0x20#8 .load with len := 2147483647 }, running 0x01#8 .load].all
      (fun s : State => s.ph == .load && s.params.capBytes == none && s.off != BitVec.allOnes 64
        && (s.op == 0x20#8 || s.op == 0x01#8)) = true := by decide

/-- One state for each clause, in its order. -/
theorem witness_EobTokenStep :
    ((running 0x30#8 .sig).ph = .sig ∧ (running 0x30#8 .sig).op = 0x30#8)
    ∧ ((running 0x30#8 .len).ph = .len ∧ (running 0x30#8 .len).op = 0x30#8 ∧ (running 0x30#8 .len).cnt = 0)
    ∧ ((running 0x21#8 .len).ph = .len ∧ (running 0x21#8 .len).op = 0x21#8)
    ∧ (({ running 0x30#8 .len with cnt := 1 } : State).cnt ≠ 0)
    ∧ (midData.ph = .data ∧ midData.op = 0x30#8)
    ∧ ((running 0x21#8 .trail).ph = .trail ∧ (running 0x21#8 .trail).op = 0x21#8)
    ∧ ((running 0x01#8 .drain).ph = .drain ∧ (running 0x01#8 .drain).op ∈ [0x30#8, 0x21#8, 0x20#8, 0x01#8]
      ∧ ({ running 0x01#8 .drain with perr := some { st := .capacityExceeded, sub := 0, idx := 0, off := 0 } } : State).perr
        = some { st := .capacityExceeded, sub := 0, idx := 0, off := 0 }) := by decide

theorem witness_IgnoredTokenStep :
    ((running 0x20#8 .drain).ph = .drain ∧ (running 0x20#8 .drain).op ∈ [0x30#8, 0x21#8, 0x20#8, 0x01#8])
    ∧ ((running 0x21#8 .trail).ph = .trail ∧ (running 0x21#8 .trail).op = 0x21#8)
    ∧ start.ph.isInput = false ∧ midEmit.ph.isInput = false := by decide

theorem witness_SignatureAndResponseElements :
    (running 0x30#8 .sig).ph = .sig ∧ (running 0x30#8 .sig).op = 0x30#8 ∧ (running 0x30#8 .sig).cnt = 0
    ∧ (running 0x30#8 .sig).off = 0 := by decide

/-- Both commands, and both cases of each: `IEND`'s checksum, and another value (V6.15). -/
theorem witness_ChunkElementIsStagedOrRefused :
    (∃ s : State, s.ph = .len ∧ s.cnt = 0 ∧ s.cstart = s.off ∧ s.params.capBytes = none
      ∧ s.off.toNat + 12 + iend.data.length < 2 ^ 64 ∧ s.op = 0x30#8 ∧ s.stg.length < s.params.capChunks.toNat)
    ∧ (∃ s : State, s.ph = .len ∧ s.cnt = 0 ∧ s.cstart = s.off ∧ s.params.capBytes = none
      ∧ s.off.toNat + 12 + iend.data.length < 2 ^ 64 ∧ s.op = 0x21#8)
    ∧ ChunkOk iend ∧ 0xAE426082#32 = crc32 (be32 iend.ty ++ iend.data) ∧ 0xAE426083#32 ≠ crc32 (be32 iend.ty ++ iend.data) :=
  ⟨⟨{ running 0x30#8 .len with off := 8, cstart := 8 }, by decide⟩, ⟨running 0x21#8 .len, by decide⟩, by unfold ChunkOk; decide,
    by decide +kernel, by decide +kernel⟩

theorem witness_StartRules :
    start.ck = some rust ∧ start.cont = some png ∧ textValid start.params.text rust.data = true := by decide

end Sys2Proof.Tests
end

section
/-! PROOF. 10_state.md R44: no stale value of a working register is ever seen. `State.live` keeps what the running command can
still read in the present phase and puts the reset values in the other registers; every step commutes with it (`step_live`), so two
states with one live part run alike. In `IDLE` the live part is the visible part. -/
namespace Sys2Proof.Machine

/-- What lasts between commands and the phase, with the reset values in the hidden working registers (10_state.md R44). -/
def State.visible (s : State) : State :=
  { State.reset with
    params := s.params, cont := s.cont, ck := s.ck, cmd := s.cmd, din := s.din, dout := s.dout, rsp := s.rsp, ph := s.ph }

/-- The live part of a state: beside what is visible, the working registers that the running command may still read or count on
before it initialises them. `CRC_CALC` leaves `len`, `tc` and `pbuf` stale in `LOAD`, and only `CT_SER` initialises `sidx`. -/
def State.live (s : State) : State :=
  match s.ph with
  | .idle => s.visible
  | .sig => { s.visible with op := s.op, cnt := s.cnt, off := s.off, cstart := s.cstart, stg := s.stg }
  | .len => { s.visible with op := s.op, cnt := s.cnt, off := s.off, cstart := s.cstart, stg := s.stg, len := s.len }
  | .type | .data =>
    { s.visible with
      op := s.op, cnt := s.cnt, off := s.off, cstart := s.cstart, stg := s.stg, len := s.len,
      tc := s.tc, crc := s.crc, pbuf := s.pbuf }
  | .crc =>
    { s.visible with
      op := s.op, cnt := s.cnt, off := s.off, cstart := s.cstart, stg := s.stg,
      tc := s.tc, crc := s.crc, pbuf := s.pbuf, rxcrc := s.rxcrc }
  | .trail => { s.visible with op := s.op, crc := s.crc, cend := s.cend }
  | .drain => { s.visible with op := s.op, perr := s.perr }
  | .load =>
    { s.visible with
      op := s.op, crc := s.crc, off := s.off
      len := if s.op = opCkMake then s.len else 0
      tc := if s.op = opCkMake then s.tc else 0
      pbuf := if s.op = opCkMake then s.pbuf else [] }
  | .sSig | .sLen | .sType | .sData | .sCrc | .sRaw | .sEob =>
    { s.visible with op := s.op, cnt := s.cnt, off := s.off, sidx := if s.op = opCtSer then s.sidx else 0 }

/-- The live part of an outcome. -/
def liveOutcome : Result → Result
  | .next s => .next s.live
  | .fault r => .fault r
  | .refused r => .refused r

/-! ## The live part -/

theorem sameVisible_iff (s t : State) : SameVisible s t ↔ s.visible = t.visible := by
  constructor
  · rintro ⟨h1, h2, h3, h4, h5, h6, h7, h8⟩
    simp [State.visible, h1, h2, h3, h4, h5, h6, h7, h8]
  · intro h
    simp only [State.visible, State.mk.injEq] at h
    obtain ⟨h1, h2, h3, h4, h5, h6, h7, h8, -⟩ := h
    exact ⟨h1.symm, h2.symm, h3.symm, h4.symm, h5.symm, h6.symm, h7.symm, h8.symm⟩

theorem live_of_idle {s : State} (h : s.ph = .idle) : s.live = s.visible := by
  simp [State.live, h]

@[simp] theorem visible_live (s : State) : s.live.visible = s.visible := by
  unfold State.live
  split <;> rfl

theorem live_sameVisible (s : State) : SameVisible s.live s := (sameVisible_iff _ _).mpr (visible_live s)

@[simp] theorem live_cont (s : State) : s.live.cont = s.cont := (live_sameVisible s).cont.symm
@[simp] theorem live_ck (s : State) : s.live.ck = s.ck := (live_sameVisible s).ck.symm
@[simp] theorem live_cmd (s : State) : s.live.cmd = s.cmd := (live_sameVisible s).cmd.symm
@[simp] theorem live_din (s : State) : s.live.din = s.din := (live_sameVisible s).din.symm
@[simp] theorem live_ph (s : State) : s.live.ph = s.ph := (live_sameVisible s).ph.symm

@[simp] theorem live_arch (s : State) : s.live.arch = s.arch := by
  simp [State.arch, (live_sameVisible s).params]

theorem Phase.ne_idle_of_isInput {p : Phase} (h : p.isInput = true) : p ≠ .idle := by
  rintro rfl
  cases h

theorem Phase.ne_idle_of_isEmitter {p : Phase} (h : p.isEmitter = true) : p ≠ .idle := by
  rintro rfl
  cases h

/-- Outside `IDLE` the opcode register is live: it names the running command (10_state.md R38). -/
theorem live_op {s : State} (h : s.ph ≠ .idle) : s.live.op = s.op := by
  unfold State.live
  split
  case h_1 hp => exact absurd hp h
  all_goals rfl

theorem live_withDin (s : State) (x : List TokWord) : { s.live with din := x } = State.live { s with din := x } := by
  obtain ⟨⟩ := s
  rename Phase => p
  cases p <;> rfl

theorem live_withCmd (s : State) (x : List CmdWord) : { s.live with cmd := x } = State.live { s with cmd := x } := by
  obtain ⟨⟩ := s
  rename Phase => p
  cases p <;> rfl

/-- Taking the live part twice changes nothing more. -/
theorem live_live (s : State) : s.live.live = s.live := by
  obtain ⟨⟩ := s
  rename Phase => p
  cases p
  case load | sSig | sLen | sType | sData | sCrc | sRaw | sEob => simp +contextual [State.live, State.visible]
  all_goals rfl

/-- Two choices have one live part when their conditions agree and so do their branches. -/
theorem live_ite {p q : Prop} [Decidable p] [Decidable q] {a b a' b' : State} (hpq : p ↔ q) (ha : a.live = a'.live)
    (hb : b.live = b'.live) : (if p then a else b).live = (if q then a' else b').live := by
  by_cases hp : p
  · rwa [if_pos hp, if_pos (hpq.mp hp)]
  · rwa [if_neg hp, if_neg (mt hpq.mpr hp)]

theorem live_next {s t : State} (h : s.live = t.live) : liveOutcome (.next s) = liveOutcome (.next t) :=
  congrArg Host.Outcome.next h

theorem liveOutcome_ite {p : Prop} [Decidable p] {a b a' b' : Result} (ha : liveOutcome a = liveOutcome a')
    (hb : liveOutcome b = liveOutcome b') : liveOutcome (if p then a else b) = liveOutcome (if p then a' else b') := by
  split <;> assumption

/-! ## Bytes

In each phase the two sides branch alike, and in every branch the registers that stay live were live before or are written by the
branch; each leaf holds by computation. -/

theorem takeSig_live {s : State} (h : s.ph = .sig) (b : Byte) : (s.live.takeSig b).live = (s.takeSig b).live := by
  obtain ⟨⟩ := s
  cases h
  exact live_ite .rfl (live_ite .rfl rfl rfl) rfl

theorem takeLen_live {s : State} (h : s.ph = .len) (b : Byte) : (s.live.takeLen b).live = (s.takeLen b).live := by
  obtain ⟨⟩ := s
  cases h
  exact live_ite .rfl (live_ite .rfl rfl (live_ite .rfl rfl rfl)) rfl

/-- `takeType` with the choice of the next phase outside the update. -/
theorem takeType_eq (s : State) (b : Byte) :
    let s1 := { s.tick with tc := shiftIn s.tc b, crc := crcUpd s.crc b }
    s.takeType b =
      if s1.cnt = 4 then
        if s1.len = 0 then { s1.enter .crc with rxcrc := 0 } else { s1.enter .data with rxcrc := 0 }
      else s1 := by
  by_cases h : s.len = 0#32 <;> simp [State.takeType, h]

theorem takeType_live {s : State} (h : s.ph = .type) (b : Byte) : (s.live.takeType b).live = (s.takeType b).live := by
  obtain ⟨⟩ := s
  cases h
  rw [takeType_eq, takeType_eq]
  exact live_ite .rfl (live_ite .rfl rfl rfl) rfl

theorem takeData_live {s : State} (h : s.ph = .data) (b : Byte) : (s.live.takeData b).live = (s.takeData b).live := by
  obtain ⟨⟩ := s
  cases h
  exact live_ite .rfl rfl rfl

theorem takeCrc_live {s : State} (h : s.ph = .crc) (b : Byte) : (s.live.takeCrc b).live = (s.takeCrc b).live := by
  obtain ⟨⟩ := s
  cases h
  exact live_ite .rfl (live_ite .rfl (live_ite .rfl (live_ite .rfl rfl rfl) rfl) rfl) rfl

theorem takeMake_live {s : State} (h : s.ph = .load) (ho : s.op = opCkMake) (b : Byte) :
    (s.live.takeMake b).live = (s.takeMake b).live := by
  obtain ⟨⟩ := s
  cases h; cases ho
  exact live_ite .rfl rfl (live_ite .rfl rfl rfl)

/-- `CRC_CALC` reads and writes `crc` and `off` only. -/
theorem takeCalc_live {s : State} (h : s.ph = .load) (ho : s.op ≠ opCkMake) (b : Byte) :
    (s.live.takeCalc b).live = (s.takeCalc b).live := by
  obtain ⟨⟩ := s
  cases h
  refine live_ite .rfl rfl ?_
  simp only [State.live, if_neg ho]
  rfl

theorem takeCounted_live (s : State) (b : Byte) : (s.live.takeCounted b).live = (s.takeCounted b).live := by
  unfold State.takeCounted
  rw [live_ph]
  split
  case h_1 h => exact takeSig_live h b
  case h_2 h => exact takeLen_live h b
  case h_3 h => exact takeType_live h b
  case h_4 h => exact takeData_live h b
  case h_5 h => exact takeCrc_live h b
  case h_6 => exact live_live s

theorem takeLoad_live {s : State} (h : s.ph = .load) (b : Byte) :
    (if s.live.op = opCkMake then s.live.takeMake b else s.live.takeCalc b).live
      = (if s.op = opCkMake then s.takeMake b else s.takeCalc b).live := by
  have hop : s.live.op = s.op := live_op (by simp [h])
  by_cases ho : s.op = opCkMake
  · rw [if_pos (hop.trans ho), if_pos ho, takeMake_live h ho]
  · rw [if_neg (hop ▸ ho), if_neg ho, takeCalc_live h ho]

theorem takeByte_live (s : State) (b : Byte) : liveOutcome (takeByte b s.live) = liveOutcome (takeByte b s) := by
  have hl := takeLoad_live (s := s) (b := b)
  have hc := takeCounted_live s b
  obtain ⟨⟩ := s
  rename Phase => p
  cases p
  case trail | drain => rfl
  case load => exact live_next (hl rfl)
  case sig | len | type | data | crc =>
    exact liveOutcome_ite rfl (liveOutcome_ite rfl (live_next hc))
  case idle | sSig | sLen | sType | sData | sCrc | sRaw | sEob => rfl

/-! ## The `EOB` mark -/

theorem loadDone_live {s : State} (h : s.ph = .load) : s.live.loadDone.live = s.loadDone.live := by
  by_cases ho : s.op = opCkMake
  · obtain ⟨⟩ := s
    cases h; cases ho
    rfl
  · simp only [State.loadDone, State.live, h, if_neg ho]
    rfl

theorem drainEob_live (s : State) (h : s.ph = .drain) : liveOutcome (takeEob s.live) = liveOutcome (takeEob s) := by
  obtain ⟨⟩ := s
  cases h
  rename Option PendingError => e
  cases e <;> rfl

theorem takeEob_live {s : State} (hi : s.ph.isInput = true) : liveOutcome (takeEob s.live) = liveOutcome (takeEob s) := by
  have hl := loadDone_live (s := s)
  have hd := drainEob_live s
  obtain ⟨⟩ := s
  rename Phase => p
  cases p
  case len => exact live_next (live_ite .rfl rfl rfl)
  case drain => exact hd rfl
  case load => exact live_next (hl rfl)
  case sig | type | data | crc | trail => rfl
  all_goals cases hi

/-- A token in an input phase sees only the live part (43_framer.md R227). -/
theorem takeToken_live {s : State} (hi : s.ph.isInput = true) (t : Token) (w : TokWord) :
    liveOutcome (takeToken t w s.live) = liveOutcome (takeToken t w s) := by
  unfold takeToken
  simp only [live_ph, live_op (Phase.ne_idle_of_isInput hi), hi, Bool.not_true, Bool.false_eq_true, if_false]
  refine liveOutcome_ite rfl ?_
  cases t
  · exact takeByte_live s _
  · exact takeEob_live hi

/-! ## Emitters

Every emitter phase has the same live registers; a field's byte and the passage to the next field keep them. -/

theorem live_of_emitter {s : State} (h : s.ph.isEmitter = true) :
    s.live = { s.visible with op := s.op, cnt := s.cnt, off := s.off, sidx := if s.op = opCtSer then s.sidx else 0 } := by
  unfold State.live
  split
  case h_10 | h_11 | h_12 | h_13 | h_14 | h_15 | h_16 => rfl
  all_goals simp_all [Phase.isEmitter]

theorem live_cnt {s : State} (h : s.ph.isEmitter = true) : s.live.cnt = s.cnt := by rw [live_of_emitter h]
theorem live_off {s : State} (h : s.ph.isEmitter = true) : s.live.off = s.off := by rw [live_of_emitter h]
theorem live_sidx {s : State} (h : s.ph.isEmitter = true) (ho : s.op = opCtSer) : s.live.sidx = s.sidx := by
  rw [live_of_emitter h]
  exact if_pos ho

theorem emitByte_live {s : State} (h : s.ph.isEmitter = true) (b : Byte) : s.live.emitByte b = (s.emitByte b).live := by
  rw [live_of_emitter h, live_of_emitter (s := s.emitByte b) h]
  rfl

theorem enter_live {s : State} (h : s.ph.isEmitter = true) {p : Phase} (hp : p.isEmitter = true) :
    (s.live.enter p).live = (s.enter p).live := by
  have e : s.live.enter p = (s.enter p).live := by
    rw [live_of_emitter h, live_of_emitter (s := s.enter p) hp]
    rfl
  rw [e, live_live]

theorem nextChunk_live {s : State} (h : s.ph.isEmitter = true) (ho : s.op = opCtSer) :
    s.live.nextChunk.live = s.nextChunk.live := by
  unfold State.nextChunk
  rw [live_cont, live_sidx h ho]
  split
  · exact enter_live (p := .sLen) h rfl
  · exact enter_live h rfl

/-- In `CT_SER` the position `sidx` is live, so counting a chunk commutes with the live part. -/
theorem countChunk_live {s : State} (h : s.ph.isEmitter = true) (ho : s.op = opCtSer) :
    { s.live with sidx := s.live.sidx + 1 } = State.live { s with sidx := s.sidx + 1 } := by
  rw [live_of_emitter h, live_of_emitter (s := { s with sidx := s.sidx + 1 }) h]
  simp only [if_pos ho]
  rfl

theorem afterCrc_live {s : State} (h : s.ph.isEmitter = true) : s.live.afterCrc.live = s.afterCrc.live := by
  have hop : s.live.op = s.op := live_op (Phase.ne_idle_of_isEmitter h)
  by_cases ho : s.op = opCtSer
  · unfold State.afterCrc
    rw [if_pos (hop.trans ho), if_pos ho, countChunk_live h ho]
    exact nextChunk_live (s := { s with sidx := s.sidx + 1 }) h ho
  · unfold State.afterCrc
    rw [if_neg (hop ▸ ho), if_neg ho]
    exact enter_live h rfl

/-- A byte of a field is chosen by `cnt`, which is live; what follows the field is for the caller to show. -/
theorem emitField_live {s : State} (h : s.ph.isEmitter = true) (field : List Byte) {k : State → State}
    (hk : ∀ u : State, u.ph = s.ph → u.op = s.op → (k u.live).live = (k u).live) :
    liveOutcome (s.live.emitField field k) = liveOutcome (s.emitField field k) := by
  unfold State.emitField
  rw [live_cnt h]
  split
  · rfl
  · next b _ =>
    rw [emitByte_live h]
    exact live_next (live_ite (by rw [live_cnt (s := s.emitByte b) h]) (hk _ rfl rfl) (live_live _))

theorem emitChunk_live {s : State} (h : s.ph.isEmitter = true) (c : Chunk) :
    liveOutcome (s.live.emitChunk c) = liveOutcome (s.emitChunk c) := by
  have enters {p : Phase} (hp : p.isEmitter = true) (u : State) (hu : u.ph = s.ph) (_ : u.op = s.op) :
      (u.live.enter p).live = (u.enter p).live := enter_live (hu ▸ h) hp
  unfold State.emitChunk
  rw [live_ph]
  split
  · exact emitField_live h _ (enters rfl)
  · exact emitField_live h _ (enters (by split <;> rfl))
  · exact emitField_live h _ (enters rfl)
  · exact emitField_live h _ fun u hu _ => afterCrc_live (hu ▸ h)
  · exact live_next (live_live s)

theorem rawTxn_live {s : State} (h : s.ph.isEmitter = true) : s.live.rawTxn = s.rawTxn := by
  simp only [State.rawTxn, live_op (Phase.ne_idle_of_isEmitter h), live_arch]

theorem emitted_live {s : State} (h : s.ph.isEmitter = true) : s.live.emitted = s.emitted := by
  unfold State.emitted
  rw [live_op (Phase.ne_idle_of_isEmitter h), live_cont, live_ck]
  split
  · next ho => rw [live_sidx h ho]
  · rfl

theorem emitRsp_live {s : State} (h : s.ph.isEmitter = true) : s.live.emitRsp = s.emitRsp := by
  simp only [State.emitRsp, live_op (Phase.ne_idle_of_isEmitter h), live_cont, live_ck, live_off h, rawTxn_live h]

theorem toEob_live {s : State} (h : s.ph.isEmitter = true) :
    State.live { s.live with ph := .sEob } = State.live { s with ph := .sEob } := by
  have e : { s.live with ph := .sEob } = State.live { s with ph := .sEob } := by
    rw [live_of_emitter h]
    rfl
  exact (congrArg State.live e).trans (live_live _)

theorem emitRaw_live {s : State} (h : s.ph.isEmitter = true) : liveOutcome s.live.emitRaw = liveOutcome s.emitRaw := by
  unfold State.emitRaw State.rawList
  rw [live_off h, rawTxn_live h]
  split
  · rfl
  · next b _ =>
    rw [emitByte_live h]
    exact live_next (live_ite (by rw [live_off (s := s.emitByte b) h]) (toEob_live h) (live_live _))

/-- An emitter step sees only the live part (44_serializer.md R248, R249). -/
theorem emitStep_live {s : State} (h : s.ph.isEmitter = true) : liveOutcome (emitStep s.live) = liveOutcome (emitStep s) := by
  unfold emitStep
  rw [live_op (Phase.ne_idle_of_isEmitter h), live_ph]
  split
  · rfl
  next hu =>
  split
  case h_1 hp =>
    have ho : s.op = opCtSer := by simpa [hp, Phase.usedBy] using hu
    rw [live_cont]
    split
    · rfl
    · exact emitField_live h _ fun u hu' ho' => nextChunk_live (hu' ▸ h) (ho' ▸ ho)
  case h_2 | h_3 | h_4 | h_5 =>
    rw [emitted_live h]
    split
    · rfl
    · exact emitChunk_live h _
  case h_6 => exact emitRaw_live h
  case h_7 =>
    rw [emitRsp_live h, live_of_emitter h]
    rfl
  case h_8 => exact live_next (live_live s)


/-! ## Acceptance and start rules -/

/-- A transaction completed at once leaves nothing of the working registers to be seen. -/
theorem live_complete {s t : State} (h : SameVisible s t) (x : Txn) (op : Byte) :
    ((s.accept op).complete x).live = ((t.accept op).complete x).live := by
  rw [live_of_idle rfl, live_of_idle rfl, ← sameVisible_iff]
  constructor <;> simp [h.params, h.cmd, h.din, h.dout, h.rsp]

/-- The plain emitter's start rule initialises `cnt` and `off`, and its commands do not read `sidx`. -/
theorem startEmit_live {s : State} (h : s.ph = .idle) {p : Phase} (hp : p.isEmitter = true) {op : Byte}
    (hop : op ≠ opCtSer) (x : Txn) : ((s.live.accept op).startEmit p x).live = ((s.accept op).startEmit p x).live := by
  refine live_ite .rfl ?_ (live_complete (live_sameVisible s) x op)
  rw [live_of_emitter (s := { (s.live.accept op).enter p with off := 0 }) hp,
    live_of_emitter (s := { (s.accept op).enter p with off := 0 }) hp, live_of_idle h]
  simp [State.visible, State.accept, State.enter, hop]

theorem rawStart_isEmitter (x : Txn) : (rawStart x).isEmitter = true := by
  unfold rawStart
  split <;> rfl

/-- In `IDLE` every command initialises the registers it goes on to read (10_state.md R44). -/
theorem exec_live {s : State} (h : s.ph = .idle) (i : Instr) : liveOutcome (exec i s.live) = liveOutcome (exec i s) := by
  have completes := live_complete (live_sameVisible s)
  obtain ⟨⟩ := s
  cases h
  cases i
  case crcCalc | ckMake | ckParse | ctParse => rfl
  case signature | chunk | token | rsp => rfl
  case ckSer =>
    rename Option Chunk => ck
    cases ck
    · exact live_next (completes _ _)
    · rfl
  case ctSer => exact live_next (live_ite .rfl (completes _ _) rfl)
  case ckData | ckText | ctList => exact live_next (startEmit_live rfl (rawStart_isEmitter _) (by decide) _)
  all_goals exact live_next (completes _ _)

/-! ## Steps and runs -/

theorem step_of_idle_nil {s : State} (h : s.ph = .idle) (hc : s.cmd = []) : step s = .next s := by
  simp [step, fetch, h, hc]

theorem step_of_idle_cons {s : State} {w : CmdWord} {rest : List CmdWord} (h : s.ph = .idle) (hc : s.cmd = w :: rest) :
    step s = exec (decodeCmd w) { s with cmd := rest } := by
  simp [step, fetch, h, hc]

theorem step_of_input_nil {s : State} (h : s.ph.isInput = true) (hd : s.din = []) : step s = .next s := by
  simp [step, fetch, h, hd, Phase.ne_idle_of_isInput h]

theorem step_of_input_cons {s : State} {w : TokWord} {rest : List TokWord} (h : s.ph.isInput = true)
    (hd : s.din = w :: rest) :
    step s = takeToken (tokenOf (w.getLsbD 8) (w.extractLsb' 0 8)) (tokFields (w.getLsbD 8) (w.extractLsb' 0 8))
      { s with din := rest } := by
  simp [step, fetch, h, hd, Phase.ne_idle_of_isInput h, decodeTok, exec, execToken]

theorem step_of_emitter {s : State} (h : s.ph.isEmitter = true) : step s = emitStep s := by
  rcases Phase.kinds s.ph with ⟨-, -, he⟩ | ⟨-, -, he⟩ | ⟨hi, hn, -⟩
  · cases he.symm.trans h
  · cases he.symm.trans h
  · simp [step, fetch, hi, hn]

/-- A step sees only the live part of a state. -/
theorem step_live (s : State) : liveOutcome (step s.live) = liveOutcome (step s) := by
  rcases step_cases s with ⟨h, hc, hs⟩ | ⟨w, rest, h, hc, hs⟩ | ⟨h, hd, hs⟩ | ⟨w, rest, h, hd, hs⟩ | ⟨h, hs⟩
  · rw [hs, step_of_idle_nil ((live_ph s).trans h) ((live_cmd s).trans hc)]
    exact live_next (live_live s)
  · rw [hs, step_of_idle_cons ((live_ph s).trans h) ((live_cmd s).trans hc), live_withCmd]
    exact exec_live (s := { s with cmd := rest }) h _
  · rw [hs, step_of_input_nil (by rwa [live_ph]) ((live_din s).trans hd)]
    exact live_next (live_live s)
  · rw [hs, step_of_input_cons (by rwa [live_ph]) ((live_din s).trans hd), live_withDin]
    exact takeToken_live (s := { s with din := rest }) h _ _
  · rw [hs, step_of_emitter (by rwa [live_ph])]
    exact emitStep_live h

theorem step_next_of_live_eq {s t s' : State} (h : s.live = t.live) (hs : step s = .next s') :
    ∃ t', step t = .next t' ∧ s'.live = t'.live := by
  have e : liveOutcome (step t) = .next s'.live :=
    calc liveOutcome (step t) = liveOutcome (step t.live) := (step_live t).symm
      _ = liveOutcome (step s.live) := by rw [h]
      _ = liveOutcome (step s) := step_live s
      _ = .next s'.live := by rw [hs]; rfl
  cases ht : step t with
  | next t' =>
    rw [ht] at e
    injection e with e
    exact ⟨t', rfl, e.symm⟩
  | fault r => simp [ht, liveOutcome] at e
  | refused r => simp [ht, liveOutcome] at e

/-- A run sees only the live part of the state it starts from. -/
theorem runsTo_of_live_eq {k : Nat} {s t s' : State} (h : s.live = t.live) (hs : RunsTo k s s') :
    ∃ t', RunsTo k t t' ∧ s'.live = t'.live := by
  induction k generalizing s t with
  | zero => exact ⟨t, (RunsTo_zero t t).mpr rfl, (RunsTo_zero s s').mp hs ▸ h⟩
  | succ k ih =>
    obtain ⟨u, hu, hr⟩ := (RunsTo_succ k s s').mp hs
    obtain ⟨v, hv, huv⟩ := step_next_of_live_eq h hu
    obtain ⟨t', hr', h'⟩ := ih huv hr
    exact ⟨t', (RunsTo_succ k t t').mpr ⟨v, hv, hr'⟩, h'⟩

/-- Settles O10: in `IDLE` two states that agree visibly have one live part, every step keeps that, and the live part has all
that is visible. -/
theorem staleRegistersAreNeverSeen : Obligations.StaleRegistersAreNeverSeen := by
  intro s t hidle hst k s' hs
  have hlive : s.live = t.live := by
    rw [live_of_idle hidle, live_of_idle (hst.ph.trans hidle)]
    exact (sameVisible_iff s t).mp hst
  obtain ⟨t', ht, h'⟩ := runsTo_of_live_eq hlive hs
  have hvis : s'.visible = t'.visible := by rw [← visible_live s', h', visible_live]
  exact ⟨t', ht, (sameVisible_iff s' t').mpr hvis⟩

end Sys2Proof.Machine
end

section
/-! PROOF. 40_crc.md R133: the table form of the byte update. The loop is linear over XOR (R136), and on a register whose low `n`
bits are 0 its `n` iterations only shift; so they act on the low `n` bits by the table and on the others by the shift. -/
namespace Sys2Proof.Machine

/-- The branch of an iteration as a mask on the polynomial. -/
theorem crcBit_eq_xor (c : Word) : crcBit c = c >>> 1 ^^^ if c.getLsbD 0 then Config.poly else 0 := by
  rw [crcBit]
  split <;> simp

theorem crcBit_of_even {c : Word} (h : c.getLsbD 0 = false) : crcBit c = c >>> 1 := by
  rw [crcBit, h, if_neg Bool.false_ne_true]

/-- An iteration is linear over XOR: two set low bits cancel, and so do the two copies of the polynomial (R136). -/
theorem crcBit_xor (x y : Word) : crcBit (x ^^^ y) = crcBit x ^^^ crcBit y := by
  have hmask : ∀ p q : Bool, (if p ^^ q then Config.poly else 0) =
      (if p then Config.poly else 0) ^^^ if q then Config.poly else 0 := by decide
  simp only [crcBit_eq_xor, BitVec.ushiftRight_xor_distrib, BitVec.getLsbD_xor, hmask]
  ac_rfl

theorem crcBits_xor (n : Nat) (x y : Word) : crcBits n (x ^^^ y) = crcBits n x ^^^ crcBits n y := by
  induction n generalizing x y with
  | zero => rfl
  | succ n ih => simp only [crcBits, crcBit_xor, ih]

theorem crcBits_of_low_zero {n : Nat} {x : Word} (h : ∀ i < n, x.getLsbD i = false) : crcBits n x = x >>> n := by
  induction n generalizing x with
  | zero => simp [crcBits]
  | succ n ih =>
    have hshift : ∀ i < n, (x >>> 1).getLsbD i = false := fun i hi => by
      rw [BitVec.getLsbD_ushiftRight]; exact h _ (by omega)
    rw [crcBits, crcBit_of_even (h 0 (by omega)), ih hshift, ← BitVec.shiftRight_add, Nat.add_comm]

/-- When `x` and `low` agree below bit `n`, the loop runs on `low` and only shifts the rest of `x`. -/
theorem crcBits_of_low_agree {n : Nat} {x low : Word} (h : ∀ i < n, x.getLsbD i = low.getLsbD i) :
    crcBits n x = crcBits n low ^^^ (low ^^^ x) >>> n := by
  have hzero : ∀ i < n, (low ^^^ x).getLsbD i = false := fun i hi => by simp [h i hi]
  calc crcBits n x = crcBits n (low ^^^ (low ^^^ x)) := by rw [← BitVec.xor_assoc, BitVec.xor_self, BitVec.zero_xor]
    _ = crcBits n low ^^^ (low ^^^ x) >>> n := by rw [crcBits_xor, crcBits_of_low_zero hzero]

theorem setWidth_ushiftRight_eight (b : Byte) : b.setWidth 32 >>> 8 = 0#32 := by
  ext i hi
  simp

/-- The bit-serial update is the table form (R133). -/
theorem crcUpd_eq_crcUpdTable (c : Word) (b : Byte) : crcUpd c b = crcUpdTable c b := by
  have hlow : ∀ x : Word, ∀ i < 8, x.getLsbD i = ((x.setWidth 8).setWidth 32).getLsbD i := fun x i hi => by
    simp [hi, show i < 32 by omega]
  rw [crcUpd, crcBits_of_low_agree (hlow _), crcUpdTable, crcTable, BitVec.ushiftRight_xor_distrib,
    BitVec.ushiftRight_xor_distrib, setWidth_ushiftRight_eight, setWidth_ushiftRight_eight, BitVec.zero_xor, BitVec.xor_zero]

/-- Settles O17: entry `i` is the loop on `i` by definition, the update is the table form by linearity, and the eleven entries are
computed. -/
theorem crcTableFormAgrees : Obligations.CrcTableFormAgrees := by
  refine ⟨fun _ => rfl, fun c b => ?_, by decide⟩
  rw [crcUpd_eq_crcUpdTable, crcUpdTable, BitVec.setWidth_eq_extractLsb' (by decide)]

end Sys2Proof.Machine
end

section
/-! PROOF. The type-code commands (41_type_code.md). Each predicate of a code is told by its bytes or by one bit of the word, and
the property word bit by bit; the two commands then answer by these predicates. -/
namespace Sys2Proof.Machine

/-! ## The predicates of a type code -/

/-- A letter is an upper-case or a lower-case one (41_type_code.md R151). -/
theorem isLetter_iff (b : Byte) :
    isLetter b = true ↔ (0x41 ≤ b.toNat ∧ b.toNat ≤ 0x5A) ∨ (0x61 ≤ b.toNat ∧ b.toNat ≤ 0x7A) := by
  simp [isLetter]

theorem lettersOk_iff (t : Word) :
    lettersOk t = true ↔ ∀ b ∈ be32 t, (0x41 ≤ b.toNat ∧ b.toNat ≤ 0x5A) ∨ (0x61 ≤ b.toNat ∧ b.toNat ≤ 0x7A) := by
  simp only [lettersOk, List.all_eq_true, isLetter_iff]

/-- The four property bits (41_type_code.md R150) are bits 29, 21, 13 and 5 of the word. -/
theorem propBit_tyByte (t : Word) {i : Nat} (hi : i < 4) : propBit (tyByte t i) = t.getLsbD (29 - 8 * i) := by
  have hbyte : ∀ j, propBit (t.extractLsb' j 8) = t.getLsbD (j + 5) := fun j => by simp [propBit]
  match i, hi with
  | 0, _ => exact hbyte 24
  | 1, _ => exact hbyte 16
  | 2, _ => exact hbyte 8
  | 3, _ => exact hbyte 0

theorem reservedOk_eq (t : Word) : reservedOk t = !t.getLsbD 13 := by rw [reservedOk, propBit_tyByte t (by decide)]
theorem isCritical_eq (t : Word) : isCritical t = !t.getLsbD 29 := by rw [isCritical, propBit_tyByte t (by decide)]
theorem isPublic_eq (t : Word) : isPublic t = !t.getLsbD 21 := by rw [isPublic, propBit_tyByte t (by decide)]
theorem isSafeToCopy_eq (t : Word) : isSafeToCopy t = t.getLsbD 5 := by rw [isSafeToCopy, propBit_tyByte t (by decide)]

/-- Bit 5 tells the case of a letter: it is set in `0x61 .. 0x7A`. -/
theorem isLetter_upper {b : Byte} (hl : isLetter b = true) (hp : propBit b = false) : 0x41 ≤ b.toNat ∧ b.toNat ≤ 0x5A := by
  have hbit : b.toNat / 32 % 2 ≠ 1 := by
    simpa [propBit, BitVec.getLsbD, Nat.testBit_eq_decide_div_mod_eq] using hp
  rcases (isLetter_iff b).mp hl with hupper | hlower
  · exact hupper
  · omega

/-- The third byte of a valid code is upper-case (41_type_code.md R152). -/
theorem validType_third_upper {t : Word} (h : validType t = true) :
    0x41 ≤ (t.extractLsb' 8 8).toNat ∧ (t.extractLsb' 8 8).toNat ≤ 0x5A := by
  obtain ⟨hletters, hreserved⟩ := (Bool.and_eq_true _ _).mp h
  have hmem : t.extractLsb' 8 8 ∈ be32 t := by simp [be32]
  exact isLetter_upper (List.all_eq_true.mp hletters _ hmem) (Bool.not_eq_true' _ |>.mp hreserved)

/-! ## The property word -/

theorem getLsbD_bitAt {i : Nat} (hi : i < 32) (v : Bool) (k : Nat) : (bitAt i v).getLsbD k = (decide (k = i) && v) := by
  cases v with
  | false => simp [bitAt]
  | true =>
    rw [bitAt, if_pos rfl, ← BitVec.twoPow_eq, BitVec.getLsbD_twoPow]
    simp [hi, eq_comm]

/-- The property word bit by bit: the six predicates from bit 0 up, and 0 above (41_type_code.md R157). -/
theorem getLsbD_propsWord (t : Word) (k : Nat) : (propsWord t).getLsbD k =
    [validType t, lettersOk t, reservedOk t, isCritical t, isPublic t, isSafeToCopy t].getD k false := by
  simp only [propsWord, BitVec.getLsbD_or, getLsbD_bitAt, Nat.reduceLT]
  match k with
  | 0 | 1 | 2 | 3 | 4 | 5 => simp
  | k + 6 => simp

/-! ## The commands -/

/-- A command that changes no register and emits nothing only answers. -/
theorem complete_answer (s : State) (op : Byte) (r : Rsp) : (s.accept op).complete (s.arch.answer r) = s.answered op r := rfl

theorem decode_tyCheck {w : CmdWord} (h : cmdOp w = opTyCheck) : decode (.cmd w) = .ok (.tyCheck (cmdTc w)) := by
  simp only [decode, decodeCmd, h]
  rfl

theorem decode_tyProps {w : CmdWord} (h : cmdOp w = opTyProps) : decode (.cmd w) = .ok (.tyProps (cmdTc w)) := by
  simp only [decode, decodeCmd, h]
  rfl

/-- `TY_CHECK` only answers, by its two tests in order (41_type_code.md R156). -/
theorem exec_tyCheck (tc : Word) (s : State) : exec (.tyCheck tc) s = .next (s.answered opTyCheck
    (if ¬lettersOk tc = true then mkRsp .invalidChunkType (sub := subNonLetter)
     else if tc.getLsbD 13 then mkRsp .invalidChunkType (sub := subReservedBitSet)
     else mkRsp .ok)) := by
  have hrun : exec (.tyCheck tc) s = .next ((s.accept opTyCheck).complete (fnTyCheck s.arch tc)) := rfl
  rw [hrun, ← complete_answer, fnTyCheck, reservedOk_eq, apply_ite s.arch.answer, apply_ite s.arch.answer]
  simp only [Bool.not_not, Bool.not_eq_true', Bool.not_eq_true]

theorem exec_tyProps (tc : Word) (s : State) :
    exec (.tyProps tc) s = .next (s.answered opTyProps (mkRsp .ok (val := propsWord tc))) := rfl

/-- Settles O21: `val` is the property word, read bit by bit; its bit 0 is validity, so a valid code has a letter with bit 5 clear
as third byte. -/
theorem tyPropsAnswers : Obligations.TyPropsAnswers := by
  refine ⟨fun w => decode_tyProps, fun s tc => ⟨propsWord tc, exec_tyProps tc s, ?_⟩⟩
  simp only [getLsbD_propsWord]
  exact ⟨rfl, lettersOk_iff tc, reservedOk_eq tc, isCritical_eq tc, isPublic_eq tc, isSafeToCopy_eq tc,
    fun k hk => List.getD_eq_default _ _ hk, validType_third_upper⟩

/-- Settles O20: the letter test fails exactly when some byte is no letter, and it comes before the test of bit 13. -/
theorem tyCheckAnswers : Obligations.TyCheckAnswers := by
  refine ⟨fun w => decode_tyCheck, fun s tc => ?_⟩
  simp only [exec_tyCheck, lettersOk_iff, not_forall, exists_prop]
  rfl

end Sys2Proof.Machine
end

section
/-! PROOF. 42_chunk.md R188: `ser_chunk` and `parse_chunk` undo each other. What a parse answers for the four fields of a chunk
depends on the CRC field alone (`parseChunkWith_chunkFields`). Every buffer that is long enough for its length field is four fields
and a rest (`exists_chunkFields_append`), so the same equation gives the converse. -/
namespace Sys2Proof.Machine

@[simp] theorem wordOfBytes_be32_append (w : Word) (l : List Byte) : wordOfBytes (be32 w ++ l) = w := wordOfBytes_be32 w

@[simp] theorem drop_four_be32_append (w : Word) (l : List Byte) : (be32 w ++ l).drop 4 = l := rfl

/-- Four bytes or more begin with a 32-bit field (30_encoding.md R97). -/
theorem exists_be32_append {l : List Byte} (h : 4 ≤ l.length) : ∃ (w : Word) (rest : List Byte), l = be32 w ++ rest := by
  obtain ⟨a, b, c, d, rest, rfl⟩ := exists_four l h
  exact ⟨rd32 a b c d, rest, by rw [be32_rd32]; rfl⟩

theorem toNat_ofNat_length {data : List Byte} (h : data.length ≤ Config.maxLen) :
    (BitVec.ofNat 32 data.length).toNat = data.length :=
  (BitVec.toNat_ofNat _ _).trans (Nat.mod_eq_of_lt (Nat.lt_of_le_of_lt h (by decide)))

/-! ## Reading the four fields back -/

section
variable (ty : Word) (data : List Byte) (x : Word) (rest : List Byte)

@[simp] theorem length_chunkFields : (chunkFields ty data x).length = 12 + data.length := by
  simp [chunkFields]; omega

theorem chunkFields_append :
    chunkFields ty data x ++ rest = be32 (BitVec.ofNat 32 data.length) ++ (be32 ty ++ (data ++ (be32 x ++ rest))) := by
  simp [chunkFields]

theorem wordOfBytes_chunkFields : wordOfBytes (chunkFields ty data x ++ rest) = BitVec.ofNat 32 data.length := by
  rw [chunkFields_append, wordOfBytes_be32_append]

theorem wordOfBytes_drop_four_chunkFields : wordOfBytes ((chunkFields ty data x ++ rest).drop 4) = ty := by
  rw [chunkFields_append, drop_four_be32_append, wordOfBytes_be32_append]

theorem drop_eight_chunkFields : (chunkFields ty data x ++ rest).drop 8 = data ++ (be32 x ++ rest) := by
  rw [chunkFields_append, show 8 = 4 + 4 from rfl, ← List.drop_drop, drop_four_be32_append, drop_four_be32_append]

theorem wordOfBytes_drop_crc_chunkFields :
    wordOfBytes ((chunkFields ty data x ++ rest).drop (8 + data.length)) = x := by
  rw [← List.drop_drop, drop_eight_chunkFields, List.drop_left, wordOfBytes_be32_append]

end

/-! ## Parsing the four fields -/

/-- At the four fields of a chunk within the limits a parse compares the CRC field, and takes the chunk when it agrees
(42_chunk.md R176). -/
theorem parseChunkWith_chunkFields {lim : Limits} {used o : Nat} {buf : List Byte} {c : Chunk} {x : Word} {rest : List Byte}
    (hbuf : buf.drop o = chunkFields c.ty c.data x ++ rest) (hc : ChunkOk c) (hfits : lim.fits (used + c.data.length) = true) :
    parseChunkWith lim used buf o =
      if x = chunkCrc c then .ok c (o + 12 + c.data.length) else .fail .malformedChunk subCrcMismatch := by
  have hlen : (chunkFields c.ty c.data x ++ rest).length = 12 + c.data.length + rest.length := by simp
  have hmax : ¬ Config.maxLen < c.data.length := Nat.not_lt.mpr hc
  simp only [parseChunkWith, hbuf, hlen, wordOfBytes_chunkFields, toNat_ofNat_length hc, wordOfBytes_drop_four_chunkFields,
    drop_eight_chunkFields, wordOfBytes_drop_crc_chunkFields, List.take_left, hfits, hmax, if_false, Bool.not_true,
    Bool.false_eq_true]
  rw [if_neg (by omega), if_neg (by omega)]

/-- A parse that takes a chunk has found a legal length, within the capacity, and that many bytes (42_chunk.md R176). -/
theorem parseChunkWith_ok_length {lim : Limits} {used o o' : Nat} {buf : List Byte} {c : Chunk}
    (h : parseChunkWith lim used buf o = .ok c o') :
    (wordOfBytes (buf.drop o)).toNat ≤ Config.maxLen ∧ lim.fits (used + (wordOfBytes (buf.drop o)).toNat) = true
      ∧ 12 + (wordOfBytes (buf.drop o)).toNat ≤ (buf.drop o).length := by
  simp only [parseChunkWith] at h
  split_ifs at h with h4 hmax hfits htrunc
  exact ⟨by omega, by simpa using hfits, by omega⟩

/-- A buffer that is long enough for the length field it begins with is the four fields of a chunk and a rest. -/
theorem exists_chunkFields_append {l : List Byte} (h : 12 + (wordOfBytes l).toNat ≤ l.length) :
    ∃ (ty : Word) (data : List Byte) (x : Word) (rest : List Byte),
      l = chunkFields ty data x ++ rest ∧ data.length = (wordOfBytes l).toNat := by
  obtain ⟨n, l₁, rfl⟩ := exists_be32_append (by omega : 4 ≤ l.length)
  simp only [wordOfBytes_be32_append, List.length_append, be32_length] at h ⊢
  obtain ⟨ty, l₂, rfl⟩ := exists_be32_append (by omega : 4 ≤ l₁.length)
  simp only [List.length_append, be32_length] at h
  obtain ⟨x, rest, hrest⟩ := exists_be32_append (by rw [List.length_drop]; omega : 4 ≤ (l₂.drop n.toNat).length)
  have hdata : (l₂.take n.toNat).length = n.toNat := List.length_take_of_le (by omega)
  refine ⟨ty, l₂.take n.toNat, x, rest, ?_, hdata⟩
  rw [chunkFields_append, hdata, BitVec.ofNat_toNat, BitVec.setWidth_eq, ← hrest, List.take_append_drop]

/-- A parse that takes a chunk has read exactly the bytes `ser_chunk` gives for it (42_chunk.md R188). -/
theorem parseChunkWith_ok {lim : Limits} {used o o' : Nat} {buf : List Byte} {c : Chunk}
    (h : parseChunkWith lim used buf o = .ok c o') :
    ChunkOk c ∧ o' = o + 12 + c.data.length ∧ ∃ rest, buf.drop o = serChunk c ++ rest := by
  obtain ⟨hmax, hfits, hlen⟩ := parseChunkWith_ok_length h
  obtain ⟨ty, data, x, rest, hbuf, hdata⟩ := exists_chunkFields_append hlen
  rw [← hdata] at hmax hfits
  rw [parseChunkWith_chunkFields (c := ⟨ty, data⟩) hbuf hmax hfits] at h
  split_ifs at h with hx
  obtain ⟨rfl, rfl⟩ := ChunkResult.ok.inj h
  subst hx
  exact ⟨hmax, rfl, rest, hbuf⟩

/-- Settles O30: the CRC field `ser_chunk` writes is the one a parse compares with, and a parse that takes a chunk has read the
bytes `ser_chunk` gives for it. -/
theorem chunkRoundTrip : Obligations.ChunkRoundTrip := by
  refine ⟨fun c rest hc => ?_, fun buf c o h => ?_⟩
  · rw [parseChunk, parseChunkWith_chunkFields (x := chunkCrc c) (rest := rest) rfl hc rfl, if_pos rfl, Nat.zero_add]
  · obtain ⟨-, rfl, rest, hbuf⟩ := parseChunkWith_ok h
    rw [List.drop_zero] at hbuf
    rw [hbuf, List.take_left' (by rw [serChunk, length_chunkFields, Nat.zero_add])]

end Sys2Proof.Machine
end

section
/-! PROOF. 44_serializer.md R244, R250, R253: the length of a serialization, and `serialize` and `parse` undo each other. A buffer
that starts with the signature is parsed by the loop alone (`parseWith_ok_iff`); from any offset the loop takes exactly the chunks
whose serializations follow there (`parseLoop_of_drop`, `parseLoop_ok`), one turn for each. -/
namespace Sys2Proof.Machine

/-! ## Lengths -/

@[simp] theorem length_serChunk (c : Chunk) : (serChunk c).length = 12 + c.data.length := length_chunkFields ..

theorem length_flatMap_serChunk (cs : List Chunk) :
    (cs.flatMap serChunk).length = 12 * cs.length + payloadBytes cs := by
  induction cs with
  | nil => rfl
  | cons c cs ih =>
    simp only [List.flatMap_cons, List.length_append, length_serChunk, ih, List.length_cons, payloadBytes_cons, chunkLen]
    omega

theorem length_serialize (cs : List Chunk) : (serialize cs).length = 8 + 12 * cs.length + payloadBytes cs := by
  rw [serialize, List.length_append, length_flatMap_serChunk, ← Nat.add_assoc]
  rfl

theorem payloadBytes_le_length_mul {cs : List Chunk} {m : Nat} (h : ∀ c ∈ cs, c.data.length ≤ m) :
    payloadBytes cs ≤ cs.length * m := by
  simpa [payloadBytes] using List.sum_le_card_nsmul (cs.map chunkLen) m (List.forall_mem_map.mpr h)

/-! ## The signature -/

/-- A parse succeeds exactly when the buffer starts with the signature and the loop after it succeeds (43_framer.md R205). -/
theorem parseWith_ok_iff {lim : Limits} {buf : List Byte} {cs : List Chunk} :
    parseWith lim buf = .ok cs ↔ buf.take 8 = Config.sig ∧ parseLoop lim buf buf.length 8 [] = .ok cs := by
  by_cases hlen : buf.length < 8
  · have hshort : buf.take 8 ≠ Config.sig := fun h => by
      have := congrArg List.length h
      rw [List.length_take, show Config.sig.length = 8 from rfl] at this
      omega
    simp [parseWith, hlen, hshort, ite_eq_iff]
  · have hsig : Config.sig.take buf.length = Config.sig := List.take_of_length_le (Nat.not_lt.mp hlen)
    simp [parseWith, hlen, hsig, ite_eq_iff]

/-! ## The loop -/

section
variable {lim : Limits} {buf : List Byte} {k o : Nat} {acc : List Chunk}

theorem parseLoop_of_length_le (h : buf.length ≤ o) : parseLoop lim buf k o acc = .ok acc := by
  cases k with
  | zero => rfl
  | succ k => rw [parseLoop, if_neg (Nat.not_lt.mpr h)]

theorem parseLoop_succ_of_chunk {c : Chunk} {o' : Nat} (ho : o < buf.length)
    (hc : parseChunkWith lim (payloadBytes acc) buf o = .ok c o') (hfull : lim.full acc.length = false) :
    parseLoop lim buf (k + 1) o acc = parseLoop lim buf k o' (acc ++ [c]) := by
  simp [parseLoop, ho, hc, hfull]

/-- A turn before the end of the buffer, in a loop that succeeds, has taken a chunk. -/
theorem parseLoop_succ_ok {cs : List Chunk} (ho : o < buf.length) (h : parseLoop lim buf (k + 1) o acc = .ok cs) :
    ∃ c o', parseChunkWith lim (payloadBytes acc) buf o = .ok c o' ∧ parseLoop lim buf k o' (acc ++ [c]) = .ok cs := by
  rw [parseLoop, if_pos ho] at h
  split at h
  next c o' hc =>
    split_ifs at h
    exact ⟨c, o', hc, h⟩
  next => cases h

end

/-- Without limits the loop takes the chunks whose serializations fill the buffer from the offset on. -/
theorem parseLoop_of_drop {buf : List Byte} {ds : List Chunk} {k o : Nat} {acc : List Chunk} (hok : ∀ d ∈ ds, ChunkOk d)
    (hbuf : buf.drop o = ds.flatMap serChunk) (hk : ds.length ≤ k) : parseLoop noLimits buf k o acc = .ok (acc ++ ds) := by
  induction ds generalizing k o acc with
  | nil => rw [parseLoop_of_length_le (List.drop_eq_nil_iff.mp hbuf), List.append_nil]
  | cons d ds ih =>
    obtain ⟨hd, hok⟩ := List.forall_mem_cons.mp hok
    obtain ⟨k, rfl⟩ := Nat.exists_eq_add_one.mpr (Nat.zero_lt_of_lt hk)
    rw [List.flatMap_cons] at hbuf
    have hmore : o < buf.length := by
      have hlen := congrArg List.length hbuf
      rw [List.length_drop, List.length_append, length_serChunk] at hlen
      omega
    have hchunk : parseChunkWith noLimits (payloadBytes acc) buf o = .ok d (o + 12 + d.data.length) := by
      rw [parseChunkWith_chunkFields hbuf hd rfl, if_pos rfl]
    have hrest : buf.drop (o + 12 + d.data.length) = ds.flatMap serChunk := by
      rw [Nat.add_assoc, ← List.drop_drop, hbuf, List.drop_left' (length_serChunk d)]
    rw [parseLoop_succ_of_chunk hmore hchunk rfl, ih hok hrest (Nat.le_of_succ_le_succ hk), ← List.append_cons]

/-- A loop with turns enough that succeeds has read the serializations of the chunks it adds, up to the end of the buffer. -/
theorem parseLoop_ok {lim : Limits} {buf : List Byte} {cs : List Chunk} {k o : Nat} {acc : List Chunk}
    (hk : buf.length ≤ o + k) (h : parseLoop lim buf k o acc = .ok cs) :
    ∃ ds, cs = acc ++ ds ∧ buf.drop o = ds.flatMap serChunk := by
  induction k generalizing o acc with
  | zero => exact ⟨[], by simpa [parseLoop] using h.symm, List.drop_of_length_le hk⟩
  | succ k ih =>
    rcases Nat.lt_or_ge o buf.length with ho | ho
    · obtain ⟨c, o', hchunk, hloop⟩ := parseLoop_succ_ok ho h
      obtain ⟨-, rfl, rest, hbuf⟩ := parseChunkWith_ok hchunk
      obtain ⟨ds, rfl, hds⟩ := ih (by omega) hloop
      rw [Nat.add_assoc, ← List.drop_drop, hbuf, List.drop_left' (length_serChunk c)] at hds
      exact ⟨c :: ds, (List.append_cons acc c ds).symm, by rw [hbuf, hds, List.flatMap_cons]⟩
    · rw [parseLoop_of_length_le ho] at h
      exact ⟨[], by simpa using h.symm, List.drop_of_length_le ho⟩

/-! ## `serialize` and `parse` -/

/-- First half of R250. -/
theorem parse_serialize {cs : List Chunk} (h : ∀ c ∈ cs, ChunkOk c) : parse (serialize cs) = .ok cs :=
  parseWith_ok_iff.mpr ⟨rfl, parseLoop_of_drop h rfl (by rw [length_serialize]; omega)⟩

/-- Second half of R250. -/
theorem serialize_of_parse {buf : List Byte} {cs : List Chunk} (h : parse buf = .ok cs) : serialize cs = buf := by
  obtain ⟨hsig, hloop⟩ := parseWith_ok_iff.mp h
  obtain ⟨ds, hcs, hds⟩ := parseLoop_ok (Nat.le_add_left ..) hloop
  rw [hcs, List.nil_append, serialize, ← hds, ← hsig, List.take_append_drop]

/-- Settles O37: the loop takes the chunks serialized after the signature and reads no other bytes; two lists with one
serialization are both what that buffer parses to. -/
theorem containerRoundTrip : Obligations.ContainerRoundTrip := by
  refine ⟨fun _ => parse_serialize, fun _ _ => serialize_of_parse, fun cs ds hcs hds h => ?_⟩
  have hparse : ParseResult.ok cs = .ok ds := by rw [← parse_serialize hcs, h, parse_serialize hds]
  exact ParseResult.ok.inj hparse

/-- Settles O38: each chunk adds its payload and 12 bytes, and `(2 ^ 32 - 1)` times `12 + (2 ^ 31 - 1)` leaves room below
`2 ^ 64`. -/
theorem serializeLength : Obligations.SerializeLength := by
  refine fun cs => ⟨length_serialize cs, fun hn hdata => ?_⟩
  have hsum : payloadBytes cs ≤ cs.length * (2 ^ 31 - 1) := payloadBytes_le_length_mul hdata
  rw [length_serialize]
  omega

end Sys2Proof.Machine
end

section
/-! PROOF. The store operations (45_container_ops.md R262 to R285): `CT_APPEND` is `CT_INSERT` at the count, removal fails exactly
when the search from position 0 does, and `CT_COUNT` only answers. The search from position 0 is the library's `findIdx?`
(`findFrom_zero`), so a position it finds is one of the container's. -/
namespace Sys2Proof.Machine

/-! ## Append and insert -/

theorem exec_ctAppend (s : State) : exec .ctAppend s = .next ((s.accept opCtAppend).complete (fnCtAppend s.arch)) := rfl

theorem exec_ctInsert (s : State) (pos : Word) :
    exec (.ctInsert pos) s = .next ((s.accept opCtInsert).complete (fnCtInsert s.arch pos)) := rfl

/-- The position test of `CT_INSERT` passes at the chunk count, and what remains is `CT_APPEND` (45_container_ops.md R265). -/
theorem fnCtInsert_eq_fnCtAppend {a : Arch} {pos : Word} (hpos : ∀ cs, a.cont = some cs → pos.toNat = cs.length) :
    fnCtInsert a pos = fnCtAppend a := by
  obtain ⟨params, cont, ck⟩ := a
  match cont, ck with
  | none, _ => rfl
  | some cs, none => rfl
  | some cs, some c =>
    have hcount : pos.toNat = cs.length := hpos cs rfl
    simp only [fnCtInsert, fnCtAppend, hcount, Nat.lt_irrefl, if_false]

/-- Settles O41: the two commands complete as one transaction; only the opcode register tells them apart. -/
theorem appendIsInsertAtCount : Obligations.AppendIsInsertAtCount := by
  intro s pos hpos
  have htxn : fnCtInsert s.arch pos = fnCtAppend s.arch := fnCtInsert_eq_fnCtAppend hpos
  refine ⟨_, _, exec_ctAppend s, exec_ctInsert s pos, ?_⟩
  simp [htxn]

/-! ## Search and removal -/

/-- At positions that are all at or after the start, the search is the library's, counted from the first position. -/
theorem findGo_of_le {t : Word} {s i : Nat} {cs : List Chunk} (h : s ≤ i) :
    findGo t s i cs = (cs.findIdx? (fun c => c.ty == t)).map (i + ·) := by
  induction cs generalizing i with
  | nil => rfl
  | cons c cs ih =>
    rw [findGo, List.findIdx?_cons, ih (Nat.le_succ_of_le h)]
    by_cases hc : c.ty = t
    · simp [h, hc]
    · simp [hc, Function.comp_def, Nat.add_assoc, Nat.add_comm 1]

/-- `find_from` from position 0 (45_container_ops.md R269). -/
theorem findFrom_zero (cs : List Chunk) (t : Word) : findFrom cs t 0 = cs.findIdx? (fun c => c.ty == t) := by
  simp [findFrom, findGo_of_le]

/-- `remove` takes out the chunk at the position the search finds (45_container_ops.md R273). -/
theorem removeFirst_of_findFrom {cs : List Chunk} {t : Word} {i : Nat} (h : findFrom cs t 0 = some i) :
    ∃ c, cs[i]? = some c ∧ removeFirst cs t = some (cs.eraseIdx i, i, c) := by
  obtain ⟨hi, -, -⟩ := List.findIdx?_eq_some_iff_getElem.mp (findFrom_zero cs t ▸ h)
  refine ⟨cs[i], List.getElem?_eq_getElem hi, ?_⟩
  simp [removeFirst, h, hi, List.eraseIdx_eq_take_drop_succ]

/-- The search is `remove`'s only way to fail (45_container_ops.md R278). -/
theorem removeFirst_eq_none_iff {cs : List Chunk} {t : Word} : removeFirst cs t = none ↔ findFrom cs t 0 = none := by
  cases hfind : findFrom cs t 0 with
  | none => simp [removeFirst, hfind]
  | some i =>
    obtain ⟨c, -, hremove⟩ := removeFirst_of_findFrom hfind
    simp [hremove]

theorem fnCtRemove_chunkNotFound_iff {a : Arch} {t : Word} :
    (fnCtRemove a t).rsp.st = .chunkNotFound ↔ ∃ cs, a.cont = some cs ∧ removeFirst cs t = none := by
  cases hcont : a.cont with
  | none => simp [fnCtRemove, hcont, Arch.answer, mkRsp]
  | some cs => cases hremove : removeFirst cs t <;> simp [fnCtRemove, hcont, hremove, Arch.answer, mkRsp]

theorem fnCtFind_notFound_iff {a : Arch} {t pos : Word} :
    (fnCtFind a t pos).rsp.st = .notFound ↔ ∃ cs, a.cont = some cs ∧ findFrom cs t pos.toNat = none := by
  cases hcont : a.cont with
  | none => simp [fnCtFind, hcont, Arch.answer, mkRsp]
  | some cs => cases hfind : findFrom cs t pos.toNat <;> simp [fnCtFind, hcont, hfind, Arch.answer, mkRsp]

/-- Settles O47: both commands fail exactly when there is a container and the search in it from position 0 finds nothing. -/
theorem removeFailsExactlyWhenFindDoes : Obligations.RemoveFailsExactlyWhenFindDoes := by
  refine ⟨fun cs t => removeFirst_eq_none_iff, fun a t => ?_⟩
  simp only [fnCtRemove_chunkNotFound_iff, fnCtFind_notFound_iff, removeFirst_eq_none_iff]
  rfl

/-! ## Count -/

theorem decode_ctCount {w : CmdWord} (h : cmdOp w = opCtCount) : decode (.cmd w) = .ok .ctCount := by
  simp only [decode, decodeCmd, h]
  rfl

theorem exec_ctCount (s : State) : exec .ctCount s = .next ((s.accept opCtCount).complete (fnCtCount s.arch)) := rfl

theorem fnCtCount_of_none {a : Arch} (h : a.cont = none) : fnCtCount a = a.answer (mkRsp .noContainer) := by
  rw [fnCtCount, h]

theorem fnCtCount_of_some {a : Arch} {cs : List Chunk} (h : a.cont = some cs) :
    fnCtCount a = a.answer (mkRsp .ok (idx := idxOf cs.length) (val := idxOf cs.length)) := by
  rw [fnCtCount, h]

/-- Settles O48: with and without a container the command only answers. -/
theorem ctCountAnswers : Obligations.CtCountAnswers := by
  refine ⟨fun w => decode_ctCount, fun s => ?_⟩
  rw [exec_ctCount]
  cases hcont : s.cont with
  | none => rw [fnCtCount_of_none hcont, complete_answer]; rfl
  | some cs => rw [fnCtCount_of_some hcont, complete_answer]; rfl

end Sys2Proof.Machine
end

section
/-! PROOF. The system commands (46_system.md R293 to R295). The decoder reads the opcode and, in the arms whose opcodes use them,
`tc` or `pos` (`decodeCmd_congr`); it gives `UNDEFINED_OP` exactly outside the opcode map (`decodeCmd_eq_undefinedOp_iff`). -/
namespace Sys2Proof.Machine

/-! ## What the decoder reads -/

/-- The decoded command depends on the fields its opcode uses and on no other (46_system.md R295): two words with one opcode reach
the same arm, and an arm with a field has its opcode in the list of that field. -/
theorem decodeCmd_congr {w w' : CmdWord} (hop : cmdOp w = cmdOp w')
    (htc : cmdOp w ∈ [opTyCheck, opTyProps, opCkMake, opCtFind, opCtRemove] → cmdTc w = cmdTc w')
    (hpos : cmdOp w ∈ [opCtInsert, opCtFind, opCtGet] → cmdPos w = cmdPos w') : decodeCmd w = decodeCmd w' := by
  simp only [decodeCmd, ← hop]
  repeat' refine ite_congr rfl (fun h => ?_) (fun _ => ?_)
  any_goals rfl
  all_goals simp [htc, hpos, h]

/-- `UNDEFINED_OP` is what is left when every opcode of the map has been tested (30_encoding.md R102, R103). -/
theorem decodeCmd_eq_undefinedOp_iff {w : CmdWord} {op : Byte} :
    decodeCmd w = .undefinedOp op ↔ cmdOp w ∉ definedOps ∧ cmdOp w = op := by
  simp [decodeCmd, definedOps, ite_eq_iff, and_assoc]

/-- Settles O4: both words decode to one command, which is `UNDEFINED_OP` for neither when the opcode is in the map, and the step
sees a word only through its decoding. -/
theorem unusedFieldsAreIgnored : Obligations.UnusedFieldsAreIgnored := by
  intro w w' hop htc hpos
  have hdec : decodeCmd w = decodeCmd w' := decodeCmd_congr hop htc hpos
  refine ⟨hdec, fun s rest hidle => ?_, fun hdefined op hundef => ?_⟩
  · have hstep (v : CmdWord) : step { s with cmd := v :: rest } = exec (decodeCmd v) { s with cmd := rest } :=
      step_of_idle_cons (s := { s with cmd := v :: rest }) hidle rfl
    rw [hstep, hstep, hdec]
  · exact (decodeCmd_eq_undefinedOp_iff.mp hundef).1 (hop ▸ hdefined)

/-! ## `NOP` and undefined opcodes -/

theorem decode_nop {w : CmdWord} (h : cmdOp w = opNop) : decode (.cmd w) = .ok .nop := by
  simp only [decode, decodeCmd, h]
  rfl

theorem exec_nop (s : State) : exec .nop s = .next (s.answered opNop (mkRsp .ok)) := rfl

theorem exec_undefinedOp (s : State) (op : Byte) :
    exec (.undefinedOp op) s = .next (s.answered op (mkRsp .badOpcode (val := op.setWidth 32))) := rfl

/-- Settles O15: both commands only answer, and a word outside the opcode map is run as `UNDEFINED_OP` with its opcode. -/
theorem nopAndUndefinedOpcodeAnswer : Obligations.NopAndUndefinedOpcodeAnswer := by
  refine ⟨fun _ => decode_nop, exec_nop, exec_undefinedOp, fun s w rest hidle hcmd hundef => ?_⟩
  have hdec : decodeCmd w = .undefinedOp (cmdOp w) := decodeCmd_eq_undefinedOp_iff.mpr ⟨hundef, rfl⟩
  rw [step_of_idle_cons hidle hcmd, hdec]
  exact exec_undefinedOp { s with cmd := rest } (cmdOp w)

end Sys2Proof.Machine
end

section
/-! PROOF. The decoder and the encoder (30_encoding.md R91, R92, R100 to R103; 10_state.md R42). A command word is read through its
opcode; a response word is five fields side by side, read back one by one (`extractLsb'_rspWord`); a chunk is no signature because its
length field is too small (`take_eight_chunkFields_ne_sig`). -/
namespace Sys2Proof.Machine

/-! ## Command words -/

/-- What a command word stands for is well formed: an undefined opcode is none of the map (46_system.md R295). -/
theorem wellFormed_decodeCmd (w : CmdWord) : (decodeCmd w).wellFormed = true := by
  have hcases : (decodeCmd w).wellFormed = true ∨ ∃ op, decodeCmd w = .undefinedOp op :=
    decodeCmd_rec (P := fun i => i.wellFormed = true ∨ ∃ op, i = .undefinedOp op) (fun i hi => by
      cases i
      case undefinedOp op => exact .inr ⟨op, rfl⟩
      case signature | chunk | token | rsp => cases hi { params := Config.defaultParams, cont := none, ck := none } []
      all_goals exact .inl rfl) w
  rcases hcases with hw | ⟨op, hw⟩
  · exact hw
  · obtain ⟨hnot, rfl⟩ := decodeCmd_eq_undefinedOp_iff.mp hw
    simpa [hw, Instr.wellFormed] using hnot

/-- A property of the second branch, and of the first where its condition holds, is one of the choice. -/
theorem of_ite_of_imp {α : Type} {P : α → Prop} {p : Prop} [Decidable p] {x y : α} (hx : p → P x) (hy : P y) :
    P (if p then x else y) := by
  split
  · exact hx ‹p›
  · exact hy

/-- Encoding a decoded command again keeps its opcode. -/
theorem cmdOp_encode_decodeCmd (w : CmdWord) : ∃ w', encode (decodeCmd w) = .cmd w' ∧ cmdOp w' = cmdOp w := by
  let P := fun i => ∃ w', encode i = .cmd w' ∧ cmdOp w' = cmdOp w
  change P (decodeCmd w)
  unfold decodeCmd
  dsimp only
  repeat' refine of_ite_of_imp (P := P) (fun h => ⟨_, rfl, (cmdOp_cmdWord ..).trans h.symm⟩) ?_
  exact ⟨_, rfl, cmdOp_cmdWord ..⟩

/-- Settles O3: the map is a list of 21 bytes; a word decodes to `UNDEFINED_OP` when every opcode of the map has been tested in vain,
and its encoding is built with the opcode that was tested. -/
theorem everyCommandWordDecodes : Obligations.EveryCommandWordDecodes := by
  refine ⟨rfl, by decide, fun w => ⟨decodeCmd w, rfl, wellFormed_decodeCmd w, ?_, cmdOp_encode_decodeCmd w⟩⟩
  rw [decodeCmd_eq_undefinedOp_iff, and_iff_left rfl]

/-! ## Token and response words -/

/-- A field of a word, read back from its own place. -/
theorem extractLsb'_field_same {n w k : Nat} (x : BitVec w) (h : k + w ≤ n) : (x.setWidth n <<< k).extractLsb' k w = x := by
  apply BitVec.eq_of_getLsbD_eq
  intro i hi
  simp [hi, show k + i < n by omega]

/-- A field of a word gives nothing to the places beside it. -/
theorem extractLsb'_field_beside {n w k : Nat} (x : BitVec w) {start len : Nat} (h : start + len ≤ k ∨ k + w ≤ start) :
    (x.setWidth n <<< k).extractLsb' start len = 0 := by
  apply BitVec.eq_of_getLsbD_eq
  intro i hi
  rcases h with h | h
  · simp [show start + i < k by omega]
  · simp [BitVec.getLsbD_of_ge x (start + i - k) (by omega)]

theorem decodeTok_tokFields (eob : Bool) (data : Byte) : decodeTok (tokFields eob data) = .token eob data := by
  have hbit : (tokFields eob data).getLsbD 8 = eob := by cases eob <;> simp [tokFields]
  have hfields : tokFields eob data = (BitVec.ofBool eob).setWidth 9 <<< 8 ||| data.setWidth 9 <<< 0 := by
    cases eob <;> simp [tokFields]
  have hdata : (tokFields eob data).extractLsb' 0 8 = data := by
    rw [hfields, BitVec.extractLsb'_or, extractLsb'_field_beside _ (.inl le_rfl), extractLsb'_field_same _ (by decide),
      BitVec.ofNat_eq_ofNat, BitVec.zero_or]
  rw [decodeTok, hbit, hdata]

theorem statusOfCode_statusCode (st : Status) : statusOfCode (statusCode st) = some st := by
  cases st <;> rfl

/-- The five fields of a record are read back from its word (10_state.md R42). -/
theorem rspWord_fields (r : Rsp) :
    (rspWord r).extractLsb' 136 8 = statusCode r.st ∧ (rspWord r).extractLsb' 128 8 = r.sub
      ∧ (rspWord r).extractLsb' 96 32 = r.idx ∧ (rspWord r).extractLsb' 32 64 = r.off
      ∧ (rspWord r).extractLsb' 0 32 = r.val := by
  have hval : r.val.setWidth 144 = r.val.setWidth 144 <<< 0 := (BitVec.shiftLeft_zero _).symm
  rw [rspWord, hval]
  simp only [BitVec.extractLsb'_or]
  refine ⟨?_, ?_, ?_, ?_, ?_⟩
  all_goals simp [extractLsb'_field_same, extractLsb'_field_beside, -BitVec.shiftLeft_zero]

theorem decodeRsp_rspWord {r : Rsp} (h : (subsOf r.st).contains r.sub = true) : decodeRsp (rspWord r) = .ok (.rsp r) := by
  obtain ⟨hst, hsub, hidx, hoff, hval⟩ := rspWord_fields r
  simp only [decodeRsp, hst, hsub, hidx, hoff, hval, statusOfCode_statusCode, h, if_true]

/-! ## Stream elements -/

/-- The signature's first byte would make a length above `MAX_LEN`, so no chunk starts with it. -/
theorem take_eight_chunkFields_ne_sig {ty : Word} {data : List Byte} {x : Word} (h : data.length ≤ Config.maxLen) :
    (chunkFields ty data x).take 8 ≠ Config.sig := by
  intro hsig
  have hlen : wordOfBytes (chunkFields ty data x) = BitVec.ofNat 32 data.length := by
    simpa using wordOfBytes_chunkFields ty data x []
  have hbad : wordOfBytes (chunkFields ty data x) = 0x89504E47#32 := by
    rw [← List.take_append_drop 8 (chunkFields ty data x), hsig]
    exact wordOfBytes_four ..
  have hval := congrArg BitVec.toNat (hlen.symm.trans hbad)
  rw [toNat_ofNat_length h] at hval
  rw [hval] at h
  exact absurd h (by decide)

theorem decodeStream_chunkFields {ty : Word} {data : List Byte} (h : data.length ≤ Config.maxLen) :
    decodeStream (chunkFields ty data (chunkCrc ⟨ty, data⟩)) = .ok (.chunk ty data (chunkCrc ⟨ty, data⟩), []) := by
  have hparse : parseChunk (chunkFields ty data (chunkCrc ⟨ty, data⟩)) 0 = .ok ⟨ty, data⟩ (12 + data.length) := by
    rw [parseChunk, parseChunkWith_chunkFields (c := ⟨ty, data⟩) (rest := []) (List.append_nil _).symm h rfl, if_pos rfl, Nat.zero_add]
  rw [decodeStream, if_neg (take_eight_chunkFields_ne_sig h), hparse]
  simp

/-- Settles O2: each row is read back by the decoder of its form. -/
theorem decodeEncodeRoundTrip : Obligations.DecodeEncodeRoundTrip := by
  intro i hwf
  cases i
  case token eob data => exact congrArg Except.ok (decodeTok_tokFields eob data)
  case rsp r => exact decodeRsp_rspWord hwf
  case signature => rfl
  case chunk ty data crc =>
    obtain ⟨hlen, hcrc⟩ : data.length ≤ Config.maxLen ∧ crc = chunkCrc ⟨ty, data⟩ := by simpa [Instr.wellFormed] using hwf
    rw [encode, decode, hcrc, decodeStream_chunkFields hlen]
  case undefinedOp op =>
    have hundef : cmdOp (cmdWord op 0 0) ∉ definedOps ∧ cmdOp (cmdWord op 0 0) = op :=
      ⟨by simpa [Instr.wellFormed] using hwf, cmdOp_cmdWord ..⟩
    rw [encode, decode, decodeCmd_eq_undefinedOp_iff.mpr hundef]
  all_goals
    simp only [encode, decode, decodeCmd, cmdOp_cmdWord, cmdTc_cmdWord, cmdPos_cmdWord]
    rfl

open Sys2Proof.Tests in
/-- Settles O1, by computation; the stream bytes of the signature and of the empty `IEND` chunk are read back as O2 has it. -/
theorem sampleWordsDecode : Obligations.SampleWordsDecode :=
  ⟨test_decode_nop, test_decode_crcCalc, test_decode_tyCheck, test_decode_ckMake, by decide, by decide, by decide, by decide,
    by decide, by decide, by decide, by decide, by decide +kernel⟩

end Sys2Proof.Machine
end

section
/-! PROOF. Tokens and stream elements (43_framer.md R210 to R225, 42_chunk.md R174, 40_crc.md R141, 46_system.md R291): what one token
does in each input phase, and what the signature and a chunk element do byte by byte. -/
namespace Sys2Proof.Machine

/-! ## The step -/

/-- Settles O5: in `IDLE` a step fetches the head of `CMD`. -/
theorem stepRunsDecodedCommand : Obligations.StepRunsDecodedCommand := by
  intro s w rest i hidle hcmd hdec
  obtain rfl : decodeCmd w = i := Except.ok.inj hdec
  exact step_of_idle_cons hidle hcmd

/-- Settles O6: the four kinds of step by the phase and the head of its channel. -/
theorem stepTakesOrEmitsOrWaits : Obligations.StepTakesOrEmitsOrWaits := by
  refine ⟨fun s w rest i hin hdin hdec => ?_, fun s => step_of_emitter, fun s => step_of_idle_nil, fun s => step_of_input_nil⟩
  obtain rfl : decodeTok w = i := Except.ok.inj hdec
  exact step_of_input_cons hin hdin

/-! ## One token as an instruction -/

theorem exec_token_byte (s : State) (b : Byte) : exec (.token false b) s = takeToken (.b b) (tokFields false b) s := rfl

theorem exec_token_eob (s : State) (d : Byte) : exec (.token true d) s = takeToken .eob (tokFields true d) s := rfl

/-- A byte inside the field of a counting phase that the running command uses. -/
theorem exec_byte_counted {s : State} (b : Byte) (hin : s.ph.isInput = true) (hused : s.ph.usedBy s.op = true)
    (hcnt : s.cnt.toNat < s.fieldSize) (hoff : s.off ≠ Config.maxOff) : exec (.token false b) s = .next (s.takeCounted b) :=
  take_counted b _ hin hused hcnt hoff

/-- The counter reaches the end `m` of its field from the value before it only. -/
theorem cnt_succ_eq_iff {x n m : Word} (h : m = n + 1) : x + 1 = m ↔ x = n := by
  rw [h]
  exact BitVec.add_left_inj 1

theorem fieldSize_of_len {s : State} (h : s.ph = .len) : s.fieldSize = 4 := by rw [State.fieldSize, h]
theorem fieldSize_of_type {s : State} (h : s.ph = .type) : s.fieldSize = 4 := by rw [State.fieldSize, h]
theorem fieldSize_of_crc {s : State} (h : s.ph = .crc) : s.fieldSize = 4 := by rw [State.fieldSize, h]
theorem fieldSize_of_sig {s : State} (h : s.ph = .sig) : s.fieldSize = 8 := by rw [State.fieldSize, h]
theorem fieldSize_of_data {s : State} (h : s.ph = .data) : s.fieldSize = s.len.toNat := by rw [State.fieldSize, h]

section
variable {s : State} (b : Byte)

theorem takeCounted_of_sig (h : s.ph = .sig) : s.takeCounted b = s.takeSig b := by rw [State.takeCounted, h]
theorem takeCounted_of_len (h : s.ph = .len) : s.takeCounted b = s.takeLen b := by rw [State.takeCounted, h]
theorem takeCounted_of_type (h : s.ph = .type) : s.takeCounted b = s.takeType b := by rw [State.takeCounted, h]
theorem takeCounted_of_data (h : s.ph = .data) : s.takeCounted b = s.takeData b := by rw [State.takeCounted, h]
theorem takeCounted_of_crc (h : s.ph = .crc) : s.takeCounted b = s.takeCrc b := by rw [State.takeCounted, h]

end

/-- Without a limit on the payload bytes every total fits (20_memory.md R81). -/
theorem capFits_of_unbounded {p : Config.Params} (h : p.capBytes = none) (n : Nat) : capFits p n = true := by
  rw [capFits, h]; rfl

/-- A length is above `MAX_LEN` exactly when bit 31 is set (43_framer.md R215). -/
theorem maxLen_lt_toNat_iff (v : Word) : Config.maxLen < v.toNat ↔ v.getLsbD 31 = true := by
  have hmsb : v.getLsbD 31 = decide (2 ^ 31 ≤ v.toNat) := BitVec.msb_eq_decide v
  rw [hmsb, decide_eq_true_iff]
  exact Nat.lt_iff_add_one_le

theorem takeSig_eq (s : State) (b : Byte) : s.takeSig b =
    if Config.sig[s.cnt.toNat]? = some b then
      if s.cnt = 7 then { s with off := s.off + 1, ph := .len, cnt := 0, len := 0, cstart := s.off + 1 }
      else { s with off := s.off + 1, cnt := s.cnt + 1 }
    else
      { s with off := s.off + 1, cnt := s.cnt + 1, ph := .drain
               perr := some { st := .invalidSignature, sub := 2, idx := 0, off := 0 } } := by
  have hlast : s.tick.cnt = 8 ↔ s.cnt = 7 := cnt_succ_eq_iff rfl
  simp only [State.takeSig, hlast]
  rfl

/-- Settles O51: the byte is inside the field, and the counter reaches 8 from 7. -/
theorem sigTokenStep : Obligations.SigTokenStep := by
  intro s b hph hop hcnt hoff
  rw [exec_byte_counted b (by rw [hph]; rfl) (by rw [hph, hop]; rfl) (by rwa [fieldSize_of_sig hph]) hoff, ← takeSig_eq,
    takeCounted_of_sig b hph]

/-- The length field complete, without a limit on the payload bytes (43_framer.md R215). -/
theorem lenComplete_of_unbounded {s : State} (h : s.params.capBytes = none) : s.lenComplete =
    if s.len.getLsbD 31 then s.toDrain (s.chunkError .malformedChunk subLengthTooLarge)
    else { s with ph := .type, cnt := 0, tc := 0, crc := Config.crcInit, pbuf := [] } := by
  simp only [State.lenComplete, maxLen_lt_toNat_iff, capFits_of_unbounded h]
  rfl

/-- `LEN`, `B(b)` by whether the byte is the fourth. -/
theorem takeLen_eq (s : State) (b : Byte) : s.takeLen b =
    if s.cnt = 3 then State.lenComplete { s with len := shiftIn s.len b, cnt := 4, off := s.off + 1 }
    else { s with len := shiftIn s.len b, cnt := s.cnt + 1, off := s.off + 1 } := by
  have hlast : s.cnt + 1 = 4 ↔ s.cnt = 3 := cnt_succ_eq_iff rfl
  simp only [State.takeLen, State.tick, hlast]
  split
  next h => rw [hlast.mpr h]
  next => rfl

/-- Settles O52. -/
theorem lenTokenStep : Obligations.LenTokenStep := by
  intro s b hph hop hcnt hoff hcap
  obtain ⟨hused, hin⟩ := framing_used hop (.inl hph)
  rw [exec_byte_counted b hin hused (by rwa [fieldSize_of_len hph]) hoff, takeCounted_of_len b hph, takeLen_eq,
    lenComplete_of_unbounded (by exact hcap)]
  rfl

theorem takeType_eq_ite (s : State) (b : Byte) : s.takeType b =
    let s1 := { s with off := s.off + 1, tc := shiftIn s.tc b, crc := crcUpd s.crc b }
    if s.cnt = 3 then { s1 with cnt := 0, rxcrc := 0, ph := if s.len = 0 then .crc else .data }
    else { s1 with cnt := s.cnt + 1 } := by
  have hlast : s.cnt + 1 = 4 ↔ s.cnt = 3 := cnt_succ_eq_iff rfl
  simp only [State.takeType, State.tick, hlast]
  rfl

theorem takeData_eq {s : State} (h : s.cnt.toNat < s.len.toNat) (b : Byte) : s.takeData b =
    let s1 := { s with off := s.off + 1, pbuf := s.pbuf ++ [b], crc := crcUpd s.crc b }
    if s.cnt.toNat + 1 = s.len.toNat then { s1 with cnt := 0, rxcrc := 0, ph := .crc } else { s1 with cnt := s.cnt + 1 } := by
  have hlast : s.cnt + 1 = s.len ↔ s.cnt.toNat + 1 = s.len.toNat := by
    rw [← BitVec.toNat_inj, BitVec.toNat_add_of_lt (by have := s.len.isLt; simp; omega)]
    rfl
  simp only [State.takeData, State.tick, hlast]
  rfl

/-- Settles O53: both phases are used by both commands, and the byte is inside the field. -/
theorem typeAndDataTokenStep : Obligations.TypeAndDataTokenStep := by
  intro s b hop hoff
  refine ⟨fun hph hcnt => ?_, fun hph hcnt => ?_⟩
  · obtain ⟨hused, hin⟩ := framing_used hop (.inr (.inl hph))
    rw [exec_byte_counted b hin hused (by rwa [fieldSize_of_type hph]) hoff, takeCounted_of_type b hph, takeType_eq_ite]
    rfl
  · obtain ⟨hused, hin⟩ := framing_used hop (.inr (.inr (.inl hph)))
    rw [exec_byte_counted b hin hused (by rwa [fieldSize_of_data hph]) hoff, takeCounted_of_data b hph, takeData_eq hcnt]

/-- `CRC`, `B(b)` by whether the byte is the fourth. -/
theorem takeCrc_eq (s : State) (b : Byte) : s.takeCrc b =
    if s.cnt = 3 then State.crcComplete { s with rxcrc := shiftIn s.rxcrc b, cnt := 4, off := s.off + 1 }
    else { s with rxcrc := shiftIn s.rxcrc b, cnt := s.cnt + 1, off := s.off + 1 } := by
  have hlast : s.cnt + 1 = 4 ↔ s.cnt = 3 := cnt_succ_eq_iff rfl
  simp only [State.takeCrc, State.tick, hlast]
  split
  next h => rw [hlast.mpr h]
  next => rfl

/-- The chunk framed, with room for it in the store (43_framer.md R219). -/
theorem crcComplete_of_room {s : State} (h : s.stg.length < s.params.capChunks.toNat) : s.crcComplete =
    if s.rxcrc = s.crc ^^^ Config.crcXorOut then
      if s.op = opCtParse then
        { s with stg := s.stg ++ [s.framed], ph := .len, cnt := 0, len := 0, cstart := s.off }
      else { s with ck := some s.framed, cend := s.off, ph := .trail }
    else s.toDrain (s.chunkError .malformedChunk subCrcMismatch) := by
  have hroom : capFull s.params s.stg.length = false := decide_eq_false (Nat.not_le.mpr h)
  simp only [State.crcComplete, hroom]
  rfl

/-- Settles O54. -/
theorem crcTokenStep : Obligations.CrcTokenStep := by
  intro s b hph hop hcnt hoff hroom
  obtain ⟨hused, hin⟩ := framing_used hop (.inr (.inr (.inr hph)))
  rw [exec_byte_counted b hin hused (by rwa [fieldSize_of_crc hph]) hoff, takeCounted_of_crc b hph, takeCrc_eq,
    crcComplete_of_room (by exact hroom)]
  rfl

/-! ## The loader phase -/

/-- A token in `LOAD`, by the command that loads (42_chunk.md R174, 40_crc.md R141). -/
theorem exec_token_load {s : State} (hph : s.ph = .load) (hop : s.op = opCkMake ∨ s.op = opCrcCalc) :
    (∀ b, exec (.token false b) s = .next (if s.op = opCkMake then s.takeMake b else s.takeCalc b))
      ∧ ∀ d, exec (.token true d) s = .next s.loadDone := by
  have hin : s.ph.isInput = true := by rw [hph]; rfl
  have hused : s.ph.usedBy s.op = true := by rcases hop with h | h <;> rw [hph, h] <;> rfl
  refine ⟨fun b => ?_, fun d => ?_⟩
  · rw [exec_token_byte, takeToken_byte hin hused, takeByte, hph]
  · rw [exec_token_eob, takeToken_eob hin hused, takeEob, hph]

theorem takeMake_of_unbounded {s : State} (hcap : s.params.capBytes = none) (hoff : s.off ≠ Config.maxOff) (b : Byte) :
    s.takeMake b =
      if Config.maxLen ≤ s.len.toNat then s.toDrain { st := .lengthOverflow, sub := 0, idx := 0, off := 0 }
      else { s with pbuf := s.pbuf ++ [b], crc := crcUpd s.crc b, len := s.len + 1, off := s.off + 1 } := by
  simp [State.takeMake, hoff, capFits_of_unbounded hcap]

/-- Settles O55: without a limit on the payload bytes and with room in `off` only `MAX_LEN` is tested. -/
theorem loadTokenStep : Obligations.LoadTokenStep := by
  intro s d b hph hcap hoff
  refine ⟨fun hop => ?_, fun hop => ?_⟩
  · have hmake : s.op = opCkMake := hop
    obtain ⟨hbyte, heob⟩ := exec_token_load hph (.inl hop)
    rw [hbyte, heob, if_pos hmake, takeMake_of_unbounded hcap hoff, State.loadDone, if_pos hmake]
    exact ⟨rfl, rfl⟩
  · have hmake : ¬ s.op = opCkMake := by rw [hop]; decide
    obtain ⟨hbyte, heob⟩ := exec_token_load hph (.inr hop)
    rw [hbyte, heob, if_neg hmake, State.takeCalc, if_neg (show s.off ≠ Config.maxOff from hoff),
      State.loadDone, if_neg hmake]
    exact ⟨rfl, rfl⟩

/-! ## `EOB` and the tokens that are ignored -/

theorem exec_eob_of_used {s : State} (hin : s.ph.isInput = true) (hused : s.ph.usedBy s.op = true) (d : Byte) :
    exec (.token true d) s = takeEob s := takeToken_eob hin hused _

/-- `DRAIN` serves the four commands that take data (43_framer.md R222). -/
theorem drain_used {s : State} (hph : s.ph = .drain) (hop : s.op ∈ [opCtParse, opCkParse, opCkMake, opCrcCalc]) :
    s.ph.usedBy s.op = true ∧ s.ph.isInput = true := by
  simp only [List.mem_cons, List.not_mem_nil, or_false] at hop
  rcases hop with h | h | h | h <;> simp [hph, h, Phase.usedBy, Phase.isInput]

/-- Inside a chunk `EOB` truncates it (43_framer.md R221). -/
theorem takeEob_inside {s : State} (h : (s.ph = .len ∧ ¬(s.op = opCtParse ∧ s.cnt = 0)) ∨ s.ph = .type ∨ s.ph = .data ∨ s.ph = .crc) :
    takeEob s = .next s.truncated := by
  rcases h with ⟨hph, hnot⟩ | hph | hph | hph
  · rw [takeEob, hph]
    dsimp only
    rw [if_neg (by simpa using hnot)]
  all_goals rw [takeEob, hph]

theorem takeEob_drain {s : State} {e : PendingError} (hph : s.ph = .drain) (he : s.perr = some e) :
    takeEob s = .next (s.respond (pendingRsp e)) := by
  simp [takeEob, hph, he]

/-- Settles O56: each phase has its own rule, and inside a chunk the rule is the truncation. -/
theorem eobTokenStep : Obligations.EobTokenStep := by
  intro s d
  refine ⟨fun hph hop => ?_, fun hph hop hcnt => ?_, fun h => ?_, fun hph hop => ?_, fun hph hop e he => ?_⟩
  · rw [exec_eob_of_used (by rw [hph]; rfl) (by rw [hph, hop]; rfl), takeEob, hph]
    rfl
  · obtain ⟨hused, hin⟩ := framing_used (.inl hop) (.inl hph)
    have hcommit : (decide (s.op = opCtParse) && decide (s.cnt = 0)) = true := by rw [hop, hcnt]; rfl
    rw [exec_eob_of_used hin hused, takeEob, hph]
    dsimp only
    rw [if_pos hcommit]
    rfl
  · have hframing : Framing s := by
      rcases h with ⟨-, h | ⟨h, -⟩⟩ | ⟨-, h | h⟩
      exacts [.inr h, .inl h, .inr h, .inl h]
    have hinside : (s.ph = .len ∧ ¬(s.op = opCtParse ∧ s.cnt = 0)) ∨ s.ph = .type ∨ s.ph = .data ∨ s.ph = .crc := by
      rcases h with ⟨hph, h | ⟨-, h⟩⟩ | ⟨hph, -⟩
      · exact .inl ⟨hph, fun hct => absurd (h.symm.trans hct.1) (by decide)⟩
      · exact .inl ⟨hph, fun hct => h hct.2⟩
      · exact .inr hph
    obtain ⟨hused, hin⟩ := framing_used hframing (hinside.imp_left And.left)
    rw [exec_eob_of_used hin hused, takeEob_inside hinside]
    rfl
  · rw [exec_eob_of_used (by rw [hph]; rfl) (by rw [hph, hop]; rfl), takeEob, hph]
    rfl
  · obtain ⟨hused, hin⟩ := drain_used hph hop
    rw [exec_eob_of_used hin hused, takeEob_drain hph he]
    rfl

theorem takeByte_ignored {s : State} (h : s.ph = .drain ∨ s.ph = .trail) (b : Byte) : takeByte b s = .next s := by
  rcases h with h | h <;> rw [takeByte, h]

/-- Settles O57: `DRAIN` and `TRAIL` discard a byte; outside the input phases the token's own word is put back. -/
theorem ignoredTokenStep : Obligations.IgnoredTokenStep := by
  intro s b
  refine ⟨fun hph hop => ?_, fun hph hop => ?_, fun eob hin => ⟨tokFields eob b, ?_, ?_⟩⟩
  · obtain ⟨hused, hin⟩ := drain_used hph hop
    rw [exec_token_byte, takeToken_byte hin hused, takeByte_ignored (.inl hph)]
  · rw [exec_token_byte, takeToken_byte (by rw [hph]; rfl) (by rw [hph, hop]; rfl), takeByte_ignored (.inr hph)]
  · exact congrArg Except.ok (decodeTok_tokFields eob b)
  · exact takeToken_waits hin _ _

/-! ## Stream elements -/

/-- Bytes met inside the signature, `p` being what is left of it: one differs and the rest is drained, or they end inside it, or they
go on after it (43_framer.md R211 to R213). -/
theorem feed_sig {p : List Byte} (hp : p ≠ []) (bs : List Byte) {s : State} (hph : s.ph = .sig) (hop : s.op = opCtParse)
    (hleft : Config.sig.drop s.cnt.toNat = p) (hroom : s.off.toNat + p.length < 2 ^ 64) :
    (bs.take p.length ≠ p.take bs.length ∧ ∃ t, feedBytes bs s = .next t ∧ Keep s t ∧ t.ck = s.ck ∧ t.ph = .drain
        ∧ t.perr = some { st := .invalidSignature, sub := subSigMismatch, idx := 0, off := 0 })
      ∨ (bs.take p.length = p.take bs.length ∧ bs.length < p.length
        ∧ ∃ t, feedBytes bs s = .next t ∧ Keep s t ∧ t.ck = s.ck ∧ t.ph = .sig)
      ∨ ∃ rest, bs = p ++ rest ∧ feedBytes bs s = feedBytes rest
          { s with off := s.off + BitVec.ofNat 64 p.length, ph := .len, cnt := 0, len := 0
                   cstart := s.off + BitVec.ofNat 64 p.length } := by
  induction p generalizing s bs with
  | nil => exact absurd rfl hp
  | cons x p ih =>
    cases bs with
    | nil => exact .inr (.inl ⟨rfl, Nat.succ_pos _, s, rfl, Keep.refl s, rfl, hph⟩)
    | cons b bs =>
      have hsize : 8 - s.cnt.toNat = p.length + 1 := by simpa [Config.sig] using congrArg List.length hleft
      have hroom' : s.off.toNat + (p.length + 1) < 2 ^ 64 := hroom
      have hx : Config.sig[s.cnt.toNat]? = some x := by
        rw [← List.head?_drop, hleft]; rfl
      have hoff : s.off ≠ Config.maxOff := by
        simpa using off_add_ne_max (x := s.off) 0 (n := (x :: p).length) (Nat.succ_pos _) hroom
      have hstep : feedBytes (b :: bs) s = feedBytes bs (s.takeSig b) := by
        rw [feed_one b bs (by rw [hph]; rfl) (by rw [hph, hop]; rfl) (by rw [fieldSize_of_sig hph]; omega) hoff,
          takeCounted_of_sig b hph]
      rw [hstep, takeSig_eq, hx]
      by_cases hb : x = b
      · subst hb
        rw [if_pos rfl]
        by_cases hlast : p = []
        · subst hlast
          have h7 : s.cnt = 7 := BitVec.eq_of_toNat_eq (by simp at hsize ⊢; omega)
          rw [if_pos h7]
          exact .inr (.inr ⟨bs, rfl, rfl⟩)
        · have hpos : 0 < p.length := List.length_pos_iff.mpr hlast
          have h7 : s.cnt ≠ 7 := fun h => by rw [h, show (7 : Word).toNat = 7 from rfl] at hsize; omega
          have hcnt : (s.cnt + 1).toNat = s.cnt.toNat + 1 := by simp [BitVec.toNat_add]; omega
          have hoff1 : (s.off + 1).toNat = s.off.toNat + 1 := by
            simp [BitVec.toNat_add]; omega
          have hroom1 : (s.off + 1).toNat + p.length < 2 ^ 64 := by omega
          have hleft' : Config.sig.drop (s.cnt + 1).toNat = p := by
            rw [hcnt, ← List.drop_drop, hleft]; rfl
          rw [if_neg h7]
          have hrest := ih hlast bs (s := { s with off := s.off + 1, cnt := s.cnt + 1 }) hph hop hleft' hroom1
          simp only [BitVec.add_assoc, ← ofNat_succ_off] at hrest
          rcases hrest with ⟨hne, t, ht, hkeep, h⟩ | ⟨heq, hlt, t, ht, hkeep, h⟩ | ⟨rest, rfl, ht⟩
          · exact .inl ⟨by simpa using hne, t, ht, { hkeep with }, h⟩
          · exact .inr (.inl ⟨by simpa using heq, Nat.succ_lt_succ hlt, t, ht, { hkeep with }, h⟩)
          · exact .inr (.inr ⟨rest, rfl, ht⟩)
      · rw [if_neg (fun h => hb (Option.some.inj h))]
        refine .inl ⟨by simp [Ne.symm hb], _, feed_ignored bs _ (.inl rfl) (by simp [hop, Phase.usedBy]), ?_⟩
        exact ⟨⟨rfl, rfl, rfl, rfl, rfl, rfl, rfl⟩, rfl, rfl, rfl⟩

/-- Settles O59: the signature matches itself to its end; a record is a response. -/
theorem signatureAndResponseElements : Obligations.SignatureAndResponseElements := by
  refine ⟨fun s hph hop hcnt hoff => ?_, fun s r => rfl⟩
  have hoffer : exec .signature s = feedBytes Config.sig s := by
    rcases offerBytes_cases Config.sig s with ⟨-, h⟩ | ⟨h, -⟩
    · exact h
    · rw [hph] at h; cases h
  rw [hoffer]
  rcases feed_sig (p := Config.sig) (by decide) Config.sig hph hop (by rw [hcnt]; rfl) (by rw [hoff]; decide) with
    ⟨h, -⟩ | ⟨-, h, -⟩ | ⟨rest, hsig, hfeed⟩
  · exact absurd rfl h
  · exact absurd h (Nat.lt_irrefl _)
  · rw [hfeed, List.self_eq_append_right.mp hsig, hoff]
    rfl

end Sys2Proof.Machine
end

section
/-! PROOF. The commands as transactions: what the function level answers with and without a chunk or a container, the commands that
only answer, and the start rules of those that take or give a buffer (42_chunk.md, 44_serializer.md R246 to R249, 45_container_ops.md). -/
namespace Sys2Proof.Machine

/-! ## The function level, register by register -/

section
variable {a : Arch} {c : Chunk} {cs : List Chunk}

theorem fnCkSer_of_none (h : a.ck = none) : fnCkSer a = a.emit (mkRsp .noChunk) [] := by rw [fnCkSer, h]
theorem fnCkType_of_none (h : a.ck = none) : fnCkType a = a.answer (mkRsp .noChunk) := by rw [fnCkType, h]
theorem fnCkLen_of_none (h : a.ck = none) : fnCkLen a = a.answer (mkRsp .noChunk) := by rw [fnCkLen, h]
theorem fnCkCrc_of_none (h : a.ck = none) : fnCkCrc a = a.answer (mkRsp .noChunk) := by rw [fnCkCrc, h]
theorem fnCkData_of_none (h : a.ck = none) : fnCkData a = a.emit (mkRsp .noChunk) [] := by rw [fnCkData, h]
theorem fnCkText_of_none (h : a.ck = none) : fnCkText a = a.emit (mkRsp .noChunk) [] := by rw [fnCkText, h]

theorem fnCkType_of_some (h : a.ck = some c) : fnCkType a = a.answer (mkRsp .ok (val := c.ty)) := by rw [fnCkType, h]

theorem fnCkLen_of_some (h : a.ck = some c) : fnCkLen a = a.answer (mkRsp .ok (val := BitVec.ofNat 32 (chunkLen c))) := by
  rw [fnCkLen, h]

theorem fnCkCrc_of_some (h : a.ck = some c) : fnCkCrc a = a.answer (mkRsp .ok (val := chunkCrc c)) := by rw [fnCkCrc, h]

theorem fnCkSer_of_some (h : a.ck = some c) :
    fnCkSer a = a.emit (mkRsp .ok (off := offOf (12 + chunkLen c)) (val := chunkCrc c)) (serChunk c) := by
  rw [fnCkSer, h]

theorem fnCkData_of_some (h : a.ck = some c) : fnCkData a = a.emit (mkRsp .ok (off := offOf (chunkLen c))) c.data := by
  rw [fnCkData, h]

/-- A payload that is valid text is emitted as by `CK_DATA` (42_chunk.md R184). -/
theorem fnCkText_of_valid (h : a.ck = some c) (htext : textValid a.params.text c.data = true) :
    fnCkText a = a.emit (mkRsp .ok (off := offOf (chunkLen c))) c.data := by
  simp [fnCkText, h, htext]

theorem fnCkText_of_invalid (h : a.ck = some c) (htext : textValid a.params.text c.data = false) :
    fnCkText a = a.emit (mkRsp .invalidEncoding) [] := by
  simp [fnCkText, h, htext]

theorem fnCtSer_of_none (h : a.cont = none) : fnCtSer a = a.emit (mkRsp .noContainer) [] := by rw [fnCtSer, h]
theorem fnCtList_of_none (h : a.cont = none) : fnCtList a = a.emit (mkRsp .noContainer) [] := by rw [fnCtList, h]
theorem fnCtAppend_of_none (h : a.cont = none) : fnCtAppend a = a.answer (mkRsp .noContainer) := by simp [fnCtAppend, h]

theorem fnCtInsert_of_none (h : a.cont = none) (pos : Word) : fnCtInsert a pos = a.answer (mkRsp .noContainer) := by
  simp [fnCtInsert, h]

theorem fnCtFind_of_none (h : a.cont = none) (tc pos : Word) : fnCtFind a tc pos = a.answer (mkRsp .noContainer) := by
  rw [fnCtFind, h]

theorem fnCtGet_of_none (h : a.cont = none) (pos : Word) : fnCtGet a pos = a.answer (mkRsp .noContainer) := by rw [fnCtGet, h]

theorem fnCtRemove_of_none (h : a.cont = none) (tc : Word) : fnCtRemove a tc = a.answer (mkRsp .noContainer) := by
  rw [fnCtRemove, h]

theorem fnCtAppend_of_noChunk (h : a.cont = some cs) (hck : a.ck = none) : fnCtAppend a = a.answer (mkRsp .noChunk) := by
  rw [fnCtAppend, h, hck]

theorem fnCtInsert_of_noChunk (h : a.cont = some cs) (hck : a.ck = none) (pos : Word) :
    fnCtInsert a pos = a.answer (mkRsp .noChunk) := by
  rw [fnCtInsert, h, hck]

theorem fnCtSer_of_some (h : a.cont = some cs) :
    fnCtSer a = a.emit (mkRsp .ok (idx := idxOf cs.length) (off := offOf (serialize cs).length)) (serialize cs) := by
  rw [fnCtSer, h]

theorem fnCtList_of_some (h : a.cont = some cs) :
    fnCtList a = a.emit (mkRsp .ok (idx := idxOf cs.length) (off := offOf (4 * cs.length))) (typeBytes cs) := by
  rw [fnCtList, h]

end

/-! ## The arms of `exec` -/

theorem exec_ckType (s : State) : exec .ckType s = .next ((s.accept opCkType).complete (fnCkType s.arch)) := rfl
theorem exec_ckLen (s : State) : exec .ckLen s = .next ((s.accept opCkLen).complete (fnCkLen s.arch)) := rfl
theorem exec_ckCrc (s : State) : exec .ckCrc s = .next ((s.accept opCkCrc).complete (fnCkCrc s.arch)) := rfl

theorem exec_ckSer (s : State) : exec .ckSer s = .next (s.accept opCkSer).startCkSer := rfl

theorem exec_ckData (s : State) :
    exec .ckData s = .next ((s.accept opCkData).startEmit (rawStart (fnCkData s.arch)) (fnCkData s.arch)) := rfl

theorem exec_ckText (s : State) :
    exec .ckText s = .next ((s.accept opCkText).startEmit (rawStart (fnCkText s.arch)) (fnCkText s.arch)) := rfl

theorem exec_ckSer_of_none {s : State} (h : s.ck = none) :
    exec .ckSer s = .next ((s.accept opCkSer).complete (fnCkSer s.arch)) := by
  rw [exec_ckSer, State.startCkSer, State.accept_ck, h]
  rfl

theorem exec_ctSer (s : State) : exec .ctSer s = .next (s.accept opCtSer).startCtSer := rfl

theorem exec_ctSer_of_none {s : State} (h : s.cont = none) :
    exec .ctSer s = .next ((s.accept opCtSer).complete (fnCtSer s.arch)) := by
  rw [exec_ctSer, State.startCtSer, State.accept_cont, h]
  rfl

theorem exec_ctList (s : State) :
    exec .ctList s = .next ((s.accept opCtList).startEmit (rawStart (fnCtList s.arch)) (fnCtList s.arch)) := rfl

theorem exec_ctFind (tc pos : Word) (s : State) :
    exec (.ctFind tc pos) s = .next ((s.accept opCtFind).complete (fnCtFind s.arch tc pos)) := rfl

theorem exec_ctGet (pos : Word) (s : State) : exec (.ctGet pos) s = .next ((s.accept opCtGet).complete (fnCtGet s.arch pos)) := rfl

theorem exec_ctRemove (tc : Word) (s : State) :
    exec (.ctRemove tc) s = .next ((s.accept opCtRemove).complete (fnCtRemove s.arch tc)) := rfl

/-- A command that has an empty buffer to give answers with one `EOB`. -/
theorem complete_emit_nil (s : State) (op : Byte) (r : Rsp) :
    (s.accept op).complete (s.arch.emit r []) = { s.answered op r with dout := s.dout ++ [0x100#9] } := rfl

/-- A plain emitter with nothing to emit for a failure answers at once (44_serializer.md R249). -/
theorem startEmit_of_failure {t : Txn} (h : t.rsp.st ≠ .ok) (s : State) (p : Phase) : s.startEmit p t = s.complete t :=
  if_neg h

/-- A plain emitter starts its counters, in the phase that has a byte or the `EOB` to give (44_serializer.md R249). -/
theorem startEmit_of_ok {r : Rsp} (h : r.st = .ok) (s : State) (a : Arch) (out : List Byte) :
    s.startEmit (rawStart (a.emit r out)) (a.emit r out)
      = { s with ph := if out = [] then .sEob else .sRaw, cnt := 0, off := 0 } := by
  have hphase : rawStart (a.emit r out) = if out = [] then .sEob else .sRaw := by
    cases out <;> rfl
  rcases startEmit_cases s (rawStart (a.emit r out)) (a.emit r out) with ⟨-, hstart⟩ | ⟨hne, -⟩
  · rw [hstart, hphase]
    rfl
  · exact absurd h hne

/-- Settles O9. -/
theorem resetLeavesTheEmptyBlock : Obligations.ResetLeavesTheEmptyBlock :=
  ⟨⟨rfl, rfl, rfl, rfl, rfl, rfl, rfl⟩, fun _ => ⟨rfl, rfl, rfl, rfl, rfl, rfl, rfl, rfl⟩⟩

/-- Settles O26: with and without a chunk the three commands only answer. -/
theorem ckAccessorsAnswer : Obligations.CkAccessorsAnswer := by
  intro s
  rw [exec_ckType, exec_ckLen, exec_ckCrc]
  cases hck : s.ck with
  | none =>
    rw [fnCkType_of_none hck, fnCkLen_of_none hck, fnCkCrc_of_none hck]
    exact ⟨rfl, rfl, rfl⟩
  | some c =>
    rw [fnCkType_of_some hck, fnCkLen_of_some hck, fnCkCrc_of_some hck]
    exact ⟨rfl, rfl, rfl⟩

/-- Settles O14: each command tests its register first, and its transaction then only answers. -/
theorem emptyBlockAnswers : Obligations.EmptyBlockAnswers := by
  refine fun s => ⟨fun hck => ⟨fun i op hi => ?_, fun i op hi => ?_⟩, fun hcont => ⟨fun tc pos i op hi => ?_, fun i op hi => ?_⟩,
    fun cs hcont hck pos i op hi => ?_⟩
  all_goals simp only [List.mem_cons, List.not_mem_nil, or_false, Prod.mk.injEq] at hi
  · rcases hi with ⟨rfl, rfl⟩ | ⟨rfl, rfl⟩ | ⟨rfl, rfl⟩
    · rw [exec_ckType, fnCkType_of_none hck]; rfl
    · rw [exec_ckLen, fnCkLen_of_none hck]; rfl
    · rw [exec_ckCrc, fnCkCrc_of_none hck]; rfl
  · rcases hi with ⟨rfl, rfl⟩ | ⟨rfl, rfl⟩ | ⟨rfl, rfl⟩
    · rw [exec_ckSer_of_none hck, fnCkSer_of_none hck]; rfl
    · rw [exec_ckData, fnCkData_of_none hck]; rfl
    · rw [exec_ckText, fnCkText_of_none hck]; rfl
  · rcases hi with ⟨rfl, rfl⟩ | ⟨rfl, rfl⟩ | ⟨rfl, rfl⟩ | ⟨rfl, rfl⟩ | ⟨rfl, rfl⟩ | ⟨rfl, rfl⟩
    · rw [exec_ctAppend, fnCtAppend_of_none hcont]; rfl
    · rw [exec_ctInsert, fnCtInsert_of_none hcont]; rfl
    · rw [exec_ctFind, fnCtFind_of_none hcont]; rfl
    · rw [exec_ctGet, fnCtGet_of_none hcont]; rfl
    · rw [exec_ctRemove, fnCtRemove_of_none hcont]; rfl
    · rw [exec_ctCount, fnCtCount_of_none hcont]; rfl
  · rcases hi with ⟨rfl, rfl⟩ | ⟨rfl, rfl⟩
    · rw [exec_ctSer_of_none hcont, fnCtSer_of_none hcont]; rfl
    · rw [exec_ctList, fnCtList_of_none hcont]; rfl
  · rcases hi with ⟨rfl, rfl⟩ | ⟨rfl, rfl⟩
    · rw [exec_ctAppend, fnCtAppend_of_noChunk hcont hck]; rfl
    · rw [exec_ctInsert, fnCtInsert_of_noChunk hcont hck]; rfl

/-! ## Start rules -/

theorem exec_ckSer_of_some {s : State} {c : Chunk} (h : s.ck = some c) :
    exec .ckSer s = .next { (s.accept opCkSer).beginChunk c with off := 0 } := by
  rw [exec_ckSer, State.startCkSer, State.accept_ck, h]

theorem exec_ckData_of_some {s : State} {c : Chunk} (h : s.ck = some c) :
    exec .ckData s = .next { s with op := opCkData, ph := if c.data = [] then .sEob else .sRaw, cnt := 0, off := 0 } := by
  rw [exec_ckData, fnCkData_of_some h, startEmit_of_ok rfl]
  rfl

theorem exec_ckText_of_valid {s : State} {c : Chunk} (h : s.ck = some c) (htext : textValid s.params.text c.data = true) :
    exec .ckText s = .next { s with op := opCkText, ph := if c.data = [] then .sEob else .sRaw, cnt := 0, off := 0 } := by
  rw [exec_ckText, fnCkText_of_valid h htext, startEmit_of_ok rfl]
  rfl

theorem exec_ctSer_of_some {s : State} {cs : List Chunk} (h : s.cont = some cs) :
    exec .ctSer s = .next { (s.accept opCtSer).enter .sSig with sidx := 0, off := 0 } := by
  rw [exec_ctSer, State.startCtSer, State.accept_cont, h]
  rfl

theorem typeBytes_eq_nil_iff (cs : List Chunk) : typeBytes cs = [] ↔ cs = [] := by
  cases cs <;> simp [typeBytes, listTypes, be32]

theorem exec_ctList_of_some {s : State} {cs : List Chunk} (h : s.cont = some cs) :
    exec .ctList s = .next { s with op := opCtList, ph := if typeBytes cs = [] then .sEob else .sRaw, cnt := 0, off := 0 } := by
  rw [exec_ctList, fnCtList_of_some h, startEmit_of_ok rfl]
  rfl

/-- Settles O60: each acceptance and start rule by its own equation. -/
theorem startRules : Obligations.StartRules := by
  refine fun s tc => ⟨rfl, rfl, rfl, rfl, fun c => exec_ckSer_of_some, fun c => exec_ckData_of_some,
    fun c => exec_ckText_of_valid, fun cs => exec_ctSer_of_some, fun cs hcont => ?_⟩
  rw [exec_ctList_of_some hcont]
  simp only [typeBytes_eq_nil_iff]
  rfl

/-! ## Store operations -/

/-- `insertAt` at the count appends (45_container_ops.md R262). -/
theorem insertAt_length (cs : List Chunk) (c : Chunk) : insertAt cs cs.length c = cs ++ [c] := by
  simp [insertAt]

/-- Completing `storeAt`: refused for capacity, or stored (45_container_ops.md R262, R264). -/
theorem complete_storeAt {s : State} {c : Chunk} (hck : s.ck = some c) (op : Byte) (cs : List Chunk) (p : Nat) :
    (s.accept op).complete (storeAt s.arch cs c p) =
      if s.params.capChunks.toNat ≤ cs.length ∨ capFits s.params (s.arch.contBytes + c.data.length + c.data.length) = false then
        s.answered op (mkRsp .capacityExceeded (idx := idxOf cs.length))
      else { s.answered op (mkRsp .ok (idx := idxOf p) (val := idxOf (cs.length + 1))) with cont := some (insertAt cs p c) } := by
  have hbytes : s.arch.ckBytes = c.data.length := by simp [Arch.ckBytes, hck, chunkLen]
  rcases storeAt_cases s.arch cs c p with ⟨hstore, hfull⟩ | ⟨hstore, hroom, hfits⟩
  · rw [hbytes] at hfull
    rw [if_pos (by exact hfull), hstore]
    rfl
  · rw [hbytes] at hfits
    have hnot : ¬(s.params.capChunks.toNat ≤ cs.length
        ∨ capFits s.params (s.arch.contBytes + c.data.length + c.data.length) = false) := by
      rintro (h | h)
      · exact absurd hroom (Nat.not_lt.mpr h)
      · exact Bool.false_ne_true (h.symm.trans hfits)
    rw [if_neg hnot, hstore]
    rfl

theorem fnCtAppend_of_some {a : Arch} {cs : List Chunk} {c : Chunk} (h : a.cont = some cs) (hck : a.ck = some c) :
    fnCtAppend a = storeAt a cs c cs.length := by
  rw [fnCtAppend, h, hck]

theorem fnCtInsert_of_some {a : Arch} {cs : List Chunk} {c : Chunk} (h : a.cont = some cs) (hck : a.ck = some c) (pos : Word) :
    fnCtInsert a pos =
      if cs.length < pos.toNat then a.answer (mkRsp .badPosition (idx := idxOf cs.length)) else storeAt a cs c pos.toNat := by
  rw [fnCtInsert, h, hck]

/-- Settles O39: the registers are tested first, then the capacities. -/
theorem ctAppendAnswers : Obligations.CtAppendAnswers := by
  intro s
  rw [exec_ctAppend]
  cases hcont : s.cont with
  | none => rw [fnCtAppend_of_none hcont]; rfl
  | some cs =>
    cases hck : s.ck with
    | none => rw [fnCtAppend_of_noChunk hcont hck]; rfl
    | some c => rw [fnCtAppend_of_some hcont hck, complete_storeAt hck, insertAt_length]; rfl

/-- Settles O40: the registers are tested first, then the position, then the capacities. -/
theorem ctInsertAnswers : Obligations.CtInsertAnswers := by
  intro s pos
  rw [exec_ctInsert]
  cases hcont : s.cont with
  | none => rw [fnCtInsert_of_none hcont]; rfl
  | some cs =>
    cases hck : s.ck with
    | none => rw [fnCtInsert_of_noChunk hcont hck]; rfl
    | some c =>
      have hpos : idxOf pos.toNat = pos := (BitVec.ofNat_toNat ..).trans (BitVec.setWidth_eq _)
      rw [fnCtInsert_of_some hcont hck]
      by_cases hlt : cs.length < pos.toNat
      · rw [if_pos hlt]
        simp only [if_pos hlt]
        rfl
      · rw [if_neg hlt, complete_storeAt hck, hpos]
        simp only [if_neg hlt]
        rfl

theorem fnCtGet_of_outside {a : Arch} {cs : List Chunk} {pos : Word} (h : a.cont = some cs) (hget : cs[pos.toNat]? = none) :
    fnCtGet a pos = a.answer (mkRsp .badPosition (idx := idxOf cs.length)) := by
  simp [fnCtGet, h, hget]

theorem fnCtGet_of_inside {a : Arch} {cs : List Chunk} {c : Chunk} {pos : Word} (h : a.cont = some cs)
    (hget : cs[pos.toNat]? = some c) : fnCtGet a pos =
      if capFits a.params (a.contBytes + c.data.length) = false then
        a.answer (mkRsp .capacityExceeded (idx := idxOf cs.length))
      else
        { arch := { a with ck := some c }
          rsp := mkRsp .ok (idx := pos) (off := offOf c.data.length) (val := c.ty), out := none } := by
  simp [fnCtGet, h, hget, chunkLen]

/-- Settles O44: the register is tested first, then the position, then the capacity. -/
theorem ctGetAnswers : Obligations.CtGetAnswers := by
  intro s pos
  rw [exec_ctGet]
  cases hcont : s.cont with
  | none => rw [fnCtGet_of_none hcont]; rfl
  | some cs =>
    dsimp only
    cases hget : cs[pos.toNat]? with
    | none => rw [fnCtGet_of_outside hcont hget]; rfl
    | some c =>
      rw [fnCtGet_of_inside hcont hget]
      dsimp only
      by_cases hfits : capFits s.params (s.arch.contBytes + c.data.length) = false
      · rw [if_pos (by exact hfits), if_pos hfits]; rfl
      · rw [if_neg (by exact hfits), if_neg hfits]; rfl

end Sys2Proof.Machine
end

section
/-! PROOF. The loader commands at the token level (42_chunk.md R174, R190; 40_crc.md R140, R141): each takes its buffer byte by byte
(`feed_calc`, `feed_make`, `feed_chunk`), and the `EOB` gives the answer of the function level. A buffer that `off` cannot count is
cut where `off` reaches its maximum. -/
namespace Sys2Proof.Machine

/-! ## Buffers as runs of bytes -/

/-- The two states have the same parameters and the same channels. -/
structure SameQueues (s t : State) : Prop where
  params : t.params = s.params
  cmd : t.cmd = s.cmd
  din : t.din = s.din
  dout : t.dout = s.dout
  rsp : t.rsp = s.rsp

theorem SameQueues.trans {s t u : State} (h : SameQueues s t) (g : SameQueues t u) : SameQueues s u :=
  ⟨g.params.trans h.params, g.cmd.trans h.cmd, g.din.trans h.din, g.dout.trans h.dout, g.rsp.trans h.rsp⟩

theorem Keep.sameQueues {s t : State} (h : Keep s t) : SameQueues s t :=
  ⟨h.params, h.cmd, h.din, h.dout, h.rsp⟩

/-- A response on untouched channels completes a transaction that gives no buffer. -/
theorem SameQueues.completed {s u : State} {x : Txn} (h : SameQueues s u) (hcont : u.cont = x.arch.cont) (hck : u.ck = x.arch.ck)
    (hout : x.out = none) : Completed s x (u.respond x.rsp) := by
  constructor <;> simp [h.params, h.cmd, h.din, h.dout, h.rsp, hcont, hck, hout]

/-- A command whose start rule leads to an input phase completes when its bytes and then its `EOB` have been taken. -/
theorem completesIn_of_feed {i : Instr} {s t₀ t u : State} {buf : List Byte} {rest : List TokWord} {x : Txn}
    (hbuf : HasBuffer s buf rest) (hexec : exec i s = .next t₀) (hdin : t₀.din = s.din) (hin : t₀.ph.isInput = true)
    (hfeed : feedBytes buf { t₀ with din := rest } = .next t) (hused : t.ph.usedBy t.op = true) (heob : takeEob t = .next u)
    (hdone : Completed { s with din := rest } x u) : CompletesIn (buf.length + 1) i s rest x := by
  obtain ⟨e, he, hd⟩ := hbuf
  exact ⟨t₀, u, hexec, run_buffer t₀ t u buf rest ⟨e, he, hdin.trans hd⟩ hin hfeed hused heob, hdone⟩

/-- Bytes after ones that were all taken. -/
theorem feedBytes_append_of_next {xs : List Byte} {s t : State} (h : feedBytes xs s = .next t) (ys : List Byte) :
    feedBytes (xs ++ ys) s = feedBytes ys t := by
  rw [feedBytes_append, h]

/-- A list longer than `n` goes on after its first `n` elements. -/
theorem exists_take_append_cons {α : Type} {l : List α} {n : Nat} (h : n < l.length) :
    ∃ x tl, l = l.take n ++ x :: tl ∧ (l.take n).length = n :=
  ⟨l[n], l.drop (n + 1), by rw [← List.drop_eq_getElem_cons h, List.take_append_drop], List.length_take_of_le h.le⟩

theorem toNat_offOf {n : Nat} (h : n < 2 ^ 64) : (offOf n).toNat = n :=
  (BitVec.toNat_ofNat _ _).trans (Nat.mod_eq_of_lt h)

theorem offOf_maxOff : offOf Config.maxOff.toNat = Config.maxOff :=
  (BitVec.ofNat_toNat ..).trans (BitVec.setWidth_eq _)

/-- A byte that meets a failure, and all that follow it, in `DRAIN`. -/
theorem feed_fails {s : State} {b : Byte} {e : PendingError} (hin : s.ph.isInput = true) (hused : s.ph.usedBy s.op = true)
    (hdrain : Phase.drain.usedBy s.op = true) (hb : takeByte b s = .next (s.toDrain e)) (bs : List Byte) :
    feedBytes (b :: bs) s = .next (s.toDrain e) := by
  rw [feedBytes, takeToken_byte hin hused, hb]
  exact feed_ignored bs _ (.inl rfl) hdrain

/-! ## `CRC_CALC` -/

/-- The bytes of a buffer that `off` can count, from the start of `CRC_CALC` (40_crc.md R141). -/
theorem feed_calc_start {s : State} {buf : List Byte} (hph : s.ph = .load) (hop : s.op = opCrcCalc) (hoff : s.off = 0)
    (hcrc : s.crc = Config.crcInit) (hlen : buf.length < 2 ^ 64) :
    ∃ t, feedBytes buf s = .next t ∧ Keep s t ∧ t.ck = s.ck ∧ t.ph = .load ∧ t.off = offOf buf.length
      ∧ t.crc ^^^ Config.crcXorOut = crc32 buf := by
  refine ⟨_, feed_calc buf s hph hop (by rw [hoff]; simpa using hlen), ⟨rfl, rfl, rfl, rfl, rfl, rfl, rfl⟩, rfl, hph, ?_, ?_⟩
  · simp [hoff, offOf]
  · rw [hcrc]; rfl

/-- The bytes of a buffer that `off` cannot count (60_exceptions.md R312). -/
theorem feed_calc_overflow {s : State} {buf : List Byte} (hph : s.ph = .load) (hop : s.op = opCrcCalc) (hoff : s.off = 0)
    (hcrc : s.crc = Config.crcInit) (hlen : Config.maxOff.toNat < buf.length) :
    ∃ t, feedBytes buf s = .next (t.toDrain loadCapacityError) ∧ Keep s t ∧ t.ck = s.ck := by
  obtain ⟨b, tl, hsplit, htake⟩ := exists_take_append_cons hlen
  obtain ⟨t, hfirst, hkeep, hck, htph, htoff, -⟩ := feed_calc_start (buf := buf.take Config.maxOff.toNat) hph hop hoff hcrc
    (by rw [htake]; decide)
  have htop : t.op = opCrcCalc := hkeep.op.trans hop
  have hmax : t.off = Config.maxOff := by rw [htoff, htake, offOf_maxOff]
  refine ⟨t, ?_, hkeep, hck⟩
  rw [hsplit, feedBytes_append_of_next hfirst]
  refine feed_fails (by rw [htph]; rfl) (by rw [htph, htop]; rfl) (by rw [htop]; rfl) ?_ tl
  simp [takeByte, htph, htop, opCrcCalc, opCkMake, State.takeCalc, hmax]

theorem takeEob_load {s : State} (hph : s.ph = .load) : takeEob s = .next s.loadDone := by
  rw [takeEob, hph]

theorem takeEob_calc {s : State} (hph : s.ph = .load) (hop : s.op = opCrcCalc) :
    takeEob s = .next (s.respond (mkRsp .ok (off := s.off) (val := s.crc ^^^ Config.crcXorOut))) := by
  have hmake : s.op ≠ opCkMake := by rw [hop]; decide
  rw [takeEob_load hph, State.loadDone, if_neg hmake]

/-- Settles O19: the buffer is fed to the CRC register up to its `EOB`, or up to the byte that `off` cannot count. -/
theorem crcCalcRuns : Obligations.CrcCalcRuns := by
  refine ⟨fun s buf rest hbuf => ⟨rfl, ?_⟩, fun a buf => ?_⟩
  · let s₀ := { s with din := rest, op := opCrcCalc, crc := Config.crcInit, off := 0, ph := .load }
    rcases Nat.lt_or_ge Config.maxOff.toNat buf.length with hlen | hlen
    · obtain ⟨t, hfeed, hkeep, hck⟩ := feed_calc_overflow (s := s₀) rfl rfl rfl rfl hlen
      rw [fnCrcCalc, if_pos hlen]
      exact completesIn_of_feed hbuf rfl rfl rfl hfeed (by rw [State.toDrain_op, hkeep.op]; rfl) (takeEob_drain rfl rfl)
        (SameQueues.completed { hkeep.sameQueues with } hkeep.cont hck rfl)
    · obtain ⟨t, hfeed, hkeep, hck, hph, hoff, hcrc⟩ := feed_calc_start (s := s₀) (buf := buf) rfl rfl rfl rfl
        (Nat.lt_of_le_of_lt hlen (by decide))
      have heob := takeEob_calc hph hkeep.op
      rw [hoff, hcrc] at heob
      rw [fnCrcCalc, if_neg (Nat.not_lt.mpr hlen)]
      exact completesIn_of_feed hbuf rfl rfl rfl hfeed (by rw [hph, hkeep.op]; rfl) heob
        (SameQueues.completed { hkeep.sameQueues with } hkeep.cont hck rfl)
  · have hmax : Config.maxOff.toNat < buf.length ↔ ¬ buf.length < 2 ^ 64 :=
      ⟨fun h => Nat.not_lt.mpr h, fun h => Nat.not_lt.mp h⟩
    simp only [fnCrcCalc, hmax, ite_not]
    split <;> rfl

/-! ## `CK_MAKE` -/

/-- The failure of a payload that passes a limit: `LengthOverflow` when `MAX_LEN` bytes would still fit (log 6). -/
def makeError (s : State) : PendingError :=
  if capFits s.params (s.arch.contBytes + Config.maxLen) then { st := .lengthOverflow, sub := 0, idx := 0, off := 0 }
  else loadCapacityError

/-- What `CK_MAKE` has gathered: the payload bytes, counted by `len` and `off`, within the limits (42_chunk.md R174). -/
structure Gathering (s : State) : Prop where
  ph : s.ph = .load
  op : s.op = opCkMake
  len : s.len.toNat = s.pbuf.length
  off : s.off.toNat = s.pbuf.length
  bound : s.pbuf.length ≤ Config.maxLen
  fits : s.pbuf = [] ∨ capFits s.params (s.arch.contBytes + s.pbuf.length) = true

/-- A byte that passes a limit meets the failure of the whole payload (log 6). -/
theorem Gathering.fails {s : State} (h : Gathering s)
    (hlimit : s.pbuf.length = Config.maxLen ∨ capFits s.params (s.arch.contBytes + s.pbuf.length + 1) = false) (b : Byte) :
    s.takeMake b = s.toDrain (makeError s) := by
  have hoff := h.off
  have hbound := h.bound
  by_cases hmax : s.pbuf.length = Config.maxLen
  · have hfits : capFits s.params (s.arch.contBytes + Config.maxLen) = true := by
      rcases h.fits with hnil | hfits
      · rw [hnil] at hmax; cases hmax
      · rwa [hmax] at hfits
    rw [State.takeMake, if_pos (by rw [h.len, hmax]), makeError, if_pos hfits]
  · have hover : capFits s.params (s.arch.contBytes + s.pbuf.length + 1) = false := hlimit.resolve_left hmax
    have hnot : ¬ capFits s.params (s.arch.contBytes + Config.maxLen) = true := fun hfits => by
      rw [capFits_mono (by omega) hfits] at hover; cases hover
    rw [State.takeMake, if_neg (by rw [h.len]; omega), if_pos (by rw [hover]; simp), makeError, if_neg hnot]

/-- A byte within both limits is gathered (42_chunk.md R174). -/
theorem Gathering.takes {s : State} (h : Gathering s) (hmax : s.pbuf.length ≠ Config.maxLen)
    (hfits : capFits s.params (s.arch.contBytes + s.pbuf.length + 1) = true) (b : Byte) :
    s.takeMake b = { s with pbuf := s.pbuf ++ [b], crc := crcUpd s.crc b, len := s.len + 1, off := s.off + 1 }
      ∧ Gathering { s with pbuf := s.pbuf ++ [b], crc := crcUpd s.crc b, len := s.len + 1, off := s.off + 1 } := by
  have hlt : s.pbuf.length < 2147483647 := Nat.lt_of_le_of_ne h.bound hmax
  have hlen := h.len
  have hoff := h.off
  have hroom : s.off ≠ Config.maxOff := fun e => by
    rw [e, show Config.maxOff.toNat = 18446744073709551615 from rfl] at hoff; omega
  refine ⟨?_, h.ph, h.op, ?_, ?_, ?_, .inr ?_⟩
  · rw [State.takeMake, if_neg (by rw [h.len]; exact Nat.not_le.mpr hlt), if_neg (by simp [hroom, hfits])]
  · rw [BitVec.toNat_add_of_lt (by simp; omega), hlen]; simp
  · rw [BitVec.toNat_add_of_lt (by simp; omega), hoff]; simp
  · rw [List.length_append, List.length_singleton]; exact hlt
  · simpa [State.arch, Arch.contBytes, Nat.add_assoc] using hfits

theorem Gathering.feed_cons {s : State} (h : Gathering s) (b : Byte) (bs : List Byte) :
    feedBytes (b :: bs) s = feedBytes bs (s.takeMake b) := by
  rw [feedBytes, takeToken_byte (by rw [h.ph]; rfl) (by rw [h.ph, h.op]; rfl), takeByte, h.ph]
  dsimp only
  rw [if_pos h.op]

/-- A payload within the limits is gathered whole. -/
theorem Gathering.feed {bs : List Byte} {s : State} (h : Gathering s) (hmax : s.pbuf.length + bs.length ≤ Config.maxLen)
    (hfits : bs = [] ∨ capFits s.params (s.arch.contBytes + s.pbuf.length + bs.length) = true) :
    ∃ t, feedBytes bs s = .next t ∧ Keep s t ∧ t.ck = s.ck ∧ Gathering t ∧ t.framed = ⟨s.tc, s.pbuf ++ bs⟩
      ∧ t.crc = crcRun s.crc bs := by
  induction bs generalizing s with
  | nil => exact ⟨s, rfl, Keep.refl s, rfl, h, by rw [List.append_nil]; rfl, rfl⟩
  | cons b bs ih =>
    have hall : capFits s.params (s.arch.contBytes + s.pbuf.length + (b :: bs).length) = true :=
      hfits.resolve_left (List.cons_ne_nil b bs)
    simp only [List.length_cons] at hmax hall
    obtain ⟨htake, hnext⟩ := h.takes (by omega) (capFits_mono (by omega) hall) b
    have hfits' : capFits s.params (s.arch.contBytes + (s.pbuf ++ [b]).length + bs.length) = true := by
      rw [List.length_append, List.length_singleton]
      exact capFits_mono (by omega) hall
    obtain ⟨t, ht, hkeep, hck, hgather, hframed, hcrc⟩ := ih hnext (by simp; omega) (.inr hfits')
    refine ⟨t, by rw [h.feed_cons, htake, ht], { hkeep with }, hck, hgather, ?_, hcrc⟩
    rw [hframed, List.append_assoc]
    rfl

/-- A payload that passes a limit: the failure and the rest of the buffer drained. -/
theorem Gathering.feed_fails {bs : List Byte} {s : State} (h : Gathering s)
    (hlimit : ¬(s.pbuf.length + bs.length ≤ Config.maxLen
      ∧ (bs = [] ∨ capFits s.params (s.arch.contBytes + s.pbuf.length + bs.length) = true))) :
    ∃ t, feedBytes bs s = .next (t.toDrain (makeError s)) ∧ Keep s t ∧ t.ck = s.ck := by
  induction bs generalizing s with
  | nil => exact absurd ⟨h.bound, .inl rfl⟩ hlimit
  | cons b bs ih =>
    by_cases hbyte : s.pbuf.length = Config.maxLen ∨ capFits s.params (s.arch.contBytes + s.pbuf.length + 1) = false
    · refine ⟨s, ?_, Keep.refl s, rfl⟩
      rw [h.feed_cons, h.fails hbyte]
      exact feed_ignored bs _ (.inl rfl) (by rw [State.toDrain_op, h.op]; rfl)
    · rw [not_or, Bool.not_eq_false] at hbyte
      obtain ⟨htake, hnext⟩ := h.takes hbyte.1 hbyte.2 b
      have hlater : ¬((s.pbuf ++ [b]).length + bs.length ≤ Config.maxLen
          ∧ (bs = [] ∨ capFits s.params (s.arch.contBytes + (s.pbuf ++ [b]).length + bs.length) = true)) := by
        rintro ⟨hmax, hfits⟩
        simp only [List.length_append, List.length_singleton] at hmax hfits
        refine hlimit ⟨by simp only [List.length_cons]; omega, .inr ?_⟩
        rcases hfits with rfl | hfits
        · exact hbyte.2
        · rwa [List.length_cons, Nat.add_comm bs.length 1, ← Nat.add_assoc]
      obtain ⟨t, ht, hkeep, hck⟩ := ih hnext hlater
      exact ⟨t, by rw [h.feed_cons, htake, ht]; rfl, { hkeep with }, hck⟩

/-- `CK_MAKE` at the function level, by whether the payload is within the limits (log 6). -/
theorem fnCkMake_eq (a : Arch) (tc : Word) (buf : List Byte) : fnCkMake a tc buf =
    if buf.length ≤ Config.maxLen ∧ (buf = [] ∨ capFits a.params (a.contBytes + buf.length) = true) then
      { arch := { a with ck := some ⟨tc, buf⟩ }
        rsp := mkRsp .ok (off := offOf buf.length) (val := chunkCrc ⟨tc, buf⟩), out := none }
    else
      { arch := { a with ck := none }
        rsp := if capFits a.params (a.contBytes + Config.maxLen) then mkRsp .lengthOverflow else pendingRsp loadCapacityError
        out := none } := by
  simp only [fnCkMake, Bool.and_eq_true, Bool.or_eq_true, decide_eq_true_eq, List.isEmpty_iff]
  split
  · rfl
  · split <;> rfl

theorem takeEob_make {s : State} (h : Gathering s) : takeEob s = .next
    (State.respond { s with ck := some s.framed } (mkRsp .ok (off := s.off) (val := s.crc ^^^ Config.crcXorOut))) := by
  rw [takeEob_load h.ph, State.loadDone, if_pos h.op]

/-- Settles O22: the payload is gathered whole, or the byte that passes a limit names the failure. -/
theorem ckMakeRuns : Obligations.CkMakeRuns := by
  intro s tc buf rest hbuf
  let s₀ := { s with din := rest, op := opCkMake, ck := none, tc := tc, crc := crcRun Config.crcInit (be32 tc), len := 0, off := 0,
                     pbuf := [], perr := none, ph := .load }
  have hstart : Gathering s₀ := ⟨rfl, rfl, rfl, rfl, Nat.zero_le _, .inl rfl⟩
  rw [fnCkMake_eq]
  split
  next hlimit =>
    obtain ⟨t, hfeed, hkeep, -, hgather, hframed, hcrc⟩ := hstart.feed (bs := buf) (by simpa [s₀] using hlimit.1) hlimit.2
    have heob := takeEob_make hgather
    have hoff : t.off = offOf buf.length := by
      have hpbuf : t.pbuf = buf := congrArg Chunk.data hframed
      rw [← hpbuf, ← hgather.off]
      exact ((BitVec.ofNat_toNat ..).trans (BitVec.setWidth_eq _)).symm
    have hsum : t.crc ^^^ Config.crcXorOut = chunkCrc ⟨tc, buf⟩ := by
      rw [hcrc, crcRun_crcRun]; rfl
    rw [hoff, hsum] at heob
    exact completesIn_of_feed hbuf rfl rfl rfl hfeed (by rw [hgather.ph, hgather.op]; rfl) heob
      (SameQueues.completed { hkeep.sameQueues with } hkeep.cont (congrArg some hframed) rfl)
  next hlimit =>
    obtain ⟨t, hfeed, hkeep, hck⟩ := hstart.feed_fails (bs := buf) (by simpa [s₀, State.arch, Arch.contBytes] using hlimit)
    have hrsp : pendingRsp (makeError s₀) = if capFits s.arch.params (s.arch.contBytes + Config.maxLen) then
        mkRsp .lengthOverflow else pendingRsp loadCapacityError := by
      rw [makeError, apply_ite pendingRsp]
      rfl
    rw [← hrsp]
    exact completesIn_of_feed hbuf rfl rfl rfl hfeed (by rw [State.toDrain_op, hkeep.op]; rfl) (takeEob_drain rfl rfl)
      (SameQueues.completed { hkeep.sameQueues with } hkeep.cont hck rfl)

end Sys2Proof.Machine
end

section
/-! PROOF. The framer's commands at the token level (43_framer.md R205 to R228; 42_chunk.md R175 to R177): `feed_chunk` says what the
framer does with one chunk as `parse_chunk` says it; `CK_PARSE` is one chunk, `CT_PARSE` the signature and one chunk for each turn of
the loop (`framed_loop`). A buffer that `off` cannot count is cut where `off` reaches its maximum. -/
namespace Sys2Proof.Machine

/-! ## What a parse reads -/

/-- A parse from an offset is one of the bytes from there on. -/
theorem parseChunkWith_drop (lim : Limits) (used : Nat) (buf : List Byte) (o : Nat) :
    parseChunkWith lim used buf o = match parseChunkWith lim used (buf.drop o) 0 with
      | .ok c n => .ok c (o + n)
      | .fail st sub => .fail st sub := by
  simp only [parseChunkWith, List.drop_zero]
  split_ifs <;> simp [Nat.add_assoc]

/-- A parse is truncated by a buffer shorter than its length field says, and reads no byte after a chunk's. -/
theorem parseChunkWith_append (lim : Limits) (used : Nat) (buf : List Byte) :
    (parseChunkWith lim used buf 0 = .fail .malformedChunk subTruncated ∧ buf.length < 12 + Config.maxLen)
      ∨ parseChunkWith lim used buf 0 ≠ .fail .malformedChunk subTruncated
        ∧ ∀ more, parseChunkWith lim used (buf ++ more) 0 = parseChunkWith lim used buf 0 := by
  by_cases h4 : buf.length < 4
  · exact .inl ⟨by simp [parseChunkWith, h4], by omega⟩
  obtain ⟨n, l, rfl⟩ := exists_be32_append (Nat.not_lt.mp h4)
  by_cases hmax : Config.maxLen < n.toNat
  · right
    refine ⟨?_, fun more => ?_⟩ <;> simp [parseChunkWith, hmax, subTruncated, subLengthTooLarge]
  by_cases hfits : lim.fits (used + n.toNat) = true
  · by_cases htrunc : (be32 n ++ l).length < 12 + n.toNat
    · left
      refine ⟨?_, by omega⟩
      simp [parseChunkWith, hmax, hfits, htrunc, -List.length_append]
    · right
      obtain ⟨ty, data, x, rest, hbuf, hdata⟩ := exists_chunkFields_append (l := be32 n ++ l)
        (by rw [wordOfBytes_be32_append]; omega)
      rw [wordOfBytes_be32_append] at hdata
      have hok : ChunkOk ⟨ty, data⟩ := by rw [ChunkOk, hdata]; omega
      have hfits' : lim.fits (used + data.length) = true := by rwa [hdata]
      have hparse (more : List Byte) := parseChunkWith_chunkFields (o := 0) (c := ⟨ty, data⟩) (x := x) (rest := more) rfl hok hfits'
      refine ⟨?_, fun more => ?_⟩
      · rw [hbuf, hparse]
        split <;> simp [subTruncated, subCrcMismatch]
      · rw [hbuf, List.append_assoc, hparse, hparse]
  · right
    refine ⟨?_, fun more => ?_⟩ <;> simp [parseChunkWith, hmax, hfits]

/-! ## `CK_PARSE` -/

/-- Inside a chunk: `EOB` would truncate it, and the counter stands inside its field (43_framer.md R221). -/
structure InChunk (t : State) : Prop where
  ph : (t.ph = .len ∧ ¬(t.op = opCtParse ∧ t.cnt = 0)) ∨ t.ph = .type ∨ t.ph = .data ∨ t.ph = .crc
  counted : t.cnt.toNat < t.fieldSize

theorem Mid.inChunk {s t : State} {n : Nat} (h : Mid s t n) (hn : t.op = opCtParse → n ≠ 0) : InChunk t := by
  obtain ⟨-, -, -, -, -, ⟨hph, hzero, hcnt⟩ | ⟨hph, hcnt⟩ | ⟨hph, hcnt⟩ | ⟨hph, hcnt⟩⟩ := h
  · exact ⟨.inl ⟨hph, fun ⟨hop, hc⟩ => hn hop (hzero hc)⟩, by rwa [fieldSize_of_len hph]⟩
  · exact ⟨.inr (.inl hph), by rwa [fieldSize_of_type hph]⟩
  · exact ⟨.inr (.inr (.inl hph)), by rwa [fieldSize_of_data hph]⟩
  · exact ⟨.inr (.inr (.inr hph)), by rwa [fieldSize_of_crc hph]⟩

/-- Where `CK_PARSE` stands after bytes that parse as given: inside its chunk, draining, or after the chunk. -/
inductive CkFramed (t : State) : ChunkResult → Prop where
  | inside : InChunk t → t.stg = [] → t.cstart = 0 → t.ck = none → CkFramed t (.fail .malformedChunk subTruncated)
  | failed (st : Status) (sub : Byte) : t.ph = .drain → t.perr = some ⟨st, sub, 0, 0⟩ → t.ck = none → CkFramed t (.fail st sub)
  | complete (c : Chunk) (o : Nat) : t.ph = .trail → t.ck = some c → t.cend = offOf o →
      t.crc ^^^ Config.crcXorOut = chunkCrc c → CkFramed t (.ok c o)

/-- What the function level answers to the result of a parse (42_chunk.md R175). -/
def ckRsp : ChunkResult → Rsp
  | .ok c o => mkRsp .ok (off := offOf o) (val := chunkCrc c)
  | .fail st sub => mkRsp st (sub := sub)

/-- What the function level leaves in `ck` (42_chunk.md R175). -/
def ckResult : ChunkResult → Option Chunk
  | .ok c _ => some c
  | .fail _ _ => none

theorem fnCkParse_eq (a : Arch) (buf : List Byte) : fnCkParse a buf =
    { arch := { a with ck := ckResult (parseChunkWith (ckLimits a) 0 buf 0) }
      rsp := ckRsp (parseChunkWith (ckLimits a) 0 buf 0), out := none } := by
  rw [fnCkParse]
  cases parseChunkWith (ckLimits a) 0 buf 0 <;> rfl

/-- The start of `CK_PARSE` (43_framer.md R209). -/
structure CkStart (s : State) : Prop where
  op : s.op = opCkParse
  ph : s.ph = .len
  ck : s.ck = none
  stg : s.stg = []
  cnt : s.cnt = 0
  off : s.off = 0
  cstart : s.cstart = 0

/-- At the start of `CK_PARSE` the limits of the function level are those of the framer (log 5). -/
theorem CkStart.fits {s : State} (h : CkStart s) (L : Nat) :
    (ckLimits s.arch).fits (0 + L) = capFits s.params (s.framedBytes + L) := by
  simp [Limits.fits, ckLimits, capFits, State.framedBytes, Arch.ckBytes, h.ck, h.stg]

/-- Bytes that `off` can count, from the start of `CK_PARSE`. -/
theorem CkStart.feed {s : State} (h : CkStart s) {bs : List Byte} (hlen : bs.length < 2 ^ 64) :
    ∃ t, feedBytes bs s = .next t ∧ Keep s t ∧ CkFramed t (parseChunkWith (ckLimits s.arch) 0 bs 0) := by
  have hroom : s.off.toNat + bs.length < 2 ^ 64 := by rw [h.off]; simpa using hlen
  have hct : s.op ≠ opCtParse := by rw [h.op]; decide
  rcases feed_chunk (.inr h.op) h.ph h.cnt bs hroom (ckLimits s.arch) 0 h.fits with
    ⟨t, hparse, hfeed, hmid⟩ | ⟨t, st, sub, hparse, -, hfeed, hkeep, hck, hph, hperr⟩
    | ⟨c, o, u, hparse, -, -, -, -, -, hfeed, hkeep, -, -, -, huoff, hframed, hrx, hcrc⟩
  · have hin : InChunk t := hmid.inChunk fun hop => absurd (hmid.1.op.symm.trans hop) hct
    obtain ⟨hkeep, hck, hstg, hcstart, -, -⟩ := hmid
    rw [hparse]
    exact ⟨t, hfeed, hkeep, .inside hin (hstg.trans h.stg) (hcstart.trans h.cstart) (hck.trans h.ck)⟩
  · rw [h.stg, h.cstart] at hperr
    rw [hparse]
    exact ⟨t, hfeed, hkeep, .failed st sub hph hperr (hck.trans h.ck)⟩
  · let t := { u with ck := some u.framed, cend := u.off, ph := .trail }
    have hdone : u.crcComplete = t := by
      rw [State.crcComplete, if_pos hrx, if_neg (by rw [hkeep.op]; exact hct)]
    have hused : Phase.trail.usedBy u.op = true := by rw [hkeep.op, h.op]; rfl
    have hcend : u.off = offOf o := by
      rw [huoff, h.off]
      exact BitVec.zero_add _
    rw [hparse, hfeed, hdone]
    exact ⟨t, feed_ignored _ t (.inr rfl) hused, { hkeep with }, .complete c o rfl (congrArg some hframed) hcend hcrc⟩

/-- Bytes after the end of a parse change nothing. -/
theorem CkFramed.ignores {t : State} {r : ChunkResult} (h : CkFramed t r) (hr : r ≠ .fail .malformedChunk subTruncated)
    (hop : t.op = opCkParse) (bs : List Byte) : feedBytes bs t = .next t := by
  cases h with
  | inside => exact absurd rfl hr
  | failed st sub hph => exact feed_ignored bs t (.inl hph) (by rw [hph, hop]; rfl)
  | complete c o hph => exact feed_ignored bs t (.inr hph) (by rw [hph, hop]; rfl)

/-- Any bytes from the start of `CK_PARSE`: its chunk ends long before `off` does. -/
theorem CkStart.feed_all {s : State} (h : CkStart s) (bs : List Byte) :
    ∃ t, feedBytes bs s = .next t ∧ Keep s t ∧ CkFramed t (parseChunkWith (ckLimits s.arch) 0 bs 0) := by
  rcases Nat.lt_or_ge Config.maxOff.toNat bs.length with hlen | hlen
  · obtain ⟨b, tl, hsplit, htake⟩ := exists_take_append_cons hlen
    obtain ⟨t, hfeed, hkeep, hframed⟩ := h.feed (bs := bs.take Config.maxOff.toNat) (by rw [htake]; decide)
    rcases parseChunkWith_append (ckLimits s.arch) 0 (bs.take Config.maxOff.toNat) with ⟨-, hshort⟩ | ⟨hne, happend⟩
    · rw [htake] at hshort
      exact absurd hshort (by decide)
    · rw [← happend (b :: tl), ← hsplit] at hframed hne
      refine ⟨t, ?_, hkeep, hframed⟩
      rw [hsplit, feedBytes_append_of_next hfeed]
      exact hframed.ignores hne (hkeep.op.trans h.op) _
  · exact h.feed (Nat.lt_of_le_of_lt hlen (by decide))

/-- `EOB` in `CK_PARSE` answers as the function level does (43_framer.md R221, R223, R225). -/
theorem CkFramed.eob {t : State} {r : ChunkResult} (h : CkFramed t r) (hop : t.op = opCkParse) :
    t.ph.usedBy t.op = true ∧ takeEob t = .next (t.respond (ckRsp r)) ∧ t.ck = ckResult r := by
  cases h with
  | inside hin hstg hcstart hck =>
    refine ⟨(framing_used (.inr hop) (hin.ph.imp_left And.left)).1, ?_, hck⟩
    rw [takeEob_inside hin.ph, State.truncated, hstg, hcstart]
    rfl
  | failed st sub hph hperr hck => exact ⟨by rw [hph, hop]; rfl, takeEob_drain hph hperr, hck⟩
  | complete c o hph hck hcend hcrc =>
    refine ⟨by rw [hph, hop]; rfl, ?_, hck⟩
    rw [takeEob, hph]
    dsimp only
    rw [hcend, hcrc]
    rfl

/-- Settles O23: the framer stands where the parse of the bytes says, and the `EOB` answers that. -/
theorem ckParseRuns : Obligations.CkParseRuns := by
  intro s buf rest hbuf
  let s₀ := { s with din := rest, op := opCkParse, ck := none, stg := [], perr := none, off := 0, cstart := 0, cnt := 0, len := 0,
                     ph := .len }
  have hstart : CkStart s₀ := ⟨rfl, rfl, rfl, rfl, rfl, rfl, rfl⟩
  obtain ⟨t, hfeed, hkeep, hframed⟩ := hstart.feed_all buf
  obtain ⟨hused, heob, hck⟩ := hframed.eob hkeep.op
  have hlim : ckLimits s₀.arch = ckLimits s.arch := rfl
  rw [hlim] at heob hck
  rw [fnCkParse_eq]
  exact completesIn_of_feed hbuf rfl rfl rfl hfeed hused heob (SameQueues.completed { hkeep.sameQueues with } hkeep.cont hck rfl)

/-! ## `CT_PARSE` -/

/-- Where `CT_PARSE` stands after `n` bytes that parse as given: in the signature, at the start of a chunk, inside one, or draining. -/
inductive CtFramed (t : State) (n : Nat) : ParseResult → Prop where
  | inSig : t.ph = .sig → n < 8 → CtFramed t n (.fail .invalidSignature subSigShort 0 0)
  | boundary : t.ph = .len → t.cnt = 0 → t.off = offOf n → t.cstart = offOf n → CtFramed t n (.ok t.stg)
  | inside (o : Nat) : InChunk t → t.off = offOf n → t.cstart = offOf o →
      CtFramed t n (.fail .malformedChunk subTruncated t.stg.length o)
  | failed (st : Status) (sub : Byte) (k o : Nat) : t.ph = .drain → t.perr = some ⟨st, sub, idxOf k, offOf o⟩ →
      ¬(st = .malformedChunk ∧ sub = subTruncated) → CtFramed t n (.fail st sub k o)

/-- What the function level answers to the result of a parse of `n` bytes (43_framer.md R200, R201). -/
def ctRsp (n : Nat) : ParseResult → Rsp
  | .ok cs => mkRsp .ok (idx := idxOf cs.length) (off := offOf n)
  | .fail st sub k o => mkRsp st (sub := sub) (idx := idxOf k) (off := offOf o)

/-- What the function level leaves in `cont` (43_framer.md R200, R202). -/
def ctResult : ParseResult → Option (List Chunk)
  | .ok cs => some cs
  | .fail _ _ _ _ => none

theorem fnCtParse_eq (a : Arch) (buf : List Byte) : fnCtParse a buf =
    { arch := { a with cont := ctResult (parseBounded (ctLimits a) buf) }
      rsp := ctRsp buf.length (parseBounded (ctLimits a) buf), out := none } := by
  rw [fnCtParse]
  cases parseBounded (ctLimits a) buf <;> rfl

/-- The start of a chunk of `CT_PARSE`, at offset `o` (43_framer.md R213, R219). -/
structure CtBoundary (s : State) (o : Nat) : Prop where
  op : s.op = opCtParse
  ph : s.ph = .len
  cnt : s.cnt = 0
  off : s.off = offOf o
  cstart : s.cstart = offOf o
  cont : s.cont = none

/-- The limits of `CT_PARSE` read the parameters and `ck` only (log 5). -/
theorem ctLimits_congr {s t : State} (hp : t.params = s.params) (hck : t.ck = s.ck) : ctLimits t.arch = ctLimits s.arch := by
  simp [ctLimits, Arch.ckBytes, hp, hck]

/-- With an empty `cont` the limits of the function level are those of the framer (log 5). -/
theorem CtBoundary.fits {s : State} {o : Nat} (h : CtBoundary s o) (L : Nat) :
    (ctLimits s.arch).fits (payloadBytes s.stg + L) = capFits s.params (s.framedBytes + L) := by
  simp [Limits.fits, ctLimits, capFits, State.framedBytes, Arch.contBytes, h.cont, Nat.add_assoc]

/-- A complete chunk is refused where the store is full, and otherwise staged (43_framer.md R219, R226). -/
theorem crcComplete_of_match {u : State} (hop : u.op = opCtParse) (hrx : u.rxcrc = u.crc ^^^ Config.crcXorOut) :
    u.crcComplete = if capFull u.params u.stg.length then u.toDrain (u.chunkError .capacityExceeded 0)
      else { u with stg := u.stg ++ [u.framed], ph := .len, cnt := 0, len := 0, cstart := u.off } := by
  rw [State.crcComplete, if_pos hrx, if_pos hop]
  rfl

/-- The framer's turns are those of the loop (43_framer.md R205, R228). -/
theorem framed_loop {buf : List Byte} (hlen : buf.length < 2 ^ 64) {k o : Nat} {s : State} (h : CtBoundary s o) (ho : o ≤ buf.length)
    (hk : buf.length ≤ o + k) :
    ∃ t, feedBytes (buf.drop o) s = .next t ∧ Keep s t ∧ t.ck = s.ck
      ∧ CtFramed t buf.length (parseLoop (ctLimits s.arch) buf k o s.stg) := by
  induction k generalizing s o with
  | zero =>
    obtain rfl : o = buf.length := Nat.le_antisymm ho hk
    exact ⟨s, by rw [List.drop_length]; rfl, Keep.refl s, rfl, .boundary h.ph h.cnt h.off h.cstart⟩
  | succ k ih =>
    rcases Nat.eq_or_lt_of_le ho with rfl | hlt
    · rw [parseLoop_of_length_le le_rfl]
      exact ⟨s, by rw [List.drop_length]; rfl, Keep.refl s, rfl, .boundary h.ph h.cnt h.off h.cstart⟩
    have hdrop : (buf.drop o).length = buf.length - o := List.length_drop ..
    have hsoff : s.off.toNat = o := by rw [h.off, toNat_offOf (by omega)]
    have hadd (n : Nat) : s.off + BitVec.ofNat 64 n = offOf (o + n) := by rw [h.off, offOf, offOf, BitVec.ofNat_add]
    rw [parseLoop, if_pos hlt, parseChunkWith_drop]
    rcases feed_chunk (.inl h.op) h.ph h.cnt (buf.drop o) (by omega) (ctLimits s.arch) (payloadBytes s.stg) h.fits with
      ⟨t, hparse, hfeed, hmid⟩ | ⟨t, st, sub, hparse, hne, hfeed, hkeep, hck, hph, hperr⟩
      | ⟨c, n, u, hparse, hn, hpos, -, -, -, hfeed, hkeep, hck, hstg, hcstart, huoff, hframed, hrx, -⟩
    · have hin : InChunk t := hmid.inChunk fun _ => by omega
      obtain ⟨hkeep, hck, hstg, hcstart, hoff, -⟩ := hmid
      rw [hparse, ← hstg]
      refine ⟨t, hfeed, hkeep, hck, .inside o hin ?_ (hcstart.trans h.cstart)⟩
      rw [hoff, hadd, hdrop, Nat.add_sub_cancel' ho]
    · rw [hparse]
      rw [h.cstart] at hperr
      exact ⟨t, hfeed, hkeep, hck, .failed st sub s.stg.length o hph hperr hne⟩
    · have hop : u.op = opCtParse := hkeep.op.trans h.op
      have hfull : (ctLimits s.arch).full s.stg.length = capFull u.params u.stg.length := by
        rw [hstg, hkeep.params]; rfl
      rw [hparse, hfeed, crcComplete_of_match hop hrx, hfull]
      dsimp only
      cases hcap : capFull u.params u.stg.length with
      | true =>
        refine ⟨u.toDrain (u.chunkError .capacityExceeded 0), feed_drained (.inl hop) _ _, { hkeep with }, hck, ?_⟩
        rw [if_pos rfl]
        refine .failed _ _ _ _ rfl ?_ (by decide)
        rw [State.toDrain_perr, State.chunkError, hstg, hcstart, h.cstart]
      | false =>
        let v := { u with stg := u.stg ++ [u.framed], ph := .len, cnt := 0, len := 0, cstart := u.off }
        have hvoff : v.off = offOf (o + n) := huoff.trans (hadd n)
        have hv : CtBoundary v (o + n) := ⟨hop, rfl, rfl, hvoff, hvoff, hkeep.cont.trans h.cont⟩
        obtain ⟨t, ht, hvkeep, hvck, hvframed⟩ := ih hv (by omega) (by omega)
        rw [ctLimits_congr (s := s) (t := v) hkeep.params hck,
          show v.stg = s.stg ++ [c] by rw [← hstg, ← hframed]] at hvframed
        rw [if_neg Bool.false_ne_true, if_neg Bool.false_ne_true, List.drop_drop]
        exact ⟨t, ht, (show Keep s v from { hkeep with }).trans hvkeep, hvck.trans hck, hvframed⟩

/-- The start of `CT_PARSE` (43_framer.md R209). -/
structure CtStart (s : State) : Prop where
  op : s.op = opCtParse
  ph : s.ph = .sig
  cont : s.cont = none
  stg : s.stg = []
  cnt : s.cnt = 0
  off : s.off = 0

/-- Bytes that `off` can count, from the start of `CT_PARSE` (43_framer.md R205, R228). -/
theorem CtStart.feed {s : State} (h : CtStart s) {bs : List Byte} (hlen : bs.length < 2 ^ 64) :
    ∃ t, feedBytes bs s = .next t ∧ Keep s t ∧ t.ck = s.ck ∧ CtFramed t bs.length (parseWith (ctLimits s.arch) bs) := by
  have hsize : Config.sig.length = 8 := rfl
  rcases feed_sig (p := Config.sig) (by decide) bs h.ph h.op (by rw [h.cnt]; rfl) (by rw [h.off, hsize]; decide) with
    ⟨hne, t, hfeed, hkeep, hck, hph, hperr⟩ | ⟨heq, hshort, t, hfeed, hkeep, hck, hph⟩ | ⟨rest, rfl, hfeed⟩
  · rw [parseWith, if_pos (by exact hne)]
    exact ⟨t, hfeed, hkeep, hck, .failed _ _ 0 0 hph hperr (by decide)⟩
  · rw [parseWith, if_neg (by exact not_not.mpr heq), if_pos (by exact hshort)]
    exact ⟨t, hfeed, hkeep, hck, .inSig hph hshort⟩
  · let v := { s with off := s.off + BitVec.ofNat 64 8, ph := .len, cnt := 0, len := 0, cstart := s.off + BitVec.ofNat 64 8 }
    have hvoff : v.off = offOf 8 := by
      show s.off + BitVec.ofNat 64 8 = offOf 8
      rw [h.off]
      rfl
    have hv : CtBoundary v 8 := ⟨h.op, rfl, rfl, hvoff, hvoff, h.cont⟩
    have hmatch : (Config.sig ++ rest).take 8 = Config.sig.take (Config.sig ++ rest).length := by
      rw [List.take_left' hsize, List.take_of_length_le (by simp)]
    have h8 : ¬ (Config.sig ++ rest).length < 8 := by simp [hsize]
    obtain ⟨t, ht, hkeep, hck, hframed⟩ := framed_loop hlen hv (Nat.not_lt.mp h8) (Nat.le_add_left ..)
    rw [List.drop_left' hsize] at ht
    rw [ctLimits_congr (s := s) (t := v) rfl rfl, show v.stg = [] from h.stg] at hframed
    rw [parseWith, if_neg (not_not.mpr hmatch), if_neg h8]
    exact ⟨t, hfeed.trans ht, { hkeep with }, hck, hframed⟩

/-- The result of a parse whose next byte `off` cannot count, `n` bytes being read (43_framer.md R226). -/
def cutShort (n : Nat) : ParseResult → ParseResult
  | .ok cs => .fail .capacityExceeded 0 cs.length n
  | .fail st sub k o =>
    if st = .malformedChunk ∧ sub = subTruncated then .fail .capacityExceeded 0 k o else .fail st sub k o

theorem parseBounded_eq (lim : Limits) (buf : List Byte) : parseBounded lim buf =
    if buf.length ≤ Config.maxOff.toNat then parseWith lim buf
    else cutShort Config.maxOff.toNat (parseWith lim (buf.take Config.maxOff.toNat)) := by
  rw [parseBounded]
  split
  · rfl
  · cases parseWith lim (buf.take Config.maxOff.toNat) <;> rfl

/-- A byte that `off` cannot count, in a counting phase (43_framer.md R226). -/
theorem takeByte_of_maxOff {s : State} (hcnt : s.cnt.toNat < s.fieldSize) (hoff : s.off = Config.maxOff) (b : Byte) :
    takeByte b s = .next (s.toDrain (s.chunkError .capacityExceeded 0)) := by
  have hnot := Nat.not_le.mpr hcnt
  unfold takeByte
  split
  · next hph => simp [State.fieldSize, hph] at hcnt
  · next hph => simp [State.fieldSize, hph] at hcnt
  · next hph => simp [State.fieldSize, hph] at hcnt
  · rw [if_neg hnot, if_pos hoff]

/-- The first byte that `off` cannot count, and all that follow it. -/
theorem feed_of_maxOff {s : State} (hf : Framing s) (hph : s.ph = .len ∨ s.ph = .type ∨ s.ph = .data ∨ s.ph = .crc)
    (hcnt : s.cnt.toNat < s.fieldSize) (hoff : s.off = Config.maxOff) (b : Byte) (bs : List Byte) :
    feedBytes (b :: bs) s = .next (s.toDrain (s.chunkError .capacityExceeded 0)) := by
  obtain ⟨hused, hin⟩ := framing_used hf hph
  rw [feedBytes, takeToken_byte hin hused, takeByte_of_maxOff hcnt hoff]
  exact feed_drained hf _ _

/-- Where `CT_PARSE` stands after a byte that `off` cannot count. -/
theorem CtFramed.overflow {t : State} {r : ParseResult} (h : CtFramed t Config.maxOff.toNat r) (hop : t.op = opCtParse) (b : Byte)
    (bs : List Byte) (n : Nat) :
    ∃ u, feedBytes (b :: bs) t = .next u ∧ Keep t u ∧ u.ck = t.ck ∧ CtFramed u n (cutShort Config.maxOff.toNat r) := by
  have hdrains (hph : t.ph = .len ∨ t.ph = .type ∨ t.ph = .data ∨ t.ph = .crc) (hcnt : t.cnt.toNat < t.fieldSize)
      (hoff : t.off = offOf Config.maxOff.toNat) (o : Nat) (ho : t.cstart = offOf o) :
      ∃ u, feedBytes (b :: bs) t = .next u ∧ Keep t u ∧ u.ck = t.ck
        ∧ CtFramed u n (.fail .capacityExceeded 0 t.stg.length o) :=
    ⟨t.toDrain (t.chunkError .capacityExceeded 0),
      feed_of_maxOff (.inl hop) hph hcnt (hoff.trans offOf_maxOff) b bs, ⟨rfl, rfl, rfl, rfl, rfl, rfl, rfl⟩, rfl,
      .failed _ _ _ _ rfl (by rw [State.toDrain_perr, State.chunkError, ho]) (by decide)⟩
  cases h with
  | inSig hph hn => exact absurd hn (by decide)
  | boundary hph hcnt hoff hcstart =>
    exact hdrains (.inl hph) (by rw [fieldSize_of_len hph, hcnt]; decide) hoff _ hcstart
  | inside o hin hoff hcstart =>
    rw [cutShort, if_pos ⟨rfl, rfl⟩]
    exact hdrains (hin.ph.imp_left And.left) hin.counted hoff o hcstart
  | failed st sub k o hph hperr hne =>
    rw [cutShort, if_neg hne]
    exact ⟨t, feed_ignored _ t (.inl hph) (by rw [hph, hop]; rfl), Keep.refl t, rfl, .failed st sub k o hph hperr hne⟩

/-- Any bytes from the start of `CT_PARSE` (43_framer.md R226, R228). -/
theorem CtStart.feed_all {s : State} (h : CtStart s) (bs : List Byte) :
    ∃ t, feedBytes bs s = .next t ∧ Keep s t ∧ t.ck = s.ck ∧ CtFramed t bs.length (parseBounded (ctLimits s.arch) bs) := by
  rw [parseBounded_eq]
  split
  next hlen => exact h.feed (Nat.lt_of_le_of_lt hlen (by decide))
  next hlen =>
    obtain ⟨b, tl, hsplit, htake⟩ := exists_take_append_cons (Nat.not_le.mp hlen)
    obtain ⟨t, hfeed, hkeep, hck, hframed⟩ := h.feed (bs := bs.take Config.maxOff.toNat) (by rw [htake]; decide)
    rw [htake] at hframed
    obtain ⟨u, hrest, hukeep, huck, huframed⟩ := hframed.overflow (hkeep.op.trans h.op) b tl bs.length
    refine ⟨u, ?_, hkeep.trans hukeep, huck.trans hck, huframed⟩
    have happend := feedBytes_append_of_next hfeed (b :: tl)
    rw [← hsplit] at happend
    exact happend.trans hrest

/-- `EOB` in `CT_PARSE` answers as the function level does (43_framer.md R212, R220, R221, R223). -/
theorem CtFramed.eob {t : State} {n : Nat} {r : ParseResult} (h : CtFramed t n r) (hop : t.op = opCtParse) (hcont : t.cont = none) :
    t.ph.usedBy t.op = true ∧ ∃ u, takeEob t = .next (u.respond (ctRsp n r)) ∧ SameQueues t u ∧ u.cont = ctResult r ∧ u.ck = t.ck := by
  have hqueues : SameQueues t t := ⟨rfl, rfl, rfl, rfl, rfl⟩
  cases h with
  | inSig hph _ =>
    refine ⟨by rw [hph, hop]; rfl, t, ?_, hqueues, hcont, rfl⟩
    rw [takeEob, hph]
    rfl
  | boundary hph hcnt hoff hcstart =>
    have hcommit : (decide (t.op = opCtParse) && decide (t.cnt = 0)) = true := by rw [hop, hcnt]; rfl
    refine ⟨(framing_used (.inl hop) (.inl hph)).1, { t with cont := some t.stg }, ?_, ⟨rfl, rfl, rfl, rfl, rfl⟩, rfl, rfl⟩
    have heob : takeEob t = .next t.commit := by
      rw [takeEob, hph]
      dsimp only
      rw [if_pos hcommit]
    rw [heob, State.commit, hoff]
    rfl
  | inside o hin hoff hcstart =>
    refine ⟨(framing_used (.inl hop) (hin.ph.imp_left And.left)).1, t, ?_, hqueues, hcont, rfl⟩
    rw [takeEob_inside hin.ph, State.truncated, hcstart]
    rfl
  | failed st sub k o hph hperr _ => exact ⟨by rw [hph, hop]; rfl, t, takeEob_drain hph hperr, hqueues, hcont, rfl⟩

/-- Settles O32: the framer stands where the parse of the bytes says, and the `EOB` answers that. -/
theorem ctParseRuns : Obligations.CtParseRuns := by
  intro s buf rest hbuf
  let s₀ := { s with din := rest, op := opCtParse, cont := none, stg := [], perr := none, off := 0, cstart := 0, cnt := 0, ph := .sig }
  have hstart : CtStart s₀ := ⟨rfl, rfl, rfl, rfl, rfl, rfl⟩
  obtain ⟨t, hfeed, hkeep, hck, hframed⟩ := hstart.feed_all buf
  rw [ctLimits_congr (s := s) (t := s₀) rfl rfl] at hframed
  obtain ⟨hused, u, heob, hqueues, hucont, huck⟩ := hframed.eob hkeep.op hkeep.cont
  rw [fnCtParse_eq]
  exact completesIn_of_feed hbuf rfl rfl rfl hfeed hused heob
    (SameQueues.completed (SameQueues.trans { hkeep.sameQueues with } hqueues) hucont (huck.trans hck) rfl)

/-! ## A chunk as a stream element -/

/-- Settles O58: the bytes lead to the comparison, and the comparison has the three outcomes. -/
theorem chunkElementIsStagedOrRefused : Obligations.ChunkElementIsStagedOrRefused := by
  intro s c x hph hcnt hcstart hcap hok hroom hop
  have hf : Framing s := hop.elim .inr fun h => .inl h.1
  let u := { s with len := BitVec.ofNat 32 c.data.length, tc := c.ty, pbuf := c.data
                    crc := crcRun Config.crcInit (be32 c.ty ++ c.data), rxcrc := x, cnt := 4
                    off := s.off + BitVec.ofNat 64 (12 + c.data.length), ph := .crc }
  have hexec : exec (.chunk c.ty c.data x) s = .next u.crcComplete := by
    rcases offerBytes_cases (chunkFields c.ty c.data x) s with ⟨-, hoffer⟩ | ⟨hwait, -⟩
    · have hfeed := feed_chunkFields hf hph hcnt c x [] hok (capFits_of_unbounded hcap _) hroom
      rw [List.append_nil] at hfeed
      exact hoffer.trans hfeed
    · rw [hph] at hwait; cases hwait
  refine ⟨u.crcComplete, hexec, ?_⟩
  by_cases hx : x = crc32 (be32 c.ty ++ c.data)
  · simp only [if_pos hx]
    rcases hop with hop | ⟨hop, hspace⟩
    · have hdone : u.crcComplete = { u with ck := some u.framed, cend := u.off, ph := .trail } := by
        rw [State.crcComplete, if_pos (by exact hx), if_neg (by exact fun h => absurd (hop.symm.trans h) (by decide))]
      rw [hdone, if_neg (by rw [hop]; decide)]
      exact ⟨rfl, rfl, rfl, rfl, rfl, rfl, rfl, rfl, rfl, rfl, rfl, rfl, hx.symm⟩
    · have hdone : u.crcComplete = { u with stg := u.stg ++ [u.framed], ph := .len, cnt := 0, len := 0, cstart := u.off } := by
        rw [crcComplete_of_room (by exact hspace), if_pos (by exact hx), if_pos (by exact hop)]
      rw [hdone, if_pos hop]
      exact ⟨rfl, rfl, rfl, rfl, rfl, rfl, rfl, rfl, rfl, rfl, rfl, rfl, rfl, rfl⟩
  · have hdone : u.crcComplete = u.toDrain (u.chunkError .malformedChunk subCrcMismatch) := by
      rw [State.crcComplete, if_neg (by exact hx)]
    have hperr : u.chunkError .malformedChunk subCrcMismatch = ⟨.malformedChunk, 3, BitVec.ofNat 32 s.stg.length, s.off⟩ := by
      rw [← hcstart]; rfl
    simp only [if_neg hx, hdone, hperr]
    exact ⟨rfl, rfl, rfl, rfl, rfl, rfl, rfl, rfl, rfl, rfl, rfl, rfl⟩

end Sys2Proof.Machine
end

section
/-! PROOF. The emitters at the token level (44_serializer.md R246 to R251): a field, a chunk, a container and a plain list are runs of
bytes put on `DOUT`, one step for each (`runsTo_emitField`, `runsTo_emitChunk`, `runsTo_nextChunk`, `runsTo_emitRaw`), and `S_EOB`
ends with the answer of the function level. -/
namespace Sys2Proof.Machine

/-! ## Runs of emitted bytes -/

/-- `t` is `s` after `bs` have been put on `DOUT` and counted by `off`; the phase and the other working registers are left open. -/
structure Emitted (s t : State) (bs : List Byte) : Prop where
  params : t.params = s.params
  cont : t.cont = s.cont
  ck : t.ck = s.ck
  cmd : t.cmd = s.cmd
  din : t.din = s.din
  rsp : t.rsp = s.rsp
  op : t.op = s.op
  dout : t.dout = s.dout ++ bs.map (fun b => tokWord (.b b))
  off : t.off = s.off + BitVec.ofNat 64 bs.length

theorem Emitted.refl (s : State) : Emitted s s [] := by
  constructor <;> simp

theorem Emitted.trans {s t u : State} {xs ys : List Byte} (h : Emitted s t xs) (g : Emitted t u ys) : Emitted s u (xs ++ ys) where
  params := g.params.trans h.params
  cont := g.cont.trans h.cont
  ck := g.ck.trans h.ck
  cmd := g.cmd.trans h.cmd
  din := g.din.trans h.din
  rsp := g.rsp.trans h.rsp
  op := g.op.trans h.op
  dout := by rw [g.dout, h.dout, List.map_append, List.append_assoc]
  off := by rw [g.off, h.off, List.length_append, BitVec.ofNat_add, BitVec.add_assoc]

theorem emitted_emitByte (s : State) (b : Byte) : Emitted s (s.emitByte b) [b] := by
  constructor <;> rfl

theorem Emitted.arch {s t : State} {bs : List Byte} (h : Emitted s t bs) : t.arch = s.arch := by
  simp [State.arch, h.params, h.cont, h.ck]

theorem runsTo_one {s t : State} (h : step s = .next t) : RunsTo 1 s t :=
  (RunsTo_succ 0 s t).mpr ⟨t, h, (RunsTo_zero t t).mpr rfl⟩

/-- A phase whose every step emits a byte of one field emits what is left of the field, and then does what follows it
(44_serializer.md R248). -/
theorem runsTo_emitField {field : List Byte} {k : State → State} (hsize : field.length < 2 ^ 32) {left : List Byte} (hne : left ≠ [])
    {s : State} (hleft : field.drop s.cnt.toNat = left)
    (hstep : ∀ u bs, Emitted s u bs → u.ph = s.ph → u.sidx = s.sidx → step u = u.emitField field k) :
    ∃ u, RunsTo left.length s (k u) ∧ Emitted s u left ∧ u.sidx = s.sidx := by
  induction left generalizing s with
  | nil => exact absurd rfl hne
  | cons b left ih =>
    have hlen : field.length - s.cnt.toNat = left.length + 1 := by
      simpa using congrArg List.length hleft
    have hb : field[s.cnt.toNat]? = some b := by rw [← List.head?_drop, hleft]; rfl
    have hcnt : (s.emitByte b).cnt.toNat = s.cnt.toNat + 1 := by
      rw [State.emitByte_cnt, BitVec.toNat_add_of_lt (by simp; omega)]
      rfl
    have hone : step s = .next (if s.cnt.toNat + 1 = field.length then k (s.emitByte b) else s.emitByte b) := by
      rw [hstep s [] (Emitted.refl s) rfl rfl, State.emitField, hb, ← hcnt]
    by_cases hlast : left = []
    · subst hlast
      rw [if_pos (by simp at hlen; omega)] at hone
      exact ⟨s.emitByte b, runsTo_one hone, emitted_emitByte s b, rfl⟩
    · have hpos : 0 < left.length := List.length_pos_iff.mpr hlast
      rw [if_neg (by omega)] at hone
      have hleft' : field.drop (s.emitByte b).cnt.toNat = left := by rw [hcnt, ← List.drop_drop, hleft]; rfl
      obtain ⟨u, hrun, hemit, hsidx⟩ := ih hlast hleft' fun u bs hu hph hsidx =>
        hstep u _ ((emitted_emitByte s b).trans hu) hph hsidx
      exact ⟨u, (RunsTo_succ _ _ _).mpr ⟨_, hone, hrun⟩, (emitted_emitByte s b).trans hemit, hsidx⟩

/-! ## A chunk -/

/-- The phases that emit a field of a chunk, for the two commands that use them (44_serializer.md R245). -/
theorem step_emitChunk {s : State} {c : Chunk} (hop : s.op = opCtSer ∨ s.op = opCkSer)
    (hph : s.ph = .sLen ∨ s.ph = .sType ∨ s.ph = .sData ∨ s.ph = .sCrc) (hc : s.emitted = some c) : step s = s.emitChunk c := by
  have hused : s.ph.usedBy s.op = true := by
    rcases hop with h | h <;> rcases hph with hp | hp | hp | hp <;> rw [h, hp] <;> rfl
  have hemitter : s.ph.isEmitter = true := by rcases hph with hp | hp | hp | hp <;> rw [hp] <;> rfl
  rw [step_of_emitter hemitter, emitStep, hused]
  rcases hph with hp | hp | hp | hp <;> simp [hp, hc]

section
variable {s : State} {c : Chunk}

theorem emitChunk_of_sLen (h : s.ph = .sLen) :
    s.emitChunk c = s.emitField (be32 (BitVec.ofNat 32 (chunkLen c))) (fun u => u.enter .sType) := by rw [State.emitChunk, h]

theorem emitChunk_of_sType (h : s.ph = .sType) :
    s.emitChunk c = s.emitField (be32 c.ty) (fun u => u.enter (if chunkLen c = 0 then .sCrc else .sData)) := by
  rw [State.emitChunk, h]

theorem emitChunk_of_sData (h : s.ph = .sData) : s.emitChunk c = s.emitField c.data (fun u => u.enter .sCrc) := by
  rw [State.emitChunk, h]

theorem emitChunk_of_sCrc (h : s.ph = .sCrc) : s.emitChunk c = s.emitField (be32 (chunkCrc c)) State.afterCrc := by
  rw [State.emitChunk, h]

end

/-- The chunk a serializer is emitting (44_serializer.md R245). -/
structure Serializing (s : State) (c : Chunk) : Prop where
  op : s.op = opCtSer ∨ s.op = opCkSer
  emitted : s.emitted = some c

/-- Emitting bytes does not change which chunk is being emitted. -/
theorem Serializing.of_emitted {s t : State} {c : Chunk} {bs : List Byte} (h : Serializing s c) (ht : Emitted s t bs)
    (hsidx : t.sidx = s.sidx) : Serializing t c := by
  refine ⟨by rw [ht.op]; exact h.op, ?_⟩
  rw [← h.emitted, State.emitted, State.emitted, ht.op, ht.cont, ht.ck, hsidx]

/-- One field of a chunk, from the start of its phase. -/
theorem Serializing.runsTo_field {s : State} {c : Chunk} (h : Serializing s c) {p : Phase} (hph : s.ph = p) (hcnt : s.cnt = 0)
    (hp : p = .sLen ∨ p = .sType ∨ p = .sData ∨ p = .sCrc) {field : List Byte} {k : State → State} (hne : field ≠ [])
    (hsize : field.length < 2 ^ 32) (hfield : ∀ u : State, u.ph = p → u.emitChunk c = u.emitField field k) :
    ∃ u, RunsTo field.length s (k u) ∧ Emitted s u field ∧ u.sidx = s.sidx := by
  refine runsTo_emitField hsize hne (by rw [hcnt]; rfl) fun u bs hu huph husidx => ?_
  have hup : u.ph = p := huph.trans hph
  rw [step_emitChunk (h.of_emitted hu husidx).op (hup ▸ hp) (h.of_emitted hu husidx).emitted, hfield u hup]

theorem be32_ne_nil (w : Word) : be32 w ≠ [] := List.cons_ne_nil _ _

/-- A whole chunk, from the start of its length field to what follows its CRC field (44_serializer.md R248). -/
theorem runsTo_emitChunk {s : State} {c : Chunk} (h : Serializing s c) (hph : s.ph = .sLen) (hcnt : s.cnt = 0) (hok : ChunkOk c) :
    ∃ u, RunsTo (serChunk c).length s u.afterCrc ∧ Emitted s u (serChunk c) ∧ u.sidx = s.sidx := by
  have hword : ∀ w : Word, (be32 w).length < 2 ^ 32 := fun w => by rw [be32_length]; decide
  obtain ⟨u₁, hrun₁, hemit₁, hsidx₁⟩ := h.runsTo_field hph hcnt (.inl rfl) (be32_ne_nil _) (hword _) fun u => emitChunk_of_sLen
  let s₁ := u₁.enter .sType
  have hs₁ : Emitted s s₁ _ := { hemit₁ with }
  obtain ⟨u₂, hrun₂, hemit₂, hsidx₂⟩ := (h.of_emitted hs₁ hsidx₁).runsTo_field rfl rfl (.inr (.inl rfl)) (be32_ne_nil _) (hword _)
    fun u => emitChunk_of_sType
  let s₂ := u₂.enter (if chunkLen c = 0 then .sCrc else .sData)
  have hs₂ : Emitted s s₂ _ := hs₁.trans { hemit₂ with }
  have hsidx₂' : s₂.sidx = s.sidx := hsidx₂.trans hsidx₁
  have hdata : ∃ s₃, RunsTo c.data.length s₂ s₃ ∧ Emitted s₂ s₃ c.data ∧ s₃.sidx = s₂.sidx ∧ s₃.ph = .sCrc ∧ s₃.cnt = 0 := by
    by_cases hnil : c.data = []
    · refine ⟨s₂, ?_, hnil ▸ Emitted.refl s₂, rfl, if_pos (by rw [chunkLen, hnil]; rfl), rfl⟩
      rw [hnil]
      exact (RunsTo_zero s₂ s₂).mpr rfl
    · have hpos : chunkLen c ≠ 0 := fun h0 => hnil (List.length_eq_zero_iff.mp h0)
      obtain ⟨u₃, hrun₃, hemit₃, hsidx₃⟩ := (h.of_emitted hs₂ hsidx₂').runsTo_field (if_neg hpos) rfl (.inr (.inr (.inl rfl))) hnil
        (Nat.lt_of_le_of_lt hok (by decide)) fun u => emitChunk_of_sData
      exact ⟨u₃.enter .sCrc, hrun₃, { hemit₃ with }, hsidx₃, rfl, rfl⟩
  obtain ⟨s₃, hrun₃, hemit₃, hsidx₃, hph₃, hcnt₃⟩ := hdata
  have hs₃ : Emitted s s₃ _ := hs₂.trans hemit₃
  have hsidx₃' : s₃.sidx = s.sidx := hsidx₃.trans hsidx₂'
  obtain ⟨u₄, hrun₄, hemit₄, hsidx₄⟩ := (h.of_emitted hs₃ hsidx₃').runsTo_field hph₃ hcnt₃ (.inr (.inr (.inr rfl))) (be32_ne_nil _)
    (hword _) fun u => emitChunk_of_sCrc
  refine ⟨u₄, ?_, hs₃.trans hemit₄, hsidx₄.trans hsidx₃'⟩
  have hrun := RunsTo_trans (RunsTo_trans (RunsTo_trans hrun₁ hrun₂) hrun₃) hrun₄
  simpa only [serChunk, chunkFields, List.length_append, be32_length] using hrun

/-! ## The end of an emission -/

/-- `S_EOB` puts the mark and answers (44_serializer.md R248, R249). -/
theorem step_sEob {s : State} (hph : s.ph = .sEob) (hused : Phase.sEob.usedBy s.op = true) :
    step s = .next ((s.putTok .eob).respond s.emitRsp) := by
  rw [step_of_emitter (by rw [hph]; rfl), emitStep, hph, hused]
  rfl

/-- A command whose start rule leads to an emission completes when its bytes and then its `EOB` have been put. -/
theorem completesIn_of_emitted {i : Instr} {s t₀ t : State} {n : Nat} {out : List Byte} {r : Rsp} (hexec : exec i s = .next t₀)
    (hqueues : SameQueues s t₀) (hcont : t₀.cont = s.cont) (hck : t₀.ck = s.ck) (hrun : RunsTo n t₀ t) (hemit : Emitted t₀ t out) (hph : t.ph = .sEob)
    (hused : Phase.sEob.usedBy t.op = true) (hrsp : t.emitRsp = r) : CompletesIn (n + 1) i s s.din (s.arch.emit r out) := by
  refine ⟨t₀, _, hexec, RunsTo_snoc n _ _ _ hrun (step_sEob hph hused), ?_⟩
  constructor
  · exact hemit.params.trans hqueues.params
  · exact hemit.cont.trans hcont
  · exact hemit.ck.trans hck
  · exact hemit.cmd.trans hqueues.cmd
  · exact hemit.din.trans hqueues.din
  · show t.dout ++ [tokWord .eob] = s.dout ++ bufferToks out
    rw [hemit.dout, hqueues.dout, bufferToks, List.append_assoc]
  · show t.rsp ++ [t.emitRsp] = s.rsp ++ [r]
    rw [hrsp, hemit.rsp, hqueues.rsp]
  · rfl

/-- Settles O25: the chunk's four fields, then the mark. -/
theorem ckSerRuns : Obligations.CkSerRuns := by
  intro s c hck hok
  let s₀ := { (s.accept opCkSer).beginChunk c with off := 0 }
  have hser : Serializing s₀ c := ⟨.inr rfl, hck⟩
  obtain ⟨u, hrun, hemit, -⟩ := runsTo_emitChunk hser rfl rfl hok
  have hop : u.op = opCkSer := hemit.op
  have hafter : u.afterCrc = u.enter .sEob := if_neg (by rw [hop]; decide)
  have hoff : u.off = offOf (serChunk c).length := hemit.off.trans (BitVec.zero_add _)
  have hrsp : (u.enter .sEob).emitRsp = mkRsp .ok (off := offOf (serChunk c).length) (val := chunkCrc c) := by
    rw [State.emitRsp, if_neg (by rw [State.enter_op, hop]; decide), if_pos (by exact hop), State.enter_off, hoff, State.enter_ck, hemit.ck,
      show s₀.ck = some c from hck]
    rfl
  rw [hafter] at hrun
  rw [length_serChunk] at hrun hrsp
  exact completesIn_of_emitted (exec_ckSer_of_some hck) ⟨rfl, rfl, rfl, rfl, rfl⟩ rfl rfl hrun { hemit with } rfl
    (by rw [State.enter_op, hop]; rfl) hrsp

/-! ## A container -/

/-- The chunks of the container from position `sidx` on, and then the end of the emission (44_serializer.md R248). -/
theorem runsTo_nextChunk {cs : List Chunk} (hsize : cs.length < 2 ^ 32) (hok : ∀ c ∈ cs, ChunkOk c) (ds : List Chunk) {s : State}
    (hop : s.op = opCtSer) (hcont : s.cont = some cs) (hleft : cs.drop s.sidx.toNat = ds) :
    ∃ t, RunsTo (ds.flatMap serChunk).length s.nextChunk t ∧ Emitted s t (ds.flatMap serChunk) ∧ t.ph = .sEob := by
  have hcs : s.cont.getD [] = cs := by rw [hcont]; rfl
  induction ds generalizing s with
  | nil =>
    have hend : s.nextChunk = s.enter .sEob := by
      rcases nextChunk_cases s with ⟨c, hc, -⟩ | ⟨-, hend⟩
      · rw [hcs, List.getElem?_eq_none (List.drop_eq_nil_iff.mp hleft)] at hc
        cases hc
      · exact hend
    rw [hend]
    exact ⟨s.enter .sEob, (RunsTo_zero _ _).mpr rfl, { Emitted.refl s with }, rfl⟩
  | cons d ds ih =>
    have hd : cs[s.sidx.toNat]? = some d := by rw [← List.head?_drop, hleft]; rfl
    have hlt : s.sidx.toNat < cs.length := (List.getElem?_eq_some_iff.mp hd).1
    have hbegin : s.nextChunk = s.beginChunk d := by rw [State.nextChunk, hcs, hd]
    have hser : Serializing (s.beginChunk d) d := by
      refine ⟨.inl hop, ?_⟩
      rw [State.emitted, if_pos (by exact hop), State.beginChunk_cont, State.beginChunk_sidx, hcs, hd]
    obtain ⟨u, hrun, hemit, hsidx⟩ := runsTo_emitChunk hser rfl rfl (hok d (List.mem_of_getElem? hd))
    have huop : u.op = opCtSer := hemit.op.trans hop
    let v := { u with sidx := u.sidx + 1 }
    have hafter : u.afterCrc = v.nextChunk := if_pos huop
    have hvsidx : v.sidx.toNat = s.sidx.toNat + 1 := by
      show (u.sidx + 1).toNat = _
      rw [hsidx, State.beginChunk_sidx, BitVec.toNat_add_of_lt (by simp; omega)]
      rfl
    have hvcont : v.cont = some cs := hemit.cont.trans hcont
    obtain ⟨t, hrest, htemit, htph⟩ := ih (s := v) huop hvcont (by rw [hvsidx, ← List.drop_drop, hleft]; rfl) (by rw [hvcont]; rfl)
    rw [hafter] at hrun
    have hsv : Emitted s v (serChunk d) := { hemit with }
    rw [hbegin, List.flatMap_cons, List.length_append]
    exact ⟨t, RunsTo_trans hrun hrest, hsv.trans htemit, htph⟩

/-- The signature, from the start of `CT_SER` (44_serializer.md R246). -/
theorem runsTo_sSig {s : State} (hop : s.op = opCtSer) (hph : s.ph = .sSig) (hcont : s.cont.isSome = true) (hcnt : s.cnt = 0) :
    ∃ u, RunsTo Config.sig.length s u.nextChunk ∧ Emitted s u Config.sig ∧ u.sidx = s.sidx := by
  refine runsTo_emitField (field := Config.sig) (by decide) (by decide) (by rw [hcnt]; rfl) fun u bs hu huph _ => ?_
  have hnone : u.cont.isNone = false := by
    rw [hu.cont]
    cases hc : s.cont with
    | none => rw [hc] at hcont; cases hcont
    | some cs => rfl
  rw [step_of_emitter (by rw [huph, hph]; rfl), emitStep, huph, hph, hu.op, hop, hnone]
  rfl

/-- Settles O35: the signature, then every chunk in order, then the mark. -/
theorem ctSerRuns : Obligations.CtSerRuns := by
  intro s cs hcont hlist
  obtain ⟨hok, hcap⟩ := hlist
  let s₀ := { (s.accept opCtSer).enter .sSig with sidx := 0, off := 0 }
  have hsome : s₀.cont.isSome = true := by rw [show s₀.cont = some cs from hcont]; rfl
  obtain ⟨u, hrun, hemit, hsidx⟩ := runsTo_sSig (s := s₀) rfl rfl hsome rfl
  have hucont : u.cont = some cs := hemit.cont.trans hcont
  obtain ⟨t, hrest, htemit, htph⟩ := runsTo_nextChunk (Nat.lt_of_le_of_lt hcap (BitVec.isLt _)) hok cs hemit.op hucont
    (by rw [hsidx]; rfl)
  have hall : Emitted s₀ t (serialize cs) := hemit.trans htemit
  have hop : t.op = opCtSer := hall.op
  have hrsp : t.emitRsp = mkRsp .ok (idx := idxOf cs.length) (off := offOf (serialize cs).length) := by
    rw [State.emitRsp, if_pos hop, hall.cont, show s₀.cont = some cs from hcont, hall.off]
    exact congrArg (mkRsp .ok 0 (idxOf cs.length) · 0) (BitVec.zero_add _)
  have hsteps := RunsTo_trans hrun hrest
  rw [← List.length_append] at hsteps
  exact completesIn_of_emitted (exec_ctSer_of_some hcont) ⟨rfl, rfl, rfl, rfl, rfl⟩ rfl rfl hsteps hall htph (by rw [hop]; rfl) hrsp

/-! ## The plain emitter -/

/-- The commands whose output is a list read from `rawTxn` (44_serializer.md R249). -/
def PlainOp (op : Byte) : Prop := op = opCkData ∨ op = opCkText ∨ op = opCtList

theorem Emitted.rawTxn {s t : State} {bs : List Byte} (h : Emitted s t bs) : t.rawTxn = s.rawTxn := by
  rw [State.rawTxn, State.rawTxn, h.op, h.arch]

/-- What is left of the list from position `off` on (44_serializer.md R249). -/
theorem runsTo_emitRaw {left : List Byte} (hne : left ≠ []) {s : State} (hop : PlainOp s.op) (hph : s.ph = .sRaw)
    (hsize : s.rawList.length < 2 ^ 64) (hleft : s.rawList.drop s.off.toNat = left) :
    ∃ t, RunsTo left.length s t ∧ Emitted s t left ∧ t.ph = .sEob := by
  induction left generalizing s with
  | nil => exact absurd rfl hne
  | cons b left ih =>
    have hlen : s.rawList.length - s.off.toNat = left.length + 1 := by
      simpa using congrArg List.length hleft
    have hb : s.rawList[s.off.toNat]? = some b := by rw [← List.head?_drop, hleft]; rfl
    have hoff : (s.emitByte b).off.toNat = s.off.toNat + 1 := by
      rw [State.emitByte_off, BitVec.toNat_add_of_lt (by simp; omega)]
      rfl
    have hused : s.ph.usedBy s.op = true := by rcases hop with h | h | h <;> rw [hph, h] <;> rfl
    have hone : step s = .next
        (if s.off.toNat + 1 = s.rawList.length then { s.emitByte b with ph := .sEob } else s.emitByte b) := by
      rw [step_of_emitter (by rw [hph]; rfl), emitStep, hused, ← hoff]
      simp [hph, State.emitRaw, hb]
    by_cases hlast : left = []
    · subst hlast
      rw [if_pos (by simp at hlen; omega)] at hone
      exact ⟨_, runsTo_one hone, { emitted_emitByte s b with }, rfl⟩
    · have hpos : 0 < left.length := List.length_pos_iff.mpr hlast
      rw [if_neg (by omega)] at hone
      have hraw : (s.emitByte b).rawList = s.rawList := congrArg (fun x : Txn => x.out.getD []) (emitted_emitByte s b).rawTxn
      obtain ⟨t, hrun, hemit, htph⟩ := ih hlast (s := s.emitByte b) hop hph (by rwa [hraw])
        (by rw [hraw, hoff, ← List.drop_drop, hleft]; rfl)
      exact ⟨t, (RunsTo_succ _ _ _).mpr ⟨_, hone, hrun⟩, (emitted_emitByte s b).trans hemit, htph⟩

/-- A plain emitter that starts emits its list and answers (44_serializer.md R249). -/
theorem completesIn_plain {i : Instr} {s : State} {op : Byte} {r : Rsp} {out : List Byte} (hop : PlainOp op)
    (hexec : exec i s = .next { s with op := op, ph := if out = [] then .sEob else .sRaw, cnt := 0, off := 0 })
    (htxn : State.rawTxn { s with op := op } = s.arch.emit r out) (hsize : out.length < 2 ^ 64) :
    CompletesIn (out.length + 1) i s s.din (s.arch.emit r out) := by
  let s₀ := { s with op := op, ph := if out = [] then .sEob else .sRaw, cnt := 0, off := 0 }
  have hraw : s₀.rawTxn = s.arch.emit r out := htxn
  have hlist : s₀.rawList = out := congrArg (fun x : Txn => x.out.getD []) hraw
  have hrun : ∃ t, RunsTo out.length s₀ t ∧ Emitted s₀ t out ∧ t.ph = .sEob := by
    by_cases hnil : out = []
    · exact ⟨s₀, by rw [hnil]; exact (RunsTo_zero _ _).mpr rfl, by rw [hnil]; exact Emitted.refl s₀, if_pos hnil⟩
    · exact runsTo_emitRaw hnil hop (if_neg hnil) (by rwa [hlist]) (by rw [hlist]; rfl)
  obtain ⟨t, hrun, hemit, hph⟩ := hrun
  have htop : t.op = op := hemit.op
  have hrsp : t.emitRsp = r := by
    have hnot : op ≠ opCtSer ∧ op ≠ opCkSer := by rcases hop with h | h | h <;> rw [h] <;> decide
    rw [State.emitRsp, if_neg (by rw [htop]; exact hnot.1), if_neg (by rw [htop]; exact hnot.2), hemit.rawTxn, hraw]
    rfl
  refine completesIn_of_emitted hexec ⟨rfl, rfl, rfl, rfl, rfl⟩ rfl rfl hrun hemit hph ?_ hrsp
  rcases hop with h | h | h <;> rw [htop, h] <;> rfl

theorem rawTxn_of_ckData {s : State} (h : s.op = opCkData) : s.rawTxn = fnCkData s.arch := if_pos h

theorem rawTxn_of_ckText {s : State} (h : s.op = opCkText) : s.rawTxn = fnCkText s.arch := by
  rw [State.rawTxn, if_neg (by rw [h]; decide), if_pos h]

theorem rawTxn_of_ctList {s : State} (h : s.op = opCtList) : s.rawTxn = fnCtList s.arch := by
  rw [State.rawTxn, if_neg (by rw [h]; decide), if_neg (by rw [h]; decide)]

/-- Settles O27: the payload, then the mark. -/
theorem ckDataRuns : Obligations.CkDataRuns := fun _ _ hck hok =>
  completesIn_plain (.inl rfl) (exec_ckData_of_some hck) ((rawTxn_of_ckData rfl).trans (fnCkData_of_some hck))
    (Nat.lt_of_le_of_lt hok (by decide))

/-- Settles O28: valid text is emitted as a plain list; what is no text is answered at the start. -/
theorem ckTextRuns : Obligations.CkTextRuns := by
  intro s c hck hok
  cases htext : textValid s.params.text c.data with
  | true =>
    rw [if_pos rfl]
    exact completesIn_plain (.inr (.inl rfl)) (exec_ckText_of_valid hck htext)
      ((rawTxn_of_ckText rfl).trans (fnCkText_of_valid hck htext)) (Nat.lt_of_le_of_lt hok (by decide))
  | false =>
    rw [if_neg Bool.false_ne_true, exec_ckText, fnCkText_of_invalid hck htext, startEmit_of_failure (by exact Status.noConfusion), complete_emit_nil]
    rfl

theorem length_typeBytes (cs : List Chunk) : (typeBytes cs).length = 4 * cs.length := by
  simp [typeBytes, listTypes, List.length_flatMap, Function.comp_def, Nat.mul_comm]

/-- Settles O36: the type bytes are a plain list of four bytes for each chunk. -/
theorem ctListRuns : Obligations.CtListRuns := by
  intro s cs hcont hlist
  have hsize : cs.length < 2 ^ 32 := Nat.lt_of_le_of_lt hlist.2 (BitVec.isLt _)
  have hruns := completesIn_plain (.inr (.inr rfl)) (exec_ctList_of_some hcont)
    ((rawTxn_of_ctList rfl).trans (fnCtList_of_some hcont)) (by rw [length_typeBytes]; omega)
  rw [length_typeBytes, typeBytes, listTypes, List.flatMap_map] at hruns
  exact hruns

end Sys2Proof.Machine
end

section
/-! PROOF. What a command, a token and an emitter step can do (46_system.md R290 to R292). Each command has one effect on the registers
(`Effect`), and its acceptance answers at once or starts a run (`Accepts`); a byte ends no command, an `EOB` ends each, and an emitter
step puts one token. From these the channels move in order and the registers are written by their commands only. -/
namespace Sys2Proof.Machine

/-! ## The effect of a command at the function level -/

/-- What the transaction `x` of the command `i` may change, and that a failure changes nothing but an emptied destination
(60_exceptions.md R317). -/
def Effect (i : Instr) (a : Arch) (x : Txn) : Prop :=
  match i with
  | .ckMake _ | .ckParse => ∃ ck r, x = { arch := { a with ck := ck }, rsp := r, out := none } ∧ (r.st ≠ .ok → ck = none)
  | .ctParse => ∃ cont r, x = { arch := { a with cont := cont }, rsp := r, out := none } ∧ (r.st ≠ .ok → cont = none)
  | .ctAppend | .ctInsert _ =>
    ∃ cont r, x = { arch := { a with cont := cont }, rsp := r, out := none } ∧ (r.st ≠ .ok → cont = a.cont)
  | .ctGet _ => ∃ ck r, x = { arch := { a with ck := ck }, rsp := r, out := none } ∧ (r.st ≠ .ok → ck = a.ck)
  | .ctRemove _ =>
    ∃ cont ck r, x = { arch := { a with cont := cont, ck := ck }, rsp := r, out := none }
      ∧ (r.st ≠ .ok → cont = a.cont ∧ ck = a.ck)
  | .ckSer | .ckData | .ckText | .ctSer | .ctList => ∃ r out, x = a.emit r out ∧ (r.st ≠ .ok → out = [])
  | _ => ∃ r, x = a.answer r

section
variable (a : Arch)

theorem fnTyCheck_effect (tc : Word) : ∃ r, fnTyCheck a tc = a.answer r := by
  rw [fnTyCheck]
  split
  · exact ⟨_, rfl⟩
  · split <;> exact ⟨_, rfl⟩

theorem fnCrcCalc_effect (buf : List Byte) : ∃ r, fnCrcCalc a buf = a.answer r := by
  rw [fnCrcCalc]
  split <;> exact ⟨_, rfl⟩

theorem fnCkMake_effect (tc : Word) (buf : List Byte) : Effect (.ckMake tc) a (fnCkMake a tc buf) := by
  rw [fnCkMake_eq]
  split
  · exact ⟨_, _, rfl, fun h => absurd rfl h⟩
  · exact ⟨_, _, rfl, fun _ => rfl⟩

theorem fnCkParse_effect (buf : List Byte) : Effect .ckParse a (fnCkParse a buf) := by
  rw [fnCkParse_eq]
  refine ⟨_, _, rfl, fun h => ?_⟩
  cases hr : parseChunkWith (ckLimits a) 0 buf 0 with
  | ok c o => rw [hr] at h; exact absurd rfl h
  | fail st sub => rfl

theorem fnCtParse_effect (buf : List Byte) : Effect .ctParse a (fnCtParse a buf) := by
  rw [fnCtParse_eq]
  refine ⟨_, _, rfl, fun h => ?_⟩
  cases hr : parseBounded (ctLimits a) buf with
  | ok cs => rw [hr] at h; exact absurd rfl h
  | fail st sub k o => rfl

theorem fnCkType_effect : ∃ r, fnCkType a = a.answer r := by
  cases hck : a.ck with
  | none => exact ⟨_, fnCkType_of_none hck⟩
  | some c => exact ⟨_, fnCkType_of_some hck⟩

theorem fnCkLen_effect : ∃ r, fnCkLen a = a.answer r := by
  cases hck : a.ck with
  | none => exact ⟨_, fnCkLen_of_none hck⟩
  | some c => exact ⟨_, fnCkLen_of_some hck⟩

theorem fnCkCrc_effect : ∃ r, fnCkCrc a = a.answer r := by
  cases hck : a.ck with
  | none => exact ⟨_, fnCkCrc_of_none hck⟩
  | some c => exact ⟨_, fnCkCrc_of_some hck⟩

theorem fnCkSer_effect : Effect .ckSer a (fnCkSer a) := by
  cases hck : a.ck with
  | none => exact ⟨_, _, fnCkSer_of_none hck, fun _ => rfl⟩
  | some c => exact ⟨_, _, fnCkSer_of_some hck, fun h => absurd rfl h⟩

theorem fnCkData_effect : Effect .ckData a (fnCkData a) := by
  cases hck : a.ck with
  | none => exact ⟨_, _, fnCkData_of_none hck, fun _ => rfl⟩
  | some c => exact ⟨_, _, fnCkData_of_some hck, fun h => absurd rfl h⟩

theorem fnCkText_effect : Effect .ckText a (fnCkText a) := by
  cases hck : a.ck with
  | none => exact ⟨_, _, fnCkText_of_none hck, fun _ => rfl⟩
  | some c =>
    cases htext : textValid a.params.text c.data with
    | false => exact ⟨_, _, fnCkText_of_invalid hck htext, fun _ => rfl⟩
    | true => exact ⟨_, _, fnCkText_of_valid hck htext, fun h => absurd rfl h⟩

theorem fnCtSer_effect : Effect .ctSer a (fnCtSer a) := by
  cases hcont : a.cont with
  | none => exact ⟨_, _, fnCtSer_of_none hcont, fun _ => rfl⟩
  | some cs => exact ⟨_, _, fnCtSer_of_some hcont, fun h => absurd rfl h⟩

theorem fnCtList_effect : Effect .ctList a (fnCtList a) := by
  cases hcont : a.cont with
  | none => exact ⟨_, _, fnCtList_of_none hcont, fun _ => rfl⟩
  | some cs => exact ⟨_, _, fnCtList_of_some hcont, fun h => absurd rfl h⟩

/-- Storing a copy of `ck` writes `cont` only, and nothing when it is refused. -/
theorem storeAt_effect (cs : List Chunk) (c : Chunk) (p : Nat) : Effect .ctAppend a (storeAt a cs c p) := by
  rcases storeAt_cases a cs c p with ⟨hstore, -⟩ | ⟨hstore, -⟩
  · exact ⟨a.cont, _, hstore, fun _ => rfl⟩
  · exact ⟨_, _, hstore, fun h => absurd rfl h⟩

theorem fnCtAppend_effect : Effect .ctAppend a (fnCtAppend a) := by
  cases hcont : a.cont with
  | none => exact ⟨a.cont, _, fnCtAppend_of_none hcont, fun _ => rfl⟩
  | some cs =>
    cases hck : a.ck with
    | none => exact ⟨a.cont, _, fnCtAppend_of_noChunk hcont hck, fun _ => rfl⟩
    | some c => rw [fnCtAppend_of_some hcont hck]; exact storeAt_effect a cs c _

theorem fnCtInsert_effect (pos : Word) : Effect (.ctInsert pos) a (fnCtInsert a pos) := by
  cases hcont : a.cont with
  | none => exact ⟨a.cont, _, fnCtInsert_of_none hcont pos, fun _ => rfl⟩
  | some cs =>
    cases hck : a.ck with
    | none => exact ⟨a.cont, _, fnCtInsert_of_noChunk hcont hck pos, fun _ => rfl⟩
    | some c =>
      rw [fnCtInsert_of_some hcont hck]
      split
      · exact ⟨a.cont, _, rfl, fun _ => rfl⟩
      · exact storeAt_effect a cs c _

theorem fnCtFind_effect (tc pos : Word) : ∃ r, fnCtFind a tc pos = a.answer r := by
  cases hcont : a.cont with
  | none => exact ⟨_, fnCtFind_of_none hcont tc pos⟩
  | some cs =>
    rw [fnCtFind, hcont]
    dsimp only
    split <;> exact ⟨_, rfl⟩

theorem fnCtGet_effect (pos : Word) : Effect (.ctGet pos) a (fnCtGet a pos) := by
  cases hcont : a.cont with
  | none => exact ⟨a.ck, _, fnCtGet_of_none hcont pos, fun _ => rfl⟩
  | some cs =>
    cases hget : cs[pos.toNat]? with
    | none => exact ⟨a.ck, _, fnCtGet_of_outside hcont hget, fun _ => rfl⟩
    | some c =>
      rw [fnCtGet_of_inside hcont hget]
      split
      · exact ⟨a.ck, _, rfl, fun _ => rfl⟩
      · exact ⟨_, _, rfl, fun h => absurd rfl h⟩

theorem fnCtRemove_effect (tc : Word) : Effect (.ctRemove tc) a (fnCtRemove a tc) := by
  cases hcont : a.cont with
  | none => exact ⟨a.cont, a.ck, _, fnCtRemove_of_none hcont tc, fun _ => ⟨rfl, rfl⟩⟩
  | some cs =>
    rw [fnCtRemove, hcont]
    dsimp only
    split
    · exact ⟨a.cont, a.ck, _, rfl, fun _ => ⟨rfl, rfl⟩⟩
    · exact ⟨_, _, _, rfl, fun h => absurd rfl h⟩

theorem fnCtCount_effect : ∃ r, fnCtCount a = a.answer r := by
  cases hcont : a.cont with
  | none => exact ⟨_, fnCtCount_of_none hcont⟩
  | some cs => exact ⟨_, fnCtCount_of_some hcont⟩

end

/-- Every transaction has the effect of its command. -/
theorem transact_effect {i : Instr} {a : Arch} {buf : List Byte} {x : Txn} (h : transact i a buf = some x) : Effect i a x := by
  cases i
  case signature | chunk | token | rsp => cases h
  all_goals obtain rfl := Option.some.inj h
  case nop => exact ⟨_, rfl⟩
  case crcCalc => exact fnCrcCalc_effect a buf
  case tyCheck tc => exact fnTyCheck_effect a tc
  case tyProps => exact ⟨_, rfl⟩
  case ckMake tc => exact fnCkMake_effect a tc buf
  case ckParse => exact fnCkParse_effect a buf
  case ckSer => exact fnCkSer_effect a
  case ckType => exact fnCkType_effect a
  case ckLen => exact fnCkLen_effect a
  case ckCrc => exact fnCkCrc_effect a
  case ckData => exact fnCkData_effect a
  case ckText => exact fnCkText_effect a
  case ctParse => exact fnCtParse_effect a buf
  case ctSer => exact fnCtSer_effect a
  case ctAppend => exact fnCtAppend_effect a
  case ctInsert pos => exact fnCtInsert_effect a pos
  case ctFind tc pos => exact fnCtFind_effect a tc pos
  case ctGet pos => exact fnCtGet_effect a pos
  case ctRemove tc => exact fnCtRemove_effect a tc
  case ctList => exact fnCtList_effect a
  case ctCount => exact fnCtCount_effect a
  case undefinedOp => exact ⟨_, rfl⟩

/-- Settles O50: a failure empties the destination of a loader and changes nothing else. -/
theorem failuresKeepTheOtherRegisters : Obligations.FailuresKeepTheOtherRegisters := by
  intro i a buf x h hst
  have heffect := transact_effect h
  cases i
  case ckMake | ckParse =>
    obtain ⟨ck, r, rfl, hck⟩ := heffect
    rw [hck hst]
    exact ⟨rfl, rfl⟩
  case ctParse =>
    obtain ⟨cont, r, rfl, hcont⟩ := heffect
    rw [hcont hst]
    exact ⟨rfl, rfl⟩
  case ctAppend | ctInsert =>
    obtain ⟨cont, r, rfl, hcont⟩ := heffect
    rw [hcont hst]
    exact ⟨rfl, rfl⟩
  case ctGet =>
    obtain ⟨ck, r, rfl, hck⟩ := heffect
    rw [hck hst]
    exact ⟨rfl, rfl⟩
  case ctRemove =>
    obtain ⟨cont, ck, r, rfl, hsame⟩ := heffect
    obtain ⟨hcont, hck⟩ := hsame hst
    rw [hcont, hck]
    exact ⟨rfl, rfl⟩
  case ckSer | ckData | ckText | ctSer | ctList =>
    obtain ⟨r, out, rfl, hout⟩ := heffect
    rw [hout hst]
    exact ⟨rfl, rfl⟩
  case signature | chunk | token | rsp => cases h
  all_goals
    obtain ⟨r, rfl⟩ := heffect
    exact ⟨rfl, rfl⟩

end Sys2Proof.Machine
end

section
/-! PROOF. Search and removal in the container (45_container_ops.md R268 to R278): `find_from` is the first match of a list of
positions (`findFrom_eq`), `find_all` and the host's loop collect them, and `remove` takes the first match out. -/
namespace Sys2Proof.Machine

/-- The chunk at position `i` has type `t` (45_container_ops.md R269). -/
def matchesAt (cs : List Chunk) (t : Word) (i : Nat) : Bool := cs[i]?.map Chunk.ty == some t

theorem findGo_eq (t : Word) (s i : Nat) (cs : List Chunk) : findGo t s i cs =
    ((List.range cs.length).find? (fun k => decide (s ≤ i + k) && matchesAt cs t k)).map (i + ·) := by
  induction cs generalizing i with
  | nil => rfl
  | cons c cs ih =>
    have hhead : matchesAt (c :: cs) t 0 = (c.ty == t) := rfl
    have htail : (fun k => decide (s ≤ i + k) && matchesAt (c :: cs) t k) ∘ Nat.succ
        = fun k => decide (s ≤ i + 1 + k) && matchesAt cs t k := by
      funext k
      rw [Nat.add_assoc, Nat.add_comm 1 k]
      rfl
    rw [findGo, List.length_cons, List.range_succ_eq_map, List.find?_cons, List.find?_map, htail, hhead, ih, Nat.add_zero]
    cases decide (s ≤ i) && c.ty == t with
    | true => rfl
    | false =>
      have hshift : (fun k => i + 1 + k) = (i + ·) ∘ Nat.succ := funext fun k => Nat.add_right_comm i 1 k
      rw [Option.map_map, hshift]
      rfl

/-- `find_from` finds the least position from `s` on that matches (45_container_ops.md R269). -/
theorem findFrom_eq (cs : List Chunk) (t : Word) (s : Nat) : findFrom cs t s =
    (List.range cs.length).find? (fun i => decide (s ≤ i) && matchesAt cs t i) := by
  simp [findFrom, findGo_eq]

theorem lt_length_of_findFrom {cs : List Chunk} {t : Word} {s i : Nat} (h : findFrom cs t s = some i) :
    s ≤ i ∧ i < cs.length := by
  rw [findFrom_eq] at h
  have hmatch := List.find?_some h
  simp only [Bool.and_eq_true, decide_eq_true_eq] at hmatch
  exact ⟨hmatch.1, List.mem_range.mp (List.mem_of_find?_eq_some h)⟩

theorem fnCtFind_of_found {a : Arch} {cs : List Chunk} {t pos : Word} {i : Nat} (h : a.cont = some cs)
    (hfind : findFrom cs t pos.toNat = some i) :
    fnCtFind a t pos = a.answer (mkRsp .ok (idx := idxOf i) (off := offOf ((cs[i]?.map chunkLen).getD 0))) := by
  simp [fnCtFind, h, hfind]

theorem fnCtFind_of_absent {a : Arch} {cs : List Chunk} {t pos : Word} (h : a.cont = some cs)
    (hfind : findFrom cs t pos.toNat = none) : fnCtFind a t pos = a.answer (mkRsp .notFound (idx := idxOf cs.length)) := by
  simp [fnCtFind, h, hfind]

/-- Settles O42: the search over the positions is `find_from`. -/
theorem ctFindAnswers : Obligations.CtFindAnswers := by
  intro s tc pos
  rw [exec_ctFind]
  cases hcont : s.cont with
  | none => rw [fnCtFind_of_none hcont]; rfl
  | some cs =>
    dsimp only
    have hsearch := findFrom_eq cs tc pos.toNat
    unfold matchesAt at hsearch
    rw [← hsearch]
    cases hfind : findFrom cs tc pos.toNat with
    | none => rw [fnCtFind_of_absent hcont hfind]; rfl
    | some i => rw [fnCtFind_of_found hcont hfind]; rfl

/-! ## All matches -/

/-- In an increasing list, the matches from `s` on are the first of them and the matches after it. -/
theorem filter_of_find?_eq_some {l : List Nat} {m : Nat → Bool} {s i : Nat} (hl : l.Pairwise (· < ·))
    (h : l.find? (fun k => decide (s ≤ k) && m k) = some i) :
    l.filter (fun k => decide (s ≤ k) && m k) = i :: l.filter (fun k => decide (i + 1 ≤ k) && m k) := by
  obtain ⟨hmatch, before, after, rfl, hbefore⟩ := List.find?_eq_some_iff_append.mp h
  obtain ⟨-, hafter, hless⟩ := List.pairwise_append.mp hl
  have hsi : s ≤ i := by simp_all
  have hnil : before.filter (fun k => decide (s ≤ k) && m k) = [] :=
    List.filter_eq_nil_iff.mpr fun k hk => by rw [Bool.not_eq_true, ← Bool.not_eq_true']; exact hbefore k hk
  have hnil' : before.filter (fun k => decide (i + 1 ≤ k) && m k) = [] :=
    List.filter_eq_nil_iff.mpr fun k hk => by
      have := hless k hk i (List.mem_cons_self ..)
      simp; omega
  have hsame : after.filter (fun k => decide (s ≤ k) && m k) = after.filter (fun k => decide (i + 1 ≤ k) && m k) :=
    List.filter_congr fun k hk => by
      have hik : i < k := List.rel_of_pairwise_cons hafter hk
      simp [show s ≤ k by omega, show i < k from hik]
  rw [List.filter_append, List.filter_append, hnil, hnil', List.filter_cons, List.filter_cons, hsame]
  simp [hsi, show m i = true by simp_all]

/-- With turns enough for the positions from `s` on, `find_all` collects all matches from `s` on (45_container_ops.md R270). -/
theorem findAllGo_eq (cs : List Chunk) (t : Word) (k s : Nat) (hk : cs.length < k + s) :
    findAllGo cs t k s = (List.range cs.length).filter (fun i => decide (s ≤ i) && matchesAt cs t i) := by
  induction k generalizing s with
  | zero =>
    refine (List.filter_eq_nil_iff.mpr fun i hi => ?_).symm
    have := List.mem_range.mp hi
    simp; omega
  | succ k ih =>
    rw [findAllGo]
    cases hfind : findFrom cs t s with
    | none =>
      rw [findFrom_eq] at hfind
      exact (List.filter_eq_nil_iff.mpr fun i hi => by simpa using List.find?_eq_none.mp hfind i hi).symm
    | some i =>
      have hi := lt_length_of_findFrom hfind
      rw [findFrom_eq] at hfind
      rw [filter_of_find?_eq_some List.pairwise_lt_range hfind, ← ih (i + 1) (by omega)]

theorem toNat_idxOf {n : Nat} (h : n < 2 ^ 32) : (idxOf n).toNat = n := Nat.mod_eq_of_lt h

/-- The host's loop from `pos` records what `find_all` finds, and its last command finds nothing (30_encoding.md R108). -/
theorem findAllLoop_eq {a : Arch} {cs : List Chunk} {t : Word} (hcont : a.cont = some cs) (hsize : cs.length < 2 ^ 32) {k : Nat}
    {pos : Word} (hk : cs.length ≤ k + pos.toNat) :
    recordedPositions (findAllLoop a t (k + 1) pos) = findAllGo cs t (k + 1) pos.toNat
      ∧ (findAllLoop a t (k + 1) pos).length = (findAllGo cs t (k + 1) pos.toNat).length + 1 := by
  induction k generalizing pos with
  | zero =>
    have hfind : findFrom cs t pos.toNat = none := by
      cases hfind : findFrom cs t pos.toNat with
      | none => rfl
      | some i => have := lt_length_of_findFrom hfind; omega
    rw [findAllLoop, fnCtFind_of_absent hcont hfind, findAllGo, hfind]
    exact ⟨rfl, rfl⟩
  | succ k ih =>
    rw [findAllLoop, findAllGo]
    cases hfind : findFrom cs t pos.toNat with
    | none =>
      rw [fnCtFind_of_absent hcont hfind]
      exact ⟨rfl, rfl⟩
    | some i =>
      obtain ⟨hpos, hi⟩ := lt_length_of_findFrom hfind
      have hnext : (idxOf i + 1).toNat = i + 1 := by
        rw [BitVec.toNat_add_of_lt (by rw [toNat_idxOf (by omega)]; simp; omega), toNat_idxOf (by omega)]
        rfl
      obtain ⟨hrecorded, hlength⟩ := ih (pos := idxOf i + 1) (by omega)
      rw [hnext] at hrecorded hlength
      rw [fnCtFind_of_found hcont hfind]
      dsimp only
      rw [← hrecorded]
      exact ⟨congrArg (· :: _) (toNat_idxOf (by omega)), congrArg (· + 1) (hrecorded ▸ hlength)⟩

/-- Settles O43: both searches start at 0 with a turn for every position and one for the end. -/
theorem findAllGivesEveryMatch : Obligations.FindAllGivesEveryMatch := by
  refine ⟨fun cs t => ?_, fun a cs t hcont hsize => ?_⟩
  · rw [findAll, findAllGo_eq cs t _ 0 (Nat.lt_succ_self _)]
    simp [matchesAt]
  · have hcount : a.count = cs.length := by simp [Arch.count, hcont]
    rw [pseudoFindAll, hcount]
    exact findAllLoop_eq hcont hsize (Nat.le_refl _)

/-! ## Removal -/

theorem fnCtRemove_of_absent {a : Arch} {cs : List Chunk} {t : Word} (h : a.cont = some cs) (hfind : findFrom cs t 0 = none) :
    fnCtRemove a t = a.answer (mkRsp .chunkNotFound (idx := idxOf cs.length) (val := idxOf cs.length)) := by
  simp [fnCtRemove, h, removeFirst_eq_none_iff.mpr hfind]

theorem fnCtRemove_of_found {a : Arch} {cs : List Chunk} {t : Word} {i : Nat} (h : a.cont = some cs)
    (hfind : findFrom cs t 0 = some i) : ∃ c, cs[i]? = some c ∧ fnCtRemove a t =
      { arch := { a with cont := some (cs.eraseIdx i), ck := some c }
        rsp := mkRsp .ok (idx := idxOf i) (off := offOf (chunkLen c)) (val := idxOf (cs.length - 1)), out := none } := by
  obtain ⟨c, hc, hremove⟩ := removeFirst_of_findFrom hfind
  exact ⟨c, hc, by simp [fnCtRemove, h, hremove]⟩

/-- Settles O45: the chunk removed is the first one `find_from` finds. -/
theorem ctRemoveAnswers : Obligations.CtRemoveAnswers := by
  intro s tc
  rw [exec_ctRemove]
  cases hcont : s.cont with
  | none => rw [fnCtRemove_of_none hcont]; rfl
  | some cs =>
    dsimp only
    rw [← findFrom_zero]
    cases hfind : findFrom cs tc 0 with
    | none => rw [fnCtRemove_of_absent hcont hfind]; rfl
    | some i =>
      obtain ⟨c, hc, hremove⟩ := fnCtRemove_of_found (a := s.arch) hcont hfind
      rw [hremove]
      dsimp only
      rw [hc]
      rfl

/-- Settles O46: the type does not occur before the inserted chunk, so it is found at its position. -/
theorem removeUndoesInsert : Obligations.RemoveUndoesInsert := by
  intro cs p c hp habsent
  have hlen : (cs.take p).length = p := List.length_take_of_le hp
  have hnone : (cs.take p).findIdx? (fun d => d.ty == c.ty) = none := by
    rw [List.findIdx?_eq_none_iff]
    exact fun d hd => beq_eq_false_iff_ne.mpr (habsent d hd)
  have hfind : findFrom (insertAt cs p c) c.ty 0 = some p := by
    rw [findFrom_zero, insertAt, List.append_assoc, List.findIdx?_append, hnone, List.singleton_append, List.findIdx?_cons]
    simp [hp]
  obtain ⟨d, hd, hremove⟩ := removeFirst_of_findFrom hfind
  have hat : (insertAt cs p c)[p]? = some c := by simp [insertAt, hp]
  have herase : (insertAt cs p c).eraseIdx p = cs := by
    rw [insertAt, List.append_assoc, List.eraseIdx_append_of_length_le hlen.le, hlen, Nat.sub_self]
    exact List.take_append_drop p cs
  rw [hremove, herase, Option.some.inj (hd.symm.trans hat)]

end Sys2Proof.Machine
end

section
/-! PROOF. Everything a step can do to the channels and the registers (46_system.md R290 to R292). Acceptance answers at once or starts
a run (`Accepts`); a byte ends no command (`takeByte_frame`), an `EOB` ends each (`EobFrame`), and an emitter step puts one byte or
ends (`emitStep_emitted`). -/
namespace Sys2Proof.Machine

/-! ## Acceptance of a command -/

/-- What the state is after a command is accepted in `s`: it is answered at once, with one register written at most, or its start rule
has run (46_system.md R290). -/
inductive Accepts (s : State) : State → Prop
  | answer (op : Byte) (r : Rsp) : Accepts s (s.answered op r)
  | emptyBuffer (op : Byte) (r : Rsp) : Accepts s { s.answered op r with dout := s.dout ++ [0x100#9] }
  | stores {op : Byte} (r : Rsp) {cs : List Chunk} {c : Chunk} (p : Nat) (hop : op = opCtAppend ∨ op = opCtInsert)
      (hcont : s.cont = some cs) (hck : s.ck = some c) (hroom : cs.length < s.params.capChunks.toNat)
      (hfits : capFits s.params (s.arch.contBytes + s.arch.ckBytes + chunkLen c) = true) :
      Accepts s { s.answered op r with cont := some (insertAt cs p c) }
  | gets (r : Rsp) {cs : List Chunk} {c : Chunk} (hcont : s.cont = some cs) (hc : c ∈ cs)
      (hfits : capFits s.params (s.arch.contBytes + chunkLen c) = true) : Accepts s { s.answered opCtGet r with ck := some c }
  | removes (r : Rsp) {cs : List Chunk} {i : Nat} {c : Chunk} (hcont : s.cont = some cs) (hc : cs[i]? = some c) :
      Accepts s { s.answered opCtRemove r with cont := some (cs.eraseIdx i), ck := some c }
  | crcCalc : Accepts s (s.accept opCrcCalc).startCrcCalc
  | ckMake (tc : Word) : Accepts s ((s.accept opCkMake).startCkMake tc)
  | ckParse : Accepts s (s.accept opCkParse).startCkParse
  | ctParse : Accepts s (s.accept opCtParse).startCtParse
  | ckSer {c : Chunk} (hck : s.ck = some c) : Accepts s { (s.accept opCkSer).beginChunk c with off := 0 }
  | ctSer (hcont : s.cont.isSome = true) : Accepts s { (s.accept opCtSer).enter .sSig with sidx := 0, off := 0 }
  | plain {op : Byte} {r : Rsp} {out : List Byte} (hop : PlainOp op) (hraw : (s.accept op).rawTxn = s.arch.emit r out) :
      Accepts s { s with op := op, ph := if out = [] then .sEob else .sRaw, cnt := 0, off := 0 }

section
variable {s : State}

theorem Accepts.of_answer {x : Txn} (op : Byte) (h : ∃ r, x = s.arch.answer r) : Accepts s ((s.accept op).complete x) := by
  obtain ⟨r, rfl⟩ := h
  exact .answer op r

theorem accepts_storeAt {op : Byte} (hop : op = opCtAppend ∨ op = opCtInsert) {cs : List Chunk} {c : Chunk} (hcont : s.cont = some cs)
    (hck : s.ck = some c) (p : Nat) : Accepts s ((s.accept op).complete (storeAt s.arch cs c p)) := by
  rcases storeAt_cases s.arch cs c p with ⟨hstore, -⟩ | ⟨hstore, hroom, hfits⟩
  · exact .of_answer op ⟨_, hstore⟩
  · rw [hstore]
    exact .stores _ p hop hcont hck hroom hfits

theorem accepts_ctAppend (s : State) : Accepts s ((s.accept opCtAppend).complete (fnCtAppend s.arch)) := by
  cases hcont : s.cont with
  | none => exact .of_answer _ ⟨_, fnCtAppend_of_none hcont⟩
  | some cs =>
    cases hck : s.ck with
    | none => exact .of_answer _ ⟨_, fnCtAppend_of_noChunk hcont hck⟩
    | some c =>
      rw [fnCtAppend_of_some hcont hck]
      exact accepts_storeAt (.inl rfl) hcont hck _

theorem accepts_ctInsert (s : State) (pos : Word) : Accepts s ((s.accept opCtInsert).complete (fnCtInsert s.arch pos)) := by
  cases hcont : s.cont with
  | none => exact .of_answer _ ⟨_, fnCtInsert_of_none hcont pos⟩
  | some cs =>
    cases hck : s.ck with
    | none => exact .of_answer _ ⟨_, fnCtInsert_of_noChunk hcont hck pos⟩
    | some c =>
      rw [fnCtInsert_of_some hcont hck]
      split
      · exact .answer _ _
      · exact accepts_storeAt (.inr rfl) hcont hck _

theorem accepts_ctGet (s : State) (pos : Word) : Accepts s ((s.accept opCtGet).complete (fnCtGet s.arch pos)) := by
  cases hcont : s.cont with
  | none => exact .of_answer _ ⟨_, fnCtGet_of_none hcont pos⟩
  | some cs =>
    cases hget : cs[pos.toNat]? with
    | none => exact .of_answer _ ⟨_, fnCtGet_of_outside hcont hget⟩
    | some c =>
      rw [fnCtGet_of_inside hcont hget]
      split
      · exact .answer _ _
      next hfits => exact .gets _ hcont (List.mem_of_getElem? hget) (Bool.eq_true_of_not_eq_false hfits)

theorem accepts_ctRemove (s : State) (tc : Word) : Accepts s ((s.accept opCtRemove).complete (fnCtRemove s.arch tc)) := by
  cases hcont : s.cont with
  | none => exact .of_answer _ ⟨_, fnCtRemove_of_none hcont tc⟩
  | some cs =>
    cases hfind : findFrom cs tc 0 with
    | none => exact .of_answer _ ⟨_, fnCtRemove_of_absent hcont hfind⟩
    | some i =>
      obtain ⟨c, hc, hremove⟩ := fnCtRemove_of_found (a := s.arch) hcont hfind
      rw [hremove]
      exact .removes _ hcont hc

theorem accepts_ckSer (s : State) : ∃ t, exec .ckSer s = .next t ∧ Accepts s t := by
  cases hck : s.ck with
  | none =>
    refine ⟨_, exec_ckSer_of_none hck, ?_⟩
    rw [fnCkSer_of_none hck]
    exact .emptyBuffer _ _
  | some c => exact ⟨_, exec_ckSer_of_some hck, .ckSer hck⟩

theorem accepts_ckData (s : State) : ∃ t, exec .ckData s = .next t ∧ Accepts s t := by
  cases hck : s.ck with
  | none =>
    refine ⟨_, exec_ckData s, ?_⟩
    rw [fnCkData_of_none hck]
    exact .emptyBuffer _ _
  | some c =>
    exact ⟨_, exec_ckData_of_some hck, .plain (.inl rfl) ((rawTxn_of_ckData rfl).trans (fnCkData_of_some hck))⟩

theorem accepts_ckText (s : State) : ∃ t, exec .ckText s = .next t ∧ Accepts s t := by
  cases hck : s.ck with
  | none =>
    refine ⟨_, exec_ckText s, ?_⟩
    rw [fnCkText_of_none hck]
    exact .emptyBuffer _ _
  | some c =>
    cases htext : textValid s.params.text c.data with
    | false =>
      refine ⟨_, exec_ckText s, ?_⟩
      rw [fnCkText_of_invalid hck htext]
      exact .emptyBuffer _ _
    | true =>
      exact ⟨_, exec_ckText_of_valid hck htext,
        .plain (.inr (.inl rfl)) ((rawTxn_of_ckText rfl).trans (fnCkText_of_valid hck htext))⟩

theorem accepts_ctSer (s : State) : ∃ t, exec .ctSer s = .next t ∧ Accepts s t := by
  cases hcont : s.cont with
  | none =>
    refine ⟨_, exec_ctSer_of_none hcont, ?_⟩
    rw [fnCtSer_of_none hcont]
    exact .emptyBuffer _ _
  | some cs => exact ⟨_, exec_ctSer_of_some hcont, .ctSer (by rw [hcont]; rfl)⟩

theorem accepts_ctList (s : State) : ∃ t, exec .ctList s = .next t ∧ Accepts s t := by
  cases hcont : s.cont with
  | none =>
    refine ⟨_, exec_ctList s, ?_⟩
    rw [fnCtList_of_none hcont]
    exact .emptyBuffer _ _
  | some cs =>
    exact ⟨_, exec_ctList_of_some hcont, .plain (.inr (.inr rfl)) ((rawTxn_of_ctList rfl).trans (fnCtList_of_some hcont))⟩

end

/-- Every command is accepted, with a next state. -/
theorem exec_accepts (s : State) (i : Instr) (hi : ∀ a buf, (transact i a buf).isSome = true) :
    ∃ t, exec i s = .next t ∧ Accepts s t := by
  cases i
  case nop | tyProps | undefinedOp => exact ⟨_, rfl, .answer _ _⟩
  case crcCalc => exact ⟨_, rfl, .crcCalc⟩
  case ckMake tc => exact ⟨_, rfl, .ckMake tc⟩
  case ckParse => exact ⟨_, rfl, .ckParse⟩
  case ctParse => exact ⟨_, rfl, .ctParse⟩
  case tyCheck tc => exact ⟨_, rfl, .of_answer _ (fnTyCheck_effect s.arch tc)⟩
  case ckType => exact ⟨_, rfl, .of_answer _ (fnCkType_effect s.arch)⟩
  case ckLen => exact ⟨_, rfl, .of_answer _ (fnCkLen_effect s.arch)⟩
  case ckCrc => exact ⟨_, rfl, .of_answer _ (fnCkCrc_effect s.arch)⟩
  case ctFind tc pos => exact ⟨_, rfl, .of_answer _ (fnCtFind_effect s.arch tc pos)⟩
  case ctCount => exact ⟨_, rfl, .of_answer _ (fnCtCount_effect s.arch)⟩
  case ctAppend => exact ⟨_, rfl, accepts_ctAppend s⟩
  case ctInsert pos => exact ⟨_, rfl, accepts_ctInsert s pos⟩
  case ctGet pos => exact ⟨_, rfl, accepts_ctGet s pos⟩
  case ctRemove tc => exact ⟨_, rfl, accepts_ctRemove s tc⟩
  case ckSer => exact accepts_ckSer s
  case ckData => exact accepts_ckData s
  case ckText => exact accepts_ckText s
  case ctSer => exact accepts_ctSer s
  case ctList => exact accepts_ctList s
  case signature | chunk | token | rsp => exact absurd (hi s.arch []) Bool.false_ne_true

theorem exec_decodeCmd_accepts (s : State) (w : CmdWord) : ∃ t, exec (decodeCmd w) s = .next t ∧ Accepts s t :=
  decodeCmd_rec (exec_accepts s) w

/-! ## A byte, an `EOB`, an emitted token -/

/-- A byte in any input phase changes no channel, and no register but `ck` where it ends a chunk (43_framer.md R227). -/
theorem takeByte_frame {b : Byte} {s t : State} (h : takeByte b s = .next t) : ByteFrame s t := by
  rcases takeByte_cases h with ⟨-, rfl⟩ | ⟨hph, -, rfl⟩ | ⟨hph, -, rfl⟩ | ⟨-, -, rfl⟩ | ⟨-, -, rfl⟩
  · constructor <;> simp
  · rw [State.takeMake]
    split_ifs <;> constructor <;> simp [hph]
  · rw [State.takeCalc]
    split_ifs <;> constructor <;> simp [hph]
  · constructor <;> simp
  · exact s.takeCounted_frame b

/-- What an `EOB` that ends a command changes: it answers, and only the commit of `CT_PARSE` writes `cont`, only the end of `CK_MAKE`
writes `ck` (43_framer.md R220, R224; 42_chunk.md R174). -/
structure EobFrame (s t : State) : Prop where
  params : t.params = s.params
  cmd : t.cmd = s.cmd
  din : t.din = s.din
  dout : t.dout = s.dout
  op : t.op = s.op
  ph : t.ph = .idle
  rsp : ∃ r, t.rsp = s.rsp ++ [r]
  cont : t.cont = s.cont ∨ (s.ph = .len ∧ s.op = opCtParse ∧ s.cnt = 0 ∧ t.cont = some s.stg)
  ck : t.ck = s.ck ∨ (s.ph = .load ∧ s.op = opCkMake ∧ t.ck = some s.framed)

theorem eobFrame_respond (s : State) (r : Rsp) : EobFrame s (s.respond r) :=
  ⟨rfl, rfl, rfl, rfl, rfl, rfl, ⟨r, rfl⟩, .inl rfl, .inl rfl⟩

theorem takeEob_frame {s t : State} (h : takeEob s = .next t) : EobFrame s t := by
  rcases takeEob_cases h with ⟨-, rfl⟩ | ⟨hph, hop, hcnt, rfl⟩ | ⟨-, rfl⟩ | ⟨e, -, -, rfl⟩ | ⟨hph, rfl⟩ | ⟨-, -, -, -, -, rfl⟩
  · exact eobFrame_respond s _
  · exact ⟨rfl, rfl, rfl, rfl, rfl, rfl, ⟨_, rfl⟩, .inr ⟨hph, hop, hcnt, rfl⟩, .inl rfl⟩
  · exact eobFrame_respond s _
  · exact eobFrame_respond s _
  · by_cases hop : s.op = opCkMake
    · rw [State.loadDone, if_pos hop]
      exact ⟨rfl, rfl, rfl, rfl, rfl, rfl, ⟨_, rfl⟩, .inl rfl, .inr ⟨hph, hop, rfl⟩⟩
    · rw [State.loadDone, if_neg hop]
      exact eobFrame_respond s _
  · exact eobFrame_respond s _

theorem emitted_enter (s : State) (p : Phase) : Emitted s (s.enter p) [] := by constructor <;> simp

theorem emitted_nextChunk (s : State) : Emitted s s.nextChunk [] ∧ s.nextChunk.ph.isEmitter = true := by
  rcases nextChunk_cases s with ⟨c, -, hnext⟩ | ⟨-, hnext⟩ <;> rw [hnext]
  · exact ⟨{ emitted_enter s .sLen with }, rfl⟩
  · exact ⟨emitted_enter s _, rfl⟩

theorem emitted_afterCrc (s : State) : Emitted s s.afterCrc [] ∧ s.afterCrc.ph.isEmitter = true := by
  rw [State.afterCrc]
  split
  · obtain ⟨hemit, hph⟩ := emitted_nextChunk { s with sidx := s.sidx + 1 }
    exact ⟨{ hemit with }, hph⟩
  · exact ⟨emitted_enter s _, rfl⟩

/-- A field emits one byte and stays inside the emitter (44_serializer.md R248). -/
theorem emitField_emitted {s t : State} {field : List Byte} {k : State → State}
    (hk : ∀ u, Emitted u (k u) [] ∧ (k u).ph.isEmitter = true) (hph : s.ph.isEmitter = true) (h : s.emitField field k = .next t) :
    ∃ b, Emitted s t [b] ∧ t.ph.isEmitter = true := by
  obtain ⟨b, -, rfl⟩ := emitField_cases h
  refine ⟨b, ?_⟩
  split
  · exact ⟨(emitted_emitByte s b).trans (hk _).1, (hk _).2⟩
  · exact ⟨emitted_emitByte s b, hph⟩

/-- An emitter step emits one byte, or the `EOB` and the answer (46_system.md R291 (c)). -/
theorem emitStep_emitted {s t : State} (h : emitStep s = .next t) (he : s.ph.isEmitter = true) :
    (∃ b, Emitted s t [b] ∧ t.ph.isEmitter = true) ∨ t = (s.putTok .eob).respond s.emitRsp := by
  have henter : ∀ p : Phase, p.isEmitter = true → ∀ u : State, Emitted u (u.enter p) [] ∧ (u.enter p).ph.isEmitter = true :=
    fun p hp u => ⟨emitted_enter u p, hp⟩
  obtain ⟨-, ⟨-, -, hfield⟩ | ⟨c, -, hph, hchunk⟩ | ⟨hph, hraw⟩ | ⟨-, ht⟩⟩ := emitStep_cases h he
  · exact .inl (emitField_emitted emitted_nextChunk he hfield)
  · left
    rcases hph with hph | hph | hph | hph
    · exact emitField_emitted (henter .sType rfl) he ((emitChunk_of_sLen hph).symm.trans hchunk)
    · exact emitField_emitted (henter _ (by split <;> rfl)) he ((emitChunk_of_sType hph).symm.trans hchunk)
    · exact emitField_emitted (henter .sCrc rfl) he ((emitChunk_of_sData hph).symm.trans hchunk)
    · exact emitField_emitted emitted_afterCrc he ((emitChunk_of_sCrc hph).symm.trans hchunk)
  · left
    obtain ⟨b, -, rfl⟩ := emitRaw_cases hraw
    refine ⟨b, ?_⟩
    split
    · exact ⟨{ emitted_emitByte s b with }, rfl⟩
    · exact ⟨emitted_emitByte s b, he⟩
  · exact .inr ht

/-! ## The channels -/

theorem Accepts.channels {s t : State} (h : Accepts s t) :
    t.cmd = s.cmd ∧ t.din = s.din ∧ (t.dout = s.dout ∨ ∃ k, t.dout = s.dout ++ [k])
      ∧ (t.rsp = s.rsp ∨ (t.ph = .idle ∧ ∃ r, t.rsp = s.rsp ++ [r])) := by
  cases h
  case emptyBuffer => exact ⟨rfl, rfl, .inr ⟨_, rfl⟩, .inr ⟨rfl, _, rfl⟩⟩
  case answer | stores | gets | removes => exact ⟨rfl, rfl, .inl rfl, .inr ⟨rfl, _, rfl⟩⟩
  case crcCalc | ckMake | ckParse | ctParse | ckSer | ctSer | plain => exact ⟨rfl, rfl, .inl rfl, .inl rfl⟩

theorem ne_idle_of_isInput {s : State} (h : s.ph.isInput = true) : s.ph ≠ .idle := fun hidle => by
  rw [hidle] at h
  exact Bool.false_ne_true h

theorem ne_idle_of_isEmitter {s : State} (h : s.ph.isEmitter = true) : s.ph ≠ .idle := fun hidle => by
  rw [hidle] at h
  exact Bool.false_ne_true h

theorem append_singleton_ne {α : Type} {l l' : List α} {a : α} (h : l = l' ++ [a]) : l ≠ l' := by
  simp [h]

/-- Settles O7: each kind of step has its frame. -/
theorem stepMovesChannelsInOrder : Obligations.StepMovesChannelsInOrder := by
  intro s t h
  rcases step_cases s with ⟨hidle, hcmd, hstep⟩ | ⟨w, rest, hidle, hcmd, hstep⟩ | ⟨hin, hdin, hstep⟩
    | ⟨w, rest, hin, hdin, hstep⟩ | ⟨he, hstep⟩
  all_goals rw [hstep] at h
  · obtain rfl := Host.Outcome.next.inj h
    simp [hidle, hcmd, Phase.isInput]
  · obtain ⟨u, hexec, haccepts⟩ := exec_decodeCmd_accepts { s with cmd := rest } w
    obtain rfl : u = t := Host.Outcome.next.inj (hexec.symm.trans h)
    obtain ⟨hc, hd, hdout, hrsp⟩ := haccepts.channels
    have hnot : s.ph.isInput = false := by rw [hidle]; rfl
    exact ⟨by rw [if_pos hidle, hcmd]; exact hc, by rw [hnot]; exact hd, hdout.imp_right (⟨hnot, ·⟩), hrsp, absurd hidle⟩
  · obtain rfl := Host.Outcome.next.inj h
    simp [ne_idle_of_isInput hin, hin, hdin]
  · have hne := ne_idle_of_isInput hin
    rcases takeToken_cases h with ⟨hnot, -⟩ | ⟨-, -, ⟨d, -, hbyte⟩ | ⟨-, heob⟩⟩
    · exact absurd (hin.symm.trans hnot) Bool.noConfusion
    · have hframe := takeByte_frame hbyte
      have hnot : t.ph ≠ .idle := ne_idle_of_isInput (takeByte_isInput _ _ _ hbyte hin)
      rw [if_neg hne, if_pos hin, hdin]
      exact ⟨hframe.cmd, hframe.din, .inl hframe.dout, .inl hframe.rsp, fun _ hidle => absurd hidle hnot⟩
    · have hframe := takeEob_frame heob
      obtain ⟨r, hrsp⟩ := hframe.rsp
      rw [if_neg hne, if_pos hin, hdin]
      exact ⟨hframe.cmd, hframe.din, .inl hframe.dout, .inr ⟨hframe.ph, r, hrsp⟩, fun _ _ => append_singleton_ne hrsp⟩
  · have hne := ne_idle_of_isEmitter he
    have hnot : s.ph.isInput = false := by
      rcases s.ph.kinds with ⟨-, hi, -⟩ | ⟨-, -, hi⟩ | ⟨-, hi, -⟩
      exacts [hi, absurd (he.symm.trans hi) Bool.noConfusion, hi]
    rw [if_neg hne, hnot]
    rcases emitStep_emitted h he with ⟨b, hemit, hph⟩ | rfl
    · exact ⟨hemit.cmd, hemit.din, .inr ⟨rfl, _, hemit.dout⟩, .inl hemit.rsp, fun _ hidle => absurd hidle (ne_idle_of_isEmitter hph)⟩
    · exact ⟨rfl, rfl, .inr ⟨rfl, _, rfl⟩, .inr ⟨rfl, _, rfl⟩, fun _ _ => append_singleton_ne rfl⟩

/-! ## The registers -/

/-- The commands that write `cont` (10_state.md R21). -/
theorem contWriters : opCtParse ∈ [0x30#8, 0x32#8, 0x33#8, 0x36#8] ∧ opCtAppend ∈ [0x30#8, 0x32#8, 0x33#8, 0x36#8]
    ∧ opCtInsert ∈ [0x30#8, 0x32#8, 0x33#8, 0x36#8] ∧ opCtRemove ∈ [0x30#8, 0x32#8, 0x33#8, 0x36#8] := by decide

/-- The commands that write `ck` (10_state.md R22). -/
theorem ckWriters : opCkMake ∈ [0x20#8, 0x21#8, 0x35#8, 0x36#8] ∧ opCkParse ∈ [0x20#8, 0x21#8, 0x35#8, 0x36#8]
    ∧ opCtGet ∈ [0x20#8, 0x21#8, 0x35#8, 0x36#8] ∧ opCtRemove ∈ [0x20#8, 0x21#8, 0x35#8, 0x36#8] := by decide

theorem Accepts.registers {s t : State} (h : Accepts s t) :
    t.params = s.params ∧ (t.cont ≠ s.cont → t.op ∈ [0x30#8, 0x32#8, 0x33#8, 0x36#8])
      ∧ (t.ck ≠ s.ck → t.op ∈ [0x20#8, 0x21#8, 0x35#8, 0x36#8]) := by
  obtain ⟨hcontParse, happend, hinsert, hcontRemove⟩ := contWriters
  obtain ⟨hmake, hckParse, hget, hckRemove⟩ := ckWriters
  cases h
  case stores p hop _ _ _ _ =>
    refine ⟨rfl, fun _ => ?_, fun h => absurd rfl h⟩
    rcases hop with rfl | rfl
    · exact happend
    · exact hinsert
  case gets => exact ⟨rfl, fun h => absurd rfl h, fun _ => hget⟩
  case removes => exact ⟨rfl, fun _ => hcontRemove, fun _ => hckRemove⟩
  case ckMake => exact ⟨rfl, fun h => absurd rfl h, fun _ => hmake⟩
  case ckParse => exact ⟨rfl, fun h => absurd rfl h, fun _ => hckParse⟩
  case ctParse => exact ⟨rfl, fun _ => hcontParse, fun h => absurd rfl h⟩
  case answer | emptyBuffer | crcCalc | ckSer | ctSer | plain => exact ⟨rfl, fun h => absurd rfl h, fun h => absurd rfl h⟩

/-- A byte writes `ck` only where `CK_PARSE` ends its chunk. -/
theorem ByteFrame.ck_of_used {s t : State} (h : ByteFrame s t) (hused : s.ph.usedBy s.op = true) (hne : t.ck ≠ s.ck) :
    t.op = opCkParse := by
  rcases h.ck with hck | ⟨hph, hop, -, -⟩
  · exact absurd hck hne
  · rw [hph] at hused
    rw [h.op]
    simpa [Phase.usedBy, hop] using hused

/-- Settles O8: acceptance writes the destination of its command, a byte `ck` for `CK_PARSE`, an `EOB` `cont` for `CT_PARSE` and
`ck` for `CK_MAKE`, and the emitter no register. -/
theorem registersAreWrittenByTheirCommandsOnly : Obligations.RegistersAreWrittenByTheirCommandsOnly := by
  intro s t h
  obtain ⟨hctParse, -, -, -⟩ := contWriters
  obtain ⟨hmake, hckParse, -, -⟩ := ckWriters
  rcases step_cases s with ⟨-, -, hstep⟩ | ⟨w, rest, hidle, -, hstep⟩ | ⟨-, -, hstep⟩ | ⟨w, rest, hin, hdin, hstep⟩ | ⟨he, hstep⟩
  all_goals rw [hstep] at h
  · obtain rfl := Host.Outcome.next.inj h
    exact ⟨rfl, fun h => absurd rfl h, fun h => absurd rfl h, fun _ _ h => absurd rfl h⟩
  · obtain ⟨u, hexec, haccepts⟩ := exec_decodeCmd_accepts { s with cmd := rest } w
    obtain rfl : u = t := Host.Outcome.next.inj (hexec.symm.trans h)
    obtain ⟨hparams, hcont, hck⟩ := haccepts.registers
    exact ⟨hparams, hcont, hck, fun hin => absurd hidle (ne_idle_of_isInput hin)⟩
  · obtain rfl := Host.Outcome.next.inj h
    exact ⟨rfl, fun h => absurd rfl h, fun h => absurd rfl h, fun _ _ h => absurd rfl h⟩
  · rcases takeToken_cases h with ⟨hnot, -⟩ | ⟨-, hused, ⟨d, -, hbyte⟩ | ⟨htok, heob⟩⟩
    · exact absurd (hin.symm.trans hnot) Bool.noConfusion
    · have hframe := takeByte_frame hbyte
      exact ⟨hframe.params, fun h => absurd hframe.cont h, fun h => by rw [hframe.ck_of_used hused h]; exact hckParse,
        fun _ _ h => absurd hframe.cont h⟩
    · have hframe := takeEob_frame heob
      have hbit : w.getLsbD 8 = true := by
        cases hbit : w.getLsbD 8 with
        | false => rw [hbit] at htok; cases htok
        | true => rfl
      refine ⟨hframe.params, fun h => ?_, fun h => ?_, fun _ _ h => ?_⟩
      · obtain ⟨-, hop, -, -⟩ := hframe.cont.resolve_left h
        rw [hframe.op, hop]
        exact hctParse
      · obtain ⟨-, hop, -⟩ := hframe.ck.resolve_left h
        rw [hframe.op, hop]
        exact hmake
      · obtain ⟨hph, -, hcnt, hcommit⟩ := hframe.cont.resolve_left h
        exact ⟨hph, hcnt, ⟨w, rest, hdin, hbit⟩, hcommit⟩
  · rcases emitStep_emitted h he with ⟨b, hemit, -⟩ | rfl
    · exact ⟨hemit.params, fun h => absurd hemit.cont h, fun h => absurd hemit.ck h, fun _ _ h => absurd hemit.cont h⟩
    · exact ⟨rfl, fun h => absurd rfl h, fun h => absurd rfl h, fun _ _ h => absurd rfl h⟩

end Sys2Proof.Machine
end

section
/-! PROOF. The invariant of the block (`State.Inv`): it holds after reset, every kind of step keeps it, and a step from a state that
meets it is never a fault. What is accepted, taken or emitted is treated in the order of `step_cases`; each field of the framer and of the
emitter hands its registers on to the next one. -/
namespace Sys2Proof.Machine

/-! ## The store -/

/-- The store is within its bounds whatever the channels and the working registers hold. -/
theorem StoreOk.congr {s t : State} (h : StoreOk s) (hparams : t.params = s.params) (hcont : t.cont = s.cont) (hck : t.ck = s.ck) :
    StoreOk t := by
  have harch : t.arch = s.arch := by simp [State.arch, hparams, hcont, hck]
  exact ⟨by rw [hparams, hcont]; exact h.cont, by rw [hck]; exact h.ck, by rw [hparams, harch]; exact h.bytes⟩

theorem listOk_nil (p : Config.Params) : ListOk p [] := ⟨fun _ h => absurd h List.not_mem_nil, Nat.zero_le _⟩

theorem contBytes_of_some {a : Arch} {cs : List Chunk} (h : a.cont = some cs) : a.contBytes = payloadBytes cs := by
  rw [Arch.contBytes, h]
  rfl

theorem ckBytes_of_some {a : Arch} {c : Chunk} (h : a.ck = some c) : a.ckBytes = chunkLen c := by
  rw [Arch.ckBytes, h]
  rfl

theorem payloadBytes_insertAt (cs : List Chunk) (p : Nat) (c : Chunk) :
    payloadBytes (insertAt cs p c) = payloadBytes cs + chunkLen c := by
  have hparts := payloadBytes_append (cs.take p) (cs.drop p)
  rw [List.take_append_drop] at hparts
  simp [insertAt, payloadBytes_append, hparts]
  omega

theorem payloadBytes_eraseIdx {cs : List Chunk} {i : Nat} {c : Chunk} (h : cs[i]? = some c) :
    payloadBytes (cs.eraseIdx i) + chunkLen c = payloadBytes cs := by
  obtain ⟨hi, rfl⟩ := List.getElem?_eq_some_iff.mp h
  have hparts := payloadBytes_append (cs.take i) (cs.drop i)
  rw [List.take_append_drop, List.drop_eq_getElem_cons hi] at hparts
  rw [List.eraseIdx_eq_take_drop_succ, payloadBytes_append, hparts, payloadBytes_cons]
  omega

/-- A chunk list with room for one more chunk takes a copy of one at any position (45_container_ops.md R263). -/
theorem ListOk.insertAt {p : Config.Params} {cs : List Chunk} (h : ListOk p cs) {c : Chunk} (hc : ChunkOk c)
    (hroom : cs.length < p.capChunks.toNat) (i : Nat) : ListOk p (insertAt cs i c) := by
  refine ⟨fun d hd => ?_, ?_⟩
  · simp only [Machine.insertAt, List.mem_append, List.mem_singleton] at hd
    rcases hd with (hd | rfl) | hd
    exacts [h.1 d (List.mem_of_mem_take hd), hc, h.1 d (List.mem_of_mem_drop hd)]
  · simp [Machine.insertAt]
    omega

theorem ListOk.eraseIdx {p : Config.Params} {cs : List Chunk} (h : ListOk p cs) (i : Nat) : ListOk p (cs.eraseIdx i) :=
  ⟨fun d hd => h.1 d (List.mem_of_mem_eraseIdx hd), (List.length_eraseIdx_le cs i).trans h.2⟩

section
variable {s : State} (h : StoreOk s)
include h

/-- The container may be replaced by a list that is within bounds beside `ck`. -/
theorem StoreOk.withCont {t : State} {cs : List Chunk} (hparams : t.params = s.params) (hcont : t.cont = some cs) (hck : t.ck = s.ck)
    (hlist : ListOk s.params cs) (hfits : capFits s.params (payloadBytes cs + s.arch.ckBytes) = true) : StoreOk t := by
  refine ⟨fun ds hds => ?_, by rw [hck]; exact h.ck, ?_⟩
  · rw [hparams, Option.some.inj (hds.symm.trans hcont)]
    exact hlist
  · have hckBytes : t.arch.ckBytes = s.arch.ckBytes := by
      rw [Arch.ckBytes, Arch.ckBytes, show t.arch.ck = s.arch.ck from hck]
    rw [hparams, contBytes_of_some (show t.arch.cont = some cs from hcont), hckBytes]
    exact hfits

/-- `ck` may be replaced by a chunk that is within bounds beside the container. -/
theorem StoreOk.withCk {t : State} {c : Chunk} (hparams : t.params = s.params) (hcont : t.cont = s.cont) (hck : t.ck = some c)
    (hc : ChunkOk c) (hfits : capFits s.params (s.arch.contBytes + chunkLen c) = true) : StoreOk t := by
  refine ⟨by rw [hparams, hcont]; exact h.cont, fun d hd => ?_, ?_⟩
  · rw [Option.some.inj (hd.symm.trans hck)]
    exact hc
  · have hcontBytes : t.arch.contBytes = s.arch.contBytes := by
      rw [Arch.contBytes, Arch.contBytes, show t.arch.cont = s.arch.cont from hcont]
    rw [hparams, ckBytes_of_some (show t.arch.ck = some c from hck), hcontBytes]
    exact hfits

/-- Emptying `ck` leaves the store within bounds (42_chunk.md R170). -/
theorem StoreOk.dropCk : StoreOk { s with ck := none } :=
  ⟨h.cont, nofun, capFits_mono (Nat.add_le_add_left (Nat.zero_le _) _) h.bytes⟩

/-- Emptying `cont` leaves the store within bounds (43_framer.md R202). -/
theorem StoreOk.dropCont : StoreOk { s with cont := none } :=
  ⟨nofun, h.ck, capFits_mono (Nat.add_le_add_right (Nat.zero_le _) _) h.bytes⟩

end

/-- Settles O11: nothing is held after reset. -/
theorem invariantHoldsAtReset : Obligations.InvariantHoldsAtReset where
  store := ⟨nofun, nofun, rfl⟩
  dout := nofun
  used := rfl
  phase := trivial

/-! ## Acceptance -/

/-- In `IDLE` nothing is asked of the working registers. -/
theorem inv_of_idle {t : State} (hph : t.ph = .idle) (hstore : StoreOk t) (hdout : ∀ k ∈ t.dout, TokOk k) : t.Inv where
  store := hstore
  dout := hdout
  used := by rw [hph]; rfl
  phase := by rw [PhaseOk, hph]; trivial

theorem tokOk_append {l : List TokWord} (hl : ∀ k ∈ l, TokOk k) {w : TokWord} (hw : TokOk w) : ∀ k ∈ l ++ [w], TokOk k := by
  intro k hk
  rcases List.mem_append.mp hk with hk | hk
  · exact hl k hk
  · rw [List.mem_singleton.mp hk]
    exact hw

theorem tokOk_eob : TokOk (tokWord .eob) := fun _ => rfl

theorem tokOk_byte (b : Byte) : TokOk (tokWord (.b b)) := fun h => absurd ((tokWord_b_fields b).1.symm.trans h) Bool.false_ne_true

/-- The framer starts with nothing staged and its destination empty (43_framer.md R209). -/
theorem framingOk_start {s : State} (hstore : StoreOk s) (hstg : s.stg = []) (hct : s.op = opCtParse → s.cont = none)
    (hck : s.op = opCkParse → s.ck = none) : FramingOk s where
  ctDest := hct
  ckDest := fun hop => ⟨hck hop, hstg⟩
  stg := by rw [hstg]; exact listOk_nil _
  bytes := by
    have hbytes : s.framedBytes = s.arch.contBytes + s.arch.ckBytes := by rw [State.framedBytes, hstg]; rfl
    rw [hbytes]
    exact hstore.bytes

theorem PlainOp.used {op : Byte} (h : PlainOp op) : Phase.sRaw.usedBy op = true ∧ Phase.sEob.usedBy op = true := by
  rcases h with rfl | rfl | rfl <;> exact ⟨rfl, rfl⟩

theorem Accepts.inv {s t : State} (h : Accepts s t) (hstore : StoreOk s) (hdout : ∀ k ∈ s.dout, TokOk k) : t.Inv := by
  cases h
  case answer => exact inv_of_idle rfl (hstore.congr rfl rfl rfl) hdout
  case emptyBuffer => exact inv_of_idle rfl (hstore.congr rfl rfl rfl) (tokOk_append hdout tokOk_eob)
  case stores r cs c p hop hcont hck hroom hfits =>
    refine inv_of_idle rfl (hstore.withCont rfl rfl rfl ((hstore.cont cs hcont).insertAt (hstore.ck c hck) hroom p) ?_) hdout
    rw [payloadBytes_insertAt, Nat.add_right_comm, ← contBytes_of_some (a := s.arch) hcont]
    exact hfits
  case gets r cs c hcont hc hfits =>
    exact inv_of_idle rfl (hstore.withCk rfl rfl rfl ((hstore.cont cs hcont).1 c hc) hfits) hdout
  case removes r cs i c hcont hc =>
    have hlist := hstore.cont cs hcont
    have hbytes := payloadBytes_eraseIdx hc
    have hfits : capFits s.params (payloadBytes (cs.eraseIdx i) + chunkLen c) = true := by
      rw [hbytes, ← contBytes_of_some (a := s.arch) hcont]
      exact capFits_mono (Nat.le_add_right _ _) hstore.bytes
    exact inv_of_idle rfl ⟨fun ds hds => Option.some.inj hds ▸ hlist.eraseIdx i,
      fun d hd => Option.some.inj hd ▸ hlist.1 c (List.mem_of_getElem? hc), hfits⟩ hdout
  case crcCalc => exact ⟨hstore.congr rfl rfl rfl, hdout, rfl, fun hop => absurd hop (show ¬opCrcCalc = opCkMake by decide)⟩
  case ckMake tc =>
    refine ⟨hstore.dropCk.congr rfl rfl rfl, hdout, rfl, fun _ => ⟨rfl, rfl, Nat.zero_le _, ?_⟩⟩
    exact capFits_mono (Nat.le_add_right _ _) hstore.bytes
  case ckParse =>
    have hstore' : StoreOk (s.accept opCkParse).startCkParse := hstore.dropCk.congr rfl rfl rfl
    exact ⟨hstore', hdout, rfl, framingOk_start hstore' rfl (fun hop => absurd hop (show ¬opCkParse = opCtParse by decide))
      (fun _ => rfl), Nat.zero_lt_succ _⟩
  case ctParse =>
    have hstore' : StoreOk (s.accept opCtParse).startCtParse := hstore.dropCont.congr rfl rfl rfl
    exact ⟨hstore', hdout, rfl, framingOk_start hstore' rfl (fun _ => rfl)
      (fun hop => absurd hop (show ¬opCtParse = opCkParse by decide)), rfl,
      Nat.zero_lt_succ _⟩
  case ckSer c hck => exact ⟨hstore.congr rfl rfl rfl, hdout, rfl, c, hck, rfl, Nat.zero_lt_succ _⟩
  case ctSer hcont => exact ⟨hstore.congr rfl rfl rfl, hdout, rfl, hcont, rfl, Nat.zero_lt_succ _⟩
  case plain op r out hop hraw =>
    obtain ⟨hrawUsed, heobUsed⟩ := hop.used
    by_cases hnil : out = []
    · rw [if_pos hnil]
      exact ⟨hstore.congr rfl rfl rfl, hdout, heobUsed, trivial⟩
    · rw [if_neg hnil]
      have hlist : State.rawList (s.accept op) = out := by rw [State.rawList, hraw]; rfl
      refine ⟨hstore.congr rfl rfl rfl, hdout, hrawUsed, ?_⟩
      show 0 < (State.rawList (s.accept op)).length
      rw [hlist]
      exact List.length_pos_iff.mpr hnil

/-! ## A byte -/

/-- Taking a token from `DIN` keeps the invariant. -/
theorem State.Inv.withDin {s : State} (h : s.Inv) (rest : List TokWord) : State.Inv { s with din := rest } where
  store := h.store.congr rfl rfl rfl
  dout := h.dout
  used := h.used
  phase := by
    have hframing : FramingOk { s with din := rest } = FramingOk s := propext ⟨fun h => { h with }, fun h => { h with }⟩
    rw [PhaseOk, hframing]
    exact h.phase

/-- The working registers fit a phase that the running command uses. -/
def Fits (s : State) : Prop := s.ph.usedBy s.op = true ∧ PhaseOk s

theorem fits_toDrain {s : State} (hused : Phase.drain.usedBy s.op = true) (e : PendingError) : Fits (s.toDrain e) := ⟨hused, rfl⟩

theorem framing_of_used {s : State} (h : s.ph.usedBy s.op = true) (hph : s.ph = .len ∨ s.ph = .type ∨ s.ph = .data ∨ s.ph = .crc) :
    Framing s := by
  rcases hph with hph | hph | hph | hph <;> rw [hph] at h <;> simpa [Framing, Phase.usedBy] using h

/-- A phase that both framing commands use is used by the running one (43_framer.md R208). -/
theorem Framing.used {s : State} (h : Framing s) {p : Phase} (hct : p.usedBy opCtParse = true) (hck : p.usedBy opCkParse = true) :
    p.usedBy s.op = true := by
  rcases h with h | h <;> rw [h] <;> assumption

theorem toNat_succ_le {n : Nat} (x : BitVec n) : (x + 1).toNat ≤ x.toNat + 1 := by
  rw [BitVec.toNat_add]
  exact (Nat.mod_le _ _).trans (Nat.add_le_add_left (Nat.mod_le _ _) _)

/-- Before the last byte of a field of `m + 1` bytes the counter stays inside it. -/
theorem cnt_succ_lt {x m : Word} (hx : x.toNat < m.toNat + 1) (hne : x ≠ m) : (x + 1).toNat < m.toNat + 1 := by
  have hlt : x.toNat ≠ m.toNat := fun h => hne (BitVec.eq_of_toNat_eq h)
  have := toNat_succ_le x
  omega

section
variable {s : State}

theorem phaseOk_sig (h : s.ph = .sig) : PhaseOk s ↔ FramingOk s ∧ s.stg = [] ∧ s.cnt.toNat < 8 := by rw [PhaseOk, h]

theorem phaseOk_len (h : s.ph = .len) : PhaseOk s ↔ FramingOk s ∧ s.cnt.toNat < 4 := by rw [PhaseOk, h]

theorem phaseOk_type (h : s.ph = .type) : PhaseOk s ↔ FramingOk s ∧ LengthOk s ∧ s.pbuf = [] ∧ s.cnt.toNat < 4 := by rw [PhaseOk, h]

theorem phaseOk_data (h : s.ph = .data) :
    PhaseOk s ↔ FramingOk s ∧ LengthOk s ∧ s.pbuf.length = s.cnt.toNat ∧ s.cnt.toNat < s.len.toNat := by rw [PhaseOk, h]

theorem phaseOk_crc (h : s.ph = .crc) :
    PhaseOk s ↔ FramingOk s ∧ LengthOk s ∧ s.pbuf.length = s.len.toNat ∧ s.cnt.toNat < 4 := by rw [PhaseOk, h]

theorem phaseOk_load (h : s.ph = .load) : PhaseOk s ↔ (s.op = opCkMake →
    s.ck = none ∧ s.pbuf.length = s.len.toNat ∧ s.len.toNat ≤ Config.maxLen
      ∧ capFits s.params (s.arch.contBytes + s.pbuf.length) = true) := by rw [PhaseOk, h]

end

section
variable {s : State} (h : s.Inv) (b : Byte)
include h

theorem fits_takeSig (hph : s.ph = .sig) : Fits (s.takeSig b) := by
  have hop : s.op = opCtParse := by simpa [hph, Phase.usedBy] using h.used
  obtain ⟨hframing, hstg, hcnt⟩ := (phaseOk_sig hph).mp h.phase
  rw [takeSig_eq]
  split
  · split
    · exact ⟨by rw [hop]; rfl, { hframing with }, Nat.zero_lt_succ _⟩
    next hne => exact ⟨h.used, (phaseOk_sig (by exact hph)).mpr ⟨{ hframing with }, hstg, cnt_succ_lt hcnt hne⟩⟩
  · exact ⟨by rw [hop]; rfl, rfl⟩

theorem fits_takeLen (hph : s.ph = .len) : Fits (s.takeLen b) := by
  have hf := framing_of_used h.used (.inl hph)
  obtain ⟨hframing, hcnt⟩ := (phaseOk_len hph).mp h.phase
  rw [takeLen_eq]
  split
  · rw [State.lenComplete]
    split
    · exact fits_toDrain (hf.used rfl rfl) _
    next hmax =>
      split
      · exact fits_toDrain (hf.used rfl rfl) _
      next hfits =>
        have hlength := Bool.eq_true_of_not_eq_false fun hfalse => hfits (congrArg (!·) hfalse)
        exact ⟨hf.used rfl rfl, { hframing with }, ⟨Nat.le_of_not_lt hmax, hlength⟩, rfl, Nat.zero_lt_succ _⟩
  next hne => exact ⟨h.used, (phaseOk_len (by exact hph)).mpr ⟨{ hframing with }, cnt_succ_lt hcnt hne⟩⟩

theorem fits_takeType (hph : s.ph = .type) : Fits (s.takeType b) := by
  have hf := framing_of_used h.used (.inr (.inl hph))
  obtain ⟨hframing, hlength, hpbuf, hcnt⟩ := (phaseOk_type hph).mp h.phase
  rw [takeType_eq_ite]
  dsimp only
  split
  · by_cases hlen : s.len = 0
    · rw [if_pos hlen]
      have hsize : s.pbuf.length = s.len.toNat := by rw [hpbuf, hlen]; rfl
      exact ⟨hf.used rfl rfl, { hframing with }, hlength, hsize, Nat.zero_lt_succ _⟩
    · rw [if_neg hlen]
      have hpos : 0 < s.len.toNat := Nat.pos_of_ne_zero fun hzero => hlen (BitVec.eq_of_toNat_eq hzero)
      exact ⟨hf.used rfl rfl, { hframing with }, hlength, congrArg List.length hpbuf, hpos⟩
  next hne => exact ⟨h.used, (phaseOk_type (by exact hph)).mpr ⟨{ hframing with }, hlength, hpbuf, cnt_succ_lt hcnt hne⟩⟩

theorem fits_takeData (hph : s.ph = .data) : Fits (s.takeData b) := by
  have hf := framing_of_used h.used (.inr (.inr (.inl hph)))
  obtain ⟨hframing, hlength, hpbuf, hcnt⟩ := (phaseOk_data hph).mp h.phase
  have hpbuf' : (s.pbuf ++ [b]).length = s.cnt.toNat + 1 := by rw [List.length_append, hpbuf]; rfl
  rw [takeData_eq hcnt]
  dsimp only
  split
  next hlast => exact ⟨hf.used rfl rfl, { hframing with }, hlength, hpbuf'.trans hlast, Nat.zero_lt_succ _⟩
  next hne =>
    have hnext : (s.cnt + 1).toNat = s.cnt.toNat + 1 :=
      BitVec.toNat_add_of_lt (show s.cnt.toNat + 1 < 2 ^ 32 by have := s.len.isLt; omega)
    refine ⟨h.used, (phaseOk_data (by exact hph)).mpr ⟨{ hframing with }, hlength, hpbuf'.trans hnext.symm, ?_⟩⟩
    show (s.cnt + 1).toNat < s.len.toNat
    omega

/-- The chunk framed is one the block may hold, beside what it holds already. -/
theorem framed_ok (hph : s.ph = .crc) :
    ChunkOk s.framed ∧ capFits s.params (s.framedBytes + chunkLen s.framed) = true := by
  obtain ⟨-, ⟨hmax, hfits⟩, hpbuf, -⟩ := (phaseOk_crc hph).mp h.phase
  rw [← hpbuf] at hmax hfits
  exact ⟨hmax, hfits⟩

theorem fits_takeCrc (hph : s.ph = .crc) : Fits (s.takeCrc b) := by
  have hf := framing_of_used h.used (.inr (.inr (.inr hph)))
  obtain ⟨hframing, hlength, hpbuf, hcnt⟩ := (phaseOk_crc hph).mp h.phase
  obtain ⟨hchunk, hfits⟩ := framed_ok h hph
  rw [takeCrc_eq]
  split
  · rw [State.crcComplete]
    split
    · split
      next hop =>
        split
        · exact fits_toDrain (hf.used rfl rfl) _
        next hroom =>
          have hlist : ListOk s.params (s.stg ++ [s.framed]) := by
            rw [← insertAt_length]
            exact hframing.stg.insertAt hchunk (by simpa [capFull] using hroom) _
          have hbytes : s.framedBytes + chunkLen s.framed = s.arch.contBytes + s.arch.ckBytes + payloadBytes (s.stg ++ [s.framed]) := by
            simp [State.framedBytes, payloadBytes_append, Nat.add_assoc]
          rw [hbytes] at hfits
          have hdest : s.op ≠ opCkParse := fun hck => absurd (hop.symm.trans hck) (by decide)
          exact ⟨hf.used rfl rfl, ⟨hframing.ctDest, fun hck => absurd hck hdest, hlist, hfits⟩, Nat.zero_lt_succ _⟩
      next hop => exact ⟨by rw [show s.op = opCkParse from hf.resolve_left hop]; rfl, trivial⟩
    · exact fits_toDrain (hf.used rfl rfl) _
  next hne => exact ⟨h.used, (phaseOk_crc (by exact hph)).mpr ⟨{ hframing with }, hlength, hpbuf, cnt_succ_lt hcnt hne⟩⟩

theorem fits_takeMake (hph : s.ph = .load) (hop : s.op = opCkMake) : Fits (s.takeMake b) := by
  obtain ⟨hck, hpbuf, hmax, hfits⟩ := (phaseOk_load hph).mp h.phase hop
  have hdrain : Phase.drain.usedBy s.op = true := by rw [hop]; rfl
  rw [State.takeMake]
  split
  · exact fits_toDrain hdrain _
  next hroom =>
    split
    · exact fits_toDrain hdrain _
    next hlimits =>
      have hnext : (s.len + 1).toNat = s.len.toNat + 1 :=
        BitVec.toNat_add_of_lt (show s.len.toNat + 1 < 2 ^ 32 by simp [Config.maxLen] at hroom; omega)
      have hlength : (s.pbuf ++ [b]).length = s.pbuf.length + 1 := List.length_append
      simp only [Bool.or_eq_true, Bool.not_eq_true', not_or, Bool.not_eq_false] at hlimits
      refine ⟨h.used, (phaseOk_load (by exact hph)).mpr fun _ => ⟨hck, ?_, ?_, ?_⟩⟩
      · show (s.pbuf ++ [b]).length = (s.len + 1).toNat
        rw [hnext, hlength, hpbuf]
      · show (s.len + 1).toNat ≤ _
        omega
      · show capFits s.params (s.arch.contBytes + (s.pbuf ++ [b]).length) = true
        rw [hlength]
        exact hlimits.2

theorem fits_takeCalc (hph : s.ph = .load) (hop : s.op ≠ opCkMake) : Fits (s.takeCalc b) := by
  have hcalc : s.op = opCrcCalc := by simpa [hph, Phase.usedBy, hop] using h.used
  rw [State.takeCalc]
  split
  · exact fits_toDrain (by rw [hcalc]; rfl) _
  · exact ⟨h.used, (phaseOk_load (by exact hph)).mpr fun hmake => absurd hmake hop⟩

end

end Sys2Proof.Machine
end

section
/-! PROOF. Every step keeps the invariant of the block, and none from a state that meets it stops (46_system.md R296): the tokens and
the emitter, on the rules of the phases. -/
namespace Sys2Proof.Machine

section
variable {s t : State} (h : s.Inv)
include h

/-! ## Tokens -/

theorem fits_takeCounted (b : Byte) (hcnt : s.cnt.toNat < s.fieldSize) : Fits (s.takeCounted b) := by
  cases hph : s.ph
  case sig => rw [takeCounted_of_sig b hph]; exact fits_takeSig h b hph
  case len => rw [takeCounted_of_len b hph]; exact fits_takeLen h b hph
  case type => rw [takeCounted_of_type b hph]; exact fits_takeType h b hph
  case data => rw [takeCounted_of_data b hph]; exact fits_takeData h b hph
  case crc => rw [takeCounted_of_crc b hph]; exact fits_takeCrc h b hph
  all_goals
    rw [State.fieldSize, hph] at hcnt
    exact absurd hcnt (Nat.not_lt_zero _)

/-- A phase with a field is one of the framer's. -/
theorem drain_used_of_counted (hcnt : s.cnt.toNat < s.fieldSize) : Phase.drain.usedBy s.op = true := by
  have hused := h.used
  cases hph : s.ph
  case sig =>
    rw [hph] at hused
    rw [show s.op = opCtParse by simpa [Phase.usedBy] using hused]
    rfl
  case len | type | data | crc => exact (framing_of_used hused (by simp [hph])).used rfl rfl
  all_goals
    rw [State.fieldSize, hph] at hcnt
    exact absurd hcnt (Nat.not_lt_zero _)

theorem fits_takeByte {b : Byte} (hb : takeByte b s = .next t) : Fits t := by
  rcases takeByte_cases hb with ⟨-, rfl⟩ | ⟨hph, hop, rfl⟩ | ⟨hph, hop, rfl⟩ | ⟨hcnt, -, rfl⟩ | ⟨hcnt, -, rfl⟩
  · exact ⟨h.used, h.phase⟩
  · exact fits_takeMake h b hph hop
  · exact fits_takeCalc h b hph hop
  · exact fits_toDrain (drain_used_of_counted h hcnt) _
  · exact fits_takeCounted h b hcnt

theorem inv_takeByte {b : Byte} (hb : takeByte b s = .next t) : t.Inv := by
  have hframe := takeByte_frame hb
  obtain ⟨hused, hphase⟩ := fits_takeByte h hb
  refine ⟨?_, by rw [hframe.dout]; exact h.dout, hused, hphase⟩
  rcases hframe.ck with hck | ⟨hph, -, hck, -⟩
  · exact h.store.congr hframe.params hframe.cont hck
  · obtain ⟨hchunk, hfits⟩ := framed_ok h hph
    refine h.store.withCk hframe.params hframe.cont hck hchunk (capFits_mono ?_ hfits)
    simp only [State.framedBytes]
    omega

/-- What is staged may become the container: it has been counted beside `ck` (43_framer.md R220). -/
theorem inv_takeEob (he : takeEob s = .next t) : t.Inv := by
  have hframe := takeEob_frame he
  refine inv_of_idle hframe.ph ?_ (by rw [hframe.dout]; exact h.dout)
  rcases hframe.cont with hcont | ⟨hph, hop, -, hcont⟩
  · rcases hframe.ck with hck | ⟨hph, hop, hck⟩
    · exact h.store.congr hframe.params hcont hck
    · obtain ⟨-, hpbuf, hmax, hfits⟩ := (phaseOk_load hph).mp h.phase hop
      exact h.store.withCk hframe.params hcont hck (hpbuf.trans_le hmax) hfits
  · have hck : t.ck = s.ck := hframe.ck.resolve_right fun hload => absurd (hph.symm.trans hload.1) (by decide)
    obtain ⟨hframing, -⟩ := (phaseOk_len hph).mp h.phase
    refine h.store.withCont hframe.params hcont hck hframing.stg (capFits_mono ?_ hframing.bytes)
    simp only [State.framedBytes]
    omega

theorem inv_takeToken {tok : Token} {w : TokWord} (hin : s.ph.isInput = true) (htok : takeToken tok w s = .next t) : t.Inv := by
  rcases takeToken_cases htok with ⟨hnot, -⟩ | ⟨-, -, ⟨b, -, hb⟩ | ⟨-, he⟩⟩
  · exact absurd (hin.symm.trans hnot) Bool.noConfusion
  · exact inv_takeByte h hb
  · exact inv_takeEob h he

/-! ## The emitter -/

omit h in
/-- What holds after a byte of a field: the counter stands inside the field, or what follows the field has begun. -/
theorem emitField_rule {P : State → Prop} {field : List Byte} {k : State → State} (hf : s.emitField field k = .next t)
    (hstay : ∀ b, (s.emitByte b).cnt.toNat < field.length → P (s.emitByte b)) (hnext : ∀ b, P (k (s.emitByte b))) : P t := by
  obtain ⟨b, hb, rfl⟩ := emitField_cases hf
  obtain ⟨hlt, -⟩ := List.getElem?_eq_some_iff.mp hb
  split
  · exact hnext b
  next hne =>
    have hle : (s.emitByte b).cnt.toNat ≤ s.cnt.toNat + 1 := toNat_succ_le s.cnt
    exact hstay b (by omega)

omit h in
/-- A chunk begins with its length field (44_serializer.md R248). -/
theorem fits_beginChunk {c : Chunk} (hused : Phase.sLen.usedBy s.op = true) (hc : (s.beginChunk c).emitted = some c) :
    Fits (s.beginChunk c) :=
  ⟨hused, c, hc, rfl, Nat.zero_lt_succ _⟩

omit h in
theorem fits_nextChunk (hop : s.op = opCtSer) : Fits s.nextChunk := by
  rcases nextChunk_cases s with ⟨c, hc, hnext⟩ | ⟨-, hnext⟩ <;> rw [hnext]
  · exact fits_beginChunk (by rw [hop]; rfl) ((if_pos hop).trans hc)
  · exact ⟨by rw [State.enter_op, hop]; rfl, trivial⟩

omit h in
theorem fits_afterCrc (hop : s.op = opCtSer ∨ s.op = opCkSer) : Fits s.afterCrc := by
  rw [State.afterCrc]
  split
  next hser => exact fits_nextChunk (by exact hser)
  next hser => exact ⟨by rw [State.enter_op, hop.resolve_left hser]; rfl, trivial⟩

theorem fits_sSig (hph : s.ph = .sSig) (hf : s.emitField Config.sig State.nextChunk = .next t) : Fits t := by
  have hop : s.op = opCtSer := by simpa [hph, Phase.usedBy] using h.used
  have hphase := h.phase
  rw [PhaseOk, hph] at hphase
  obtain ⟨hcont, hsidx, -⟩ := hphase
  refine emitField_rule hf (fun b hlt => ⟨h.used, ?_⟩) fun b => fits_nextChunk (by exact hop)
  rw [PhaseOk, show (s.emitByte b).ph = .sSig from hph]
  exact ⟨hcont, hsidx, hlt⟩

end

/-- The phases that emit a field of a chunk, with the size of the field (44_serializer.md R248). -/
def ChunkField (p : Phase) (size : Chunk → Nat) : Prop :=
  (p = .sLen ∧ size = fun _ => 4) ∨ (p = .sType ∧ size = fun _ => 4) ∨ (p = .sData ∧ size = chunkLen) ∨ (p = .sCrc ∧ size = fun _ => 4)

theorem ChunkField.phaseOk_iff {s : State} {size : Chunk → Nat} (h : ChunkField s.ph size) : PhaseOk s ↔ EmittingOk s size := by
  rcases h with ⟨hp, rfl⟩ | ⟨hp, rfl⟩ | ⟨hp, rfl⟩ | ⟨hp, rfl⟩ <;> rw [PhaseOk, hp]

theorem ChunkField.used {p : Phase} {size : Chunk → Nat} (h : ChunkField p size) (op : Byte) :
    p.usedBy op = true ↔ op = opCtSer ∨ op = opCkSer := by
  rcases h with ⟨rfl, -⟩ | ⟨rfl, -⟩ | ⟨rfl, -⟩ | ⟨rfl, -⟩ <;> simp [Phase.usedBy]

theorem exists_chunkField {p : Phase} (h : p = .sLen ∨ p = .sType ∨ p = .sData ∨ p = .sCrc) : ∃ size, ChunkField p size := by
  rcases h with rfl | rfl | rfl | rfl
  exacts [⟨_, .inl ⟨rfl, rfl⟩⟩, ⟨_, .inr (.inl ⟨rfl, rfl⟩)⟩, ⟨_, .inr (.inr (.inl ⟨rfl, rfl⟩))⟩, ⟨_, .inr (.inr (.inr ⟨rfl, rfl⟩))⟩]

section
variable {s t : State} {c : Chunk} (hser : s.op = opCtSer ∨ s.op = opCkSer) (hc : s.emitted = some c) (htc : s.tc = c.ty)
include hser hc htc

/-- The next field of the chunk begins. -/
theorem fits_enter {p : Phase} {size : Chunk → Nat} (hp : ChunkField p size) (hpos : 0 < size c) : Fits (s.enter p) :=
  ⟨(hp.used _).mpr hser, (ChunkField.phaseOk_iff (by exact hp)).mpr ⟨c, hc, htc, hpos⟩⟩

/-- A field of a chunk is emitted up to its end, then what follows it begins. -/
theorem fits_field {size : Chunk → Nat} {field : List Byte} {k : State → State} (hp : ChunkField s.ph size)
    (hsize : field.length = size c) (hf : s.emitField field k = .next t)
    (hnext : ∀ u : State, u.op = s.op → u.emitted = some c → u.tc = c.ty → Fits (k u)) : Fits t :=
  emitField_rule hf
    (fun b hlt => ⟨(hp.used _).mpr hser, (ChunkField.phaseOk_iff (by exact hp)).mpr ⟨c, hc, htc, hsize ▸ hlt⟩⟩)
    fun b => hnext _ rfl hc htc

theorem fits_emitChunk (hph : s.ph = .sLen ∨ s.ph = .sType ∨ s.ph = .sData ∨ s.ph = .sCrc) (hf : s.emitChunk c = .next t) :
    Fits t := by
  have hsCrc : ChunkField .sCrc (fun _ => 4) := .inr (.inr (.inr ⟨rfl, rfl⟩))
  rcases hph with hph | hph | hph | hph
  · rw [emitChunk_of_sLen hph] at hf
    exact fits_field hser hc htc (.inl ⟨hph, rfl⟩) rfl hf fun u hop hu htu =>
      fits_enter (hop ▸ hser) hu htu (.inr (.inl ⟨rfl, rfl⟩)) (Nat.zero_lt_succ _)
  · rw [emitChunk_of_sType hph] at hf
    refine fits_field hser hc htc (.inr (.inl ⟨hph, rfl⟩)) rfl hf fun u hop hu htu => ?_
    split
    · exact fits_enter (hop ▸ hser) hu htu hsCrc (Nat.zero_lt_succ _)
    next hne => exact fits_enter (hop ▸ hser) hu htu (.inr (.inr (.inl ⟨rfl, rfl⟩))) (Nat.pos_of_ne_zero hne)
  · rw [emitChunk_of_sData hph] at hf
    exact fits_field hser hc htc (.inr (.inr (.inl ⟨hph, rfl⟩))) rfl hf fun u hop hu htu =>
      fits_enter (hop ▸ hser) hu htu hsCrc (Nat.zero_lt_succ _)
  · rw [emitChunk_of_sCrc hph] at hf
    exact fits_field hser hc htc (.inr (.inr (.inr ⟨hph, rfl⟩))) rfl hf fun u hop _ _ => fits_afterCrc (hop ▸ hser)

end

section
variable {s t : State} (h : s.Inv)
include h

/-- While a field of a chunk is emitted, the chunk is one of the store and `tc` its type code. -/
theorem emitting_of_phase (hph : s.ph = .sLen ∨ s.ph = .sType ∨ s.ph = .sData ∨ s.ph = .sCrc) :
    (s.op = opCtSer ∨ s.op = opCkSer) ∧ ∃ size, ChunkField s.ph size ∧ EmittingOk s size := by
  obtain ⟨size, hp⟩ := exists_chunkField hph
  exact ⟨(hp.used _).mp h.used, size, hp, hp.phaseOk_iff.mp h.phase⟩

theorem fits_emitRaw (hph : s.ph = .sRaw) (hf : s.emitRaw = .next t) : Fits t := by
  have hop : PlainOp s.op := by simpa [hph, Phase.usedBy, PlainOp, or_assoc] using h.used
  obtain ⟨hraw, heob⟩ := hop.used
  obtain ⟨b, hb, rfl⟩ := emitRaw_cases hf
  obtain ⟨hlt, -⟩ := List.getElem?_eq_some_iff.mp hb
  split
  · exact ⟨heob, trivial⟩
  next hne =>
    have hle : (s.emitByte b).off.toNat ≤ s.off.toNat + 1 := toNat_succ_le s.off
    refine ⟨h.used, ?_⟩
    rw [PhaseOk, show (s.emitByte b).ph = .sRaw from hph]
    show (s.emitByte b).off.toNat < s.rawList.length
    omega

theorem inv_emitStep (he : s.ph.isEmitter = true) (hstep : emitStep s = .next t) : t.Inv := by
  rcases emitStep_emitted hstep he with ⟨b, hb, hphEmit⟩ | rfl
  · have hfits : Fits t := by
      obtain ⟨-, ⟨hph, -, hf⟩ | ⟨c, hc, hph, hf⟩ | ⟨hph, hf⟩ | ⟨-, rfl⟩⟩ := emitStep_cases hstep he
      · exact fits_sSig h hph hf
      · obtain ⟨hser, size, -, d, hd, htc, -⟩ := emitting_of_phase h hph
        obtain rfl : d = c := Option.some.inj (hd.symm.trans hc)
        exact fits_emitChunk hser hc htc hph hf
      · exact fits_emitRaw h hph hf
      · exact absurd hphEmit Bool.false_ne_true
    obtain ⟨hused, hphase⟩ := hfits
    refine ⟨h.store.congr hb.params hb.cont hb.ck, ?_, hused, hphase⟩
    rw [hb.dout]
    exact tokOk_append h.dout (tokOk_byte b)
  · exact inv_of_idle rfl (h.store.congr rfl rfl rfl) (tokOk_append h.dout tokOk_eob)

end

/-- Settles O12, by the kind of step. -/
theorem stepKeepsInvariant : Obligations.StepKeepsInvariant := by
  intro s t h hstep
  rcases step_cases s with ⟨-, -, heq⟩ | ⟨w, rest, -, -, heq⟩ | ⟨-, -, heq⟩ | ⟨w, rest, hin, -, heq⟩ | ⟨he, heq⟩
  all_goals rw [heq] at hstep
  · exact Host.Outcome.next.inj hstep ▸ h
  · obtain ⟨u, hexec, haccepts⟩ := exec_decodeCmd_accepts { s with cmd := rest } w
    obtain rfl : u = t := Host.Outcome.next.inj (hexec.symm.trans hstep)
    exact haccepts.inv (h.store.congr rfl rfl rfl) h.dout
  · exact Host.Outcome.next.inj hstep ▸ h
  · exact inv_takeToken (h.withDin rest) hin hstep
  · exact inv_emitStep h he hstep

/-! ## Progress -/

section
variable {s : State} (h : s.Inv)
include h

theorem takeByte_next (hin : s.ph.isInput = true) (b : Byte) : ∃ t, takeByte b s = .next t := by
  have hcounted : s.cnt.toNat < s.fieldSize → ∃ t, takeByte b s = .next t := fun hcnt => by
    by_cases hoff : s.off = Config.maxOff
    · exact ⟨_, takeByte_of_maxOff hcnt hoff b⟩
    · exact ⟨_, (takeToken_byte hin h.used b (tokWord (.b b))).symm.trans (take_counted b _ hin h.used hcnt hoff)⟩
  have hphase := h.phase
  cases hph : s.ph
  case sig =>
    obtain ⟨-, -, hcnt⟩ := (phaseOk_sig hph).mp hphase
    exact hcounted (by rwa [fieldSize_of_sig hph])
  case len =>
    obtain ⟨-, hcnt⟩ := (phaseOk_len hph).mp hphase
    exact hcounted (by rwa [fieldSize_of_len hph])
  case type =>
    obtain ⟨-, -, -, hcnt⟩ := (phaseOk_type hph).mp hphase
    exact hcounted (by rwa [fieldSize_of_type hph])
  case data =>
    obtain ⟨-, -, -, hcnt⟩ := (phaseOk_data hph).mp hphase
    exact hcounted (by rwa [fieldSize_of_data hph])
  case crc =>
    obtain ⟨-, -, -, hcnt⟩ := (phaseOk_crc hph).mp hphase
    exact hcounted (by rwa [fieldSize_of_crc hph])
  case trail => exact ⟨s, takeByte_ignored (.inr hph) b⟩
  case drain => exact ⟨s, takeByte_ignored (.inl hph) b⟩
  case load => exact ⟨_, by rw [takeByte, hph]⟩
  all_goals
    rw [hph] at hin
    exact absurd hin Bool.false_ne_true

theorem takeEob_next : ∃ t, takeEob s = .next t := by
  cases hph : s.ph
  case drain =>
    have hphase := h.phase
    rw [PhaseOk, hph] at hphase
    obtain ⟨e, he⟩ := Option.isSome_iff_exists.mp hphase
    exact ⟨_, takeEob_drain hph he⟩
  all_goals exact ⟨_, by rw [takeEob, hph]⟩

theorem takeToken_next (hin : s.ph.isInput = true) (tok : Token) (w : TokWord) : ∃ t, takeToken tok w s = .next t := by
  cases tok with
  | b d =>
    rw [takeToken_byte hin h.used]
    exact takeByte_next h hin d
  | eob =>
    rw [takeToken_eob hin h.used]
    exact takeEob_next h

omit h in
theorem emitChunk_next {size : Chunk → Nat} (hp : ChunkField s.ph size) {c : Chunk} (hcnt : s.cnt.toNat < size c) :
    ∃ t, s.emitChunk c = .next t := by
  rcases hp with ⟨hph, rfl⟩ | ⟨hph, rfl⟩ | ⟨hph, rfl⟩ | ⟨hph, rfl⟩
  · exact ⟨_, (emitChunk_of_sLen hph).trans (emitField_inside _ hcnt)⟩
  · exact ⟨_, (emitChunk_of_sType hph).trans (emitField_inside _ hcnt)⟩
  · exact ⟨_, (emitChunk_of_sData hph).trans (emitField_inside _ hcnt)⟩
  · exact ⟨_, (emitChunk_of_sCrc hph).trans (emitField_inside _ hcnt)⟩

theorem emitter_next (he : s.ph.isEmitter = true) : ∃ t, step s = .next t := by
  have hused := h.used
  have hphase := h.phase
  cases hph : s.ph
  case sLen | sType | sData | sCrc =>
    obtain ⟨hser, size, hp, c, hc, -, hcnt⟩ := emitting_of_phase h (by simp [hph])
    rw [step_emitChunk hser (by simp [hph]) hc]
    exact emitChunk_next hp hcnt
  case sSig =>
    rw [PhaseOk, hph] at hphase
    obtain ⟨hcont, -, hcnt⟩ := hphase
    have hsome : s.cont.isNone = false := by rw [← Option.not_isSome, hcont]; rfl
    rw [step_of_emitter he, emitStep, hused, hph]
    simp only [hsome]
    exact ⟨_, emitField_inside _ hcnt⟩
  case sRaw =>
    rw [PhaseOk, hph] at hphase
    rw [step_of_emitter he, emitStep, hused, hph]
    show ∃ t, s.emitRaw = .next t
    exact ⟨_, by rw [State.emitRaw, List.getElem?_eq_getElem hphase]⟩
  case sEob => exact ⟨_, step_sEob hph (hph ▸ hused)⟩
  all_goals
    rw [hph] at he
    exact absurd he Bool.false_ne_true

end

/-- Settles O13: acceptance always gives a next state, and the registers fit the phase wherever a token is taken or emitted. -/
theorem invariantStateNeverStops : Obligations.InvariantStateNeverStops := by
  intro s h
  rcases step_cases s with ⟨-, -, heq⟩ | ⟨w, rest, -, -, heq⟩ | ⟨-, -, heq⟩ | ⟨w, rest, hin, -, heq⟩ | ⟨he, -⟩
  · exact ⟨s, heq⟩
  · obtain ⟨t, hexec, -⟩ := exec_decodeCmd_accepts { s with cmd := rest } w
    exact ⟨t, heq.trans hexec⟩
  · exact ⟨s, heq⟩
  · rw [heq]
    exact takeToken_next (h.withDin rest) hin _ _
  · exact emitter_next h he

end Sys2Proof.Machine
end

section
/-! PROOF. The CRC unit (40_crc.md R131 to R139): an iteration is linear with kernel 0, so the update is injective in the register and
in the byte, and a checksum sees one damaged byte. -/
namespace Sys2Proof.Machine

/-- Settles O16: the register is a fold over the bytes; the check values are evaluated. -/
theorem crcStreams : Obligations.CrcStreams :=
  ⟨fun c xs ys => (crcRun_crcRun c xs ys).symm, fun _ => rfl, by decide +kernel, by decide +kernel, by decide +kernel, by decide +kernel⟩

/-- An iteration loses no bit: bit 31 of its result is the bit that was shifted out. -/
theorem eq_zero_of_crcBit {x : Word} (h : crcBit x = 0) : x = 0 := by
  have hpoly : Config.poly.getLsbD 31 = true := by decide
  rw [crcBit] at h
  split at h
  · have hbit := congrArg (fun w : Word => w.getLsbD 31) h
    simp only [BitVec.getLsbD_xor, BitVec.getLsbD_ushiftRight, hpoly] at hbit
    simp at hbit
  next hlow =>
    refine BitVec.eq_of_getLsbD_eq fun i hi => ?_
    cases i with
    | zero => simpa using hlow
    | succ i => simpa [Nat.add_comm 1 i] using congrArg (fun w : Word => w.getLsbD i) h

theorem eq_zero_of_crcBits {n : Nat} {x : Word} (h : crcBits n x = 0) : x = 0 := by
  induction n generalizing x with
  | zero => exact h
  | succ n ih => exact eq_zero_of_crcBit (ih h)

theorem crcBits_injective (n : Nat) : Function.Injective (crcBits n) := fun x y h =>
  BitVec.xor_eq_zero_iff.mp (eq_zero_of_crcBits (n := n) (by rw [crcBits_xor, h, BitVec.xor_self]; rfl))

theorem xor_right_cancel {n : Nat} {x y z : BitVec n} (h : x ^^^ z = y ^^^ z) : x = y := BitVec.xor_left_inj z |>.mp h

theorem crcUpd_injective (b : Byte) : Function.Injective (fun c : Word => crcUpd c b) := fun _ _ h =>
  xor_right_cancel (crcBits_injective 8 h)

/-- Settles O18: an injective map of the finitely many register values is a bijection. -/
theorem crcStepIsLinearAndBijective : Obligations.CrcStepIsLinearAndBijective :=
  ⟨fun _ _ => rfl, by decide +kernel, crcBits_xor 8, fun b => Finite.injective_iff_bijective.mp (crcUpd_injective b)⟩

/-! ## A damaged byte -/

theorem crcUpd_byte_ne {b b' : Byte} (h : b ≠ b') (c : Word) : crcUpd c b ≠ crcUpd c b' := fun heq => by
  have hword : b.setWidth 32 = b'.setWidth 32 := (BitVec.xor_right_inj c).mp (crcBits_injective 8 heq)
  have hbyte := congrArg (fun w : Word => w.setWidth 8) hword
  simp only [BitVec.setWidth_setWidth_of_le _ (show 8 ≤ 32 by decide), BitVec.setWidth_eq] at hbyte
  exact h hbyte

theorem crcRun_injective (bs : List Byte) : Function.Injective (fun c : Word => crcRun c bs) := by
  induction bs with
  | nil => exact fun _ _ h => h
  | cons b bs ih => exact fun _ _ h => crcUpd_injective b (ih h)

theorem crc32_ne_of_byte_ne {b b' : Byte} (h : b ≠ b') (before after : List Byte) :
    crc32 (before ++ b :: after) ≠ crc32 (before ++ b' :: after) := by
  rw [crc32, crc32, ← crcRun_crcRun, ← crcRun_crcRun]
  exact fun heq => crcUpd_byte_ne h _ (crcRun_injective after (xor_right_cancel heq))

theorem parseChunk_of_crc_ne {c : Chunk} {x : Word} (hc : ChunkOk c) (hx : x ≠ chunkCrc c) :
    parseChunk (chunkFields c.ty c.data x) 0 = .fail .malformedChunk 3 := by
  rw [parseChunk, parseChunkWith_chunkFields (rest := []) (List.append_nil _).symm hc rfl, if_neg hx]
  rfl

/-- Settles O31: a damaged chunk has the same length, so the parse compares its CRC field with another checksum. -/
theorem damagedChunkIsRefused : Obligations.DamagedChunkIsRefused := by
  refine ⟨fun before after b b' h => crc32_ne_of_byte_ne h before after, fun c c' before after b b' hc h hfields hfields' => ?_,
    fun c x hc hx => parseChunk_of_crc_ne hc hx⟩
  have hlen : c'.data.length = c.data.length := by
    have h1 := congrArg List.length hfields
    have h2 := congrArg List.length hfields'
    simp only [List.length_append, List.length_cons, be32_length] at h1 h2
    omega
  refine parseChunk_of_crc_ne (by rw [ChunkOk, hlen]; exact hc) ?_
  rw [chunkCrc, chunkCrc, hfields, hfields']
  exact crc32_ne_of_byte_ne h before after

end Sys2Proof.Machine
end

section
/-! PROOF. The default `TextValid` (42_chunk.md R186): a well-formed sequence is one row of the table (`utf8Seq_iff`), the rows exclude
one another by their first bytes, so the walk over the bytes takes whole sequences. -/
namespace Sys2Proof.Machine

/-- The bytes `q` lie in the ranges `due`, one after another. -/
def InRanges (due : List (Byte × Byte)) (q : List Byte) : Prop := List.Forall₂ (fun r b => inRange r b = true) due q

theorem inRange_iff {r : Byte × Byte} {b : Byte} : inRange r b = true ↔ r.1.toNat ≤ b.toNat ∧ b.toNat ≤ r.2.toNat := by
  simp [inRange]

/-- The rows of the table exclude one another by the first byte. -/
theorem utf8Rows_disjoint : ∀ row ∈ utf8Rows, ∀ row' ∈ utf8Rows,
    row = row' ∨ row.1.2.toNat < row'.1.1.toNat ∨ row'.1.2.toNat < row.1.1.toNat := by decide

theorem utf8Follow_eq_some_iff {b : Byte} {due : List (Byte × Byte)} :
    utf8Follow b = some due ↔ ∃ first, (first, due) ∈ utf8Rows ∧ inRange first b = true := by
  rw [utf8Follow, Option.map_eq_some_iff]
  constructor
  · rintro ⟨row, hfind, rfl⟩
    have hin := List.find?_some hfind
    exact ⟨row.1, List.mem_of_find?_eq_some hfind, hin⟩
  · rintro ⟨first, hmem, hin⟩
    have hsome : (utf8Rows.find? (fun row => inRange row.1 b)).isSome = true := List.find?_isSome.mpr ⟨_, hmem, hin⟩
    obtain ⟨row, hfind⟩ := Option.isSome_iff_exists.mp hsome
    have hrow := List.find?_some hfind
    rw [inRange_iff] at hrow hin
    rcases utf8Rows_disjoint _ (List.mem_of_find?_eq_some hfind) _ hmem with heq | hlt | hlt
    · exact ⟨row, hfind, congrArg Prod.snd heq⟩
    · dsimp only at hlt; omega
    · dsimp only at hlt; omega

/-- With bytes due, the walk takes them and goes on with whole sequences. -/
theorem utf8Go_iff {due : List (Byte × Byte)} {bs : List Byte} :
    utf8Go due bs = true ↔ ∃ q rest, bs = q ++ rest ∧ InRanges due q ∧ utf8Go [] rest = true := by
  induction due generalizing bs with
  | nil =>
    constructor
    · exact fun h => ⟨[], bs, rfl, .nil, h⟩
    · rintro ⟨q, rest, rfl, hq, h⟩
      cases hq
      exact h
  | cons r due ih =>
    cases bs with
    | nil =>
      refine ⟨fun h => absurd h Bool.false_ne_true, ?_⟩
      rintro ⟨q, rest, hnil, hq, -⟩
      cases hq
      cases hnil
    | cons b bs =>
      rw [utf8Go, Bool.and_eq_true, ih]
      constructor
      · rintro ⟨hb, q, rest, rfl, hq, h⟩
        exact ⟨b :: q, rest, rfl, .cons hb hq, h⟩
      · rintro ⟨q, rest, hbs, hq, h⟩
        cases hq with
        | cons hb hq =>
          obtain ⟨rfl, rfl⟩ := List.cons.inj hbs
          exact ⟨hb, _, rest, rfl, hq, h⟩

/-- A well-formed sequence is one row of the table (42_chunk.md R186). -/
def Utf8Row (q : List Byte) : Prop := ∃ row ∈ utf8Rows, InRanges (row.1 :: row.2) q

theorem utf8Seq_iff (q : List Byte) : Utf8Seq q ↔ Utf8Row q := by
  match q with
  | [] => simp [Utf8Seq, Utf8Row, utf8Rows, InRanges]
  | [a] => simp [Utf8Seq, Utf8Row, utf8Rows, InRanges, inRange_iff]
  | [a, b] => simp [Utf8Seq, Utf8Row, utf8Rows, InRanges, inRange_iff, and_assoc]
  | [a, b, c] => simp [Utf8Seq, Utf8Row, utf8Rows, InRanges, inRange_iff]; omega
  | [a, b, c, d] => simp [Utf8Seq, Utf8Row, utf8Rows, InRanges, inRange_iff]; omega
  | a :: b :: c :: d :: e :: q => simp [Utf8Seq, Utf8Row, utf8Rows, InRanges]

/-- The walk accepts exactly the concatenations of rows. -/
theorem utf8Valid_iff (bs : List Byte) : utf8Valid bs = true ↔ ∃ qs : List (List Byte), bs = qs.flatten ∧ ∀ q ∈ qs, Utf8Row q := by
  constructor
  · induction hn : bs.length using Nat.strong_induction_on generalizing bs with
    | _ n ih =>
      cases bs with
      | nil => exact fun _ => ⟨[], rfl, nofun⟩
      | cons b bs =>
        intro h
        rw [utf8Valid, utf8Go] at h
        cases hfollow : utf8Follow b with
        | none => rw [hfollow] at h; exact absurd h Bool.false_ne_true
        | some due =>
          rw [hfollow] at h
          obtain ⟨first, hmem, hb⟩ := utf8Follow_eq_some_iff.mp hfollow
          obtain ⟨q, rest, rfl, hq, hrest⟩ := utf8Go_iff.mp h
          obtain ⟨qs, rfl, hqs⟩ := ih rest.length (by rw [← hn]; simp) rest rfl hrest
          exact ⟨(b :: q) :: qs, rfl, List.forall_mem_cons.mpr ⟨⟨_, hmem, .cons hb hq⟩, hqs⟩⟩
  · rintro ⟨qs, rfl, hqs⟩
    induction qs with
    | nil => rfl
    | cons q qs ih =>
      obtain ⟨⟨row, hmem, hq⟩, hrest⟩ := List.forall_mem_cons.mp hqs
      clear hqs
      cases hq with
      | cons hb hq =>
        rw [List.flatten_cons, List.cons_append, utf8Valid, utf8Go, utf8Follow_eq_some_iff.mpr ⟨_, hmem, hb⟩]
        exact utf8Go_iff.mpr ⟨_, _, rfl, hq, ih hrest⟩

/-- No range of the table reaches `C0`, `C1` or `F5` and above. -/
theorem utf8Rows_bytes : utf8Rows.all (fun row => (row.1 :: row.2).all fun r =>
    decide (r.2.toNat < 0xF5 ∧ (r.2.toNat < 0xC0 ∨ 0xC1 < r.1.toNat))) = true := by decide

theorem Utf8Row.byte {q : List Byte} (h : Utf8Row q) {b : Byte} (hb : b ∈ q) : b ≠ 0xC0#8 ∧ b ≠ 0xC1#8 ∧ b.toNat < 0xF5 := by
  obtain ⟨row, hmem, hq⟩ := h
  obtain ⟨i, hi, rfl⟩ := List.mem_iff_getElem.mp hb
  have hi' : i < (row.1 :: row.2).length := by rw [hq.length_eq]; exact hi
  have hrange := inRange_iff.mp (List.forall₂_iff_get.mp hq |>.2 i hi' hi)
  have hbytes := of_decide_eq_true (List.all_eq_true.mp (List.all_eq_true.mp utf8Rows_bytes row hmem) _ (List.getElem_mem hi'))
  simp only [List.get_eq_getElem] at hrange
  refine ⟨fun h => ?_, fun h => ?_, by omega⟩
  all_goals
    rw [h] at hrange
    simp at hrange
    omega

/-- Settles O29. -/
theorem defaultTextIsWellFormedUtf8 : Obligations.DefaultTextIsWellFormedUtf8 := by
  refine ⟨fun p => ?_, fun bs => ⟨?_, fun h b hb => ?_⟩⟩
  · cases p with
    | utf8 => decide
    | other n => rfl
  · simp only [utf8Seq_iff]
    exact utf8Valid_iff bs
  · obtain ⟨qs, rfl, hqs⟩ := (utf8Valid_iff bs).mp h
    obtain ⟨q, hq, hbq⟩ := List.mem_flatten.mp hb
    exact (hqs q hq).byte hbq

end Sys2Proof.Machine
end

section
/-! PROOF. The parsers at the function level (42_chunk.md R175, R176; 43_framer.md R200 to R226): `parse_chunk` by its cases, the
signature test, and that limits which are never met leave no trace (`parseLoop_of_unlimited`). -/
namespace Sys2Proof.Machine

/-! ## `parse_chunk` -/

theorem toNat_append_eq_add {n m : Nat} (x : BitVec n) (y : BitVec m) : (x ++ y).toNat = x.toNat * 2 ^ m + y.toNat := by
  rw [BitVec.toNat_append, ← Nat.shiftLeft_add_eq_or_of_lt y.isLt, Nat.shiftLeft_eq]

/-- The big-endian value of four bytes (30_encoding.md R97). -/
theorem toNat_rd32 (b0 b1 b2 b3 : Byte) :
    (rd32 b0 b1 b2 b3).toNat = b0.toNat * 2 ^ 24 + b1.toNat * 2 ^ 16 + b2.toNat * 2 ^ 8 + b3.toNat := by
  rw [rd32_append, toNat_append_eq_add, toNat_append_eq_add, toNat_append_eq_add]
  omega

theorem parseChunk_of_short {buf : List Byte} (h : buf.length < 4) : parseChunk buf 0 = .fail .malformedChunk 1 := if_pos h

section
variable {n : Word} {body : List Byte}

theorem parseChunk_of_too_large (h : Config.maxLen < n.toNat) : parseChunk (be32 n ++ body) 0 = .fail .malformedChunk 2 := by
  simp [parseChunk, parseChunkWith, h, subLengthTooLarge]

theorem parseChunk_of_truncated (h : ¬Config.maxLen < n.toNat) (htrunc : body.length < 8 + n.toNat) :
    parseChunk (be32 n ++ body) 0 = .fail .malformedChunk 1 := by
  have hshort : 4 + body.length < 12 + n.toNat := by omega
  simp [parseChunk, parseChunkWith, h, hshort, noLimits, Limits.fits, withinCap, subTruncated]

theorem parseChunk_of_complete (h : ¬Config.maxLen < n.toNat) (hlen : ¬body.length < 8 + n.toNat) :
    parseChunk (be32 n ++ body) 0 =
      if be32 (crc32 (body.take (4 + n.toNat))) = (body.drop (4 + n.toNat)).take 4 then
        .ok { ty := wordOfBytes body, data := (body.drop 4).take n.toNat } (12 + n.toNat)
      else .fail .malformedChunk 3 := by
  have hfull : 12 + (wordOfBytes (be32 n ++ body)).toNat ≤ (be32 n ++ body).length := by
    rw [wordOfBytes_be32_append, List.length_append, be32_length]
    omega
  obtain ⟨ty, data, x, rest, hbuf, hdata⟩ := exists_chunkFields_append hfull
  rw [wordOfBytes_be32_append] at hdata
  have hbody : body = be32 ty ++ (data ++ (be32 x ++ rest)) := by
    have hdrop := congrArg (List.drop 4) hbuf
    rwa [chunkFields_append, drop_four_be32_append, drop_four_be32_append] at hdrop
  have hok : ChunkOk ⟨ty, data⟩ := by rw [ChunkOk, hdata]; omega
  have hcovered : body.take (4 + data.length) = be32 ty ++ data := by
    rw [hbody, ← List.append_assoc, List.take_left' (by simp)]
  have hfield : (body.drop (4 + data.length)).take 4 = be32 x := by
    rw [hbody, ← List.append_assoc, List.drop_left' (by simp)]
    rfl
  have hcrc : be32 (crc32 (be32 ty ++ data)) = be32 x ↔ x = chunkCrc ⟨ty, data⟩ :=
    ⟨fun heq => by rw [← wordOfBytes_be32 x, ← heq, wordOfBytes_be32]; rfl, fun heq => by rw [heq]; rfl⟩
  rw [hbuf, parseChunk, parseChunkWith_chunkFields (c := ⟨ty, data⟩) (rest := rest) rfl hok rfl, ← hdata, hcovered, hfield]
  simp only [hcrc]
  rw [hbody, wordOfBytes_be32_append, drop_four_be32_append, List.take_left, Nat.zero_add]
  rfl

end

/-- Settles O24: the tests in order, on the value of the first four bytes. -/
theorem parseChunkByCases : Obligations.ParseChunkByCases := by
  refine ⟨fun buf => parseChunk_of_short, fun b0 b1 b2 b3 body => ?_⟩
  have hbuf : b0 :: b1 :: b2 :: b3 :: body = be32 (rd32 b0 b1 b2 b3) ++ body := by rw [be32_rd32]; rfl
  dsimp only
  rw [hbuf, ← toNat_rd32]
  split
  next hmax => exact parseChunk_of_too_large hmax
  next hmax =>
    split
    next htrunc => exact parseChunk_of_truncated hmax htrunc
    next hlen => exact parseChunk_of_complete hmax hlen

/-- What a parse of one chunk can fail with (42_chunk.md R176, 43_framer.md R226). -/
theorem parseChunkWith_fail {lim : Limits} {used o : Nat} {buf : List Byte} {st : Status} {sub : Byte}
    (h : parseChunkWith lim used buf o = .fail st sub) :
    (st = .malformedChunk ∧ sub ∈ [1#8, 2#8, 3#8]) ∨ (st = .capacityExceeded ∧ sub = 0 ∧ ∃ n, lim.fits n = false) := by
  simp only [parseChunkWith] at h
  split_ifs at h with h4 hmax hfits htrunc hcrc
  all_goals obtain ⟨rfl, rfl⟩ := ChunkResult.fail.inj h
  · exact .inl ⟨rfl, by decide⟩
  · exact .inl ⟨rfl, by decide⟩
  · exact .inr ⟨rfl, rfl, _, by simpa using hfits⟩
  · exact .inl ⟨rfl, by decide⟩
  · exact .inl ⟨rfl, by decide⟩

/-- What the loop of `parse` can fail with (43_framer.md R205, R226). -/
theorem parseLoop_fail {lim : Limits} {buf : List Byte} {k o : Nat} {acc : List Chunk} {st : Status} {sub : Byte} {k' o' : Nat}
    (h : parseLoop lim buf k o acc = .fail st sub k' o') :
    (st = .malformedChunk ∧ sub ∈ [1#8, 2#8, 3#8])
      ∨ (st = .capacityExceeded ∧ sub = 0 ∧ ∃ n, lim.fits n = false ∨ lim.full n = true) := by
  induction k generalizing o acc with
  | zero => cases h
  | succ k ih =>
    rw [parseLoop] at h
    split at h
    · split at h
      · split at h
        next hfull =>
          obtain ⟨rfl, rfl, -, -⟩ := ParseResult.fail.inj h
          exact .inr ⟨rfl, rfl, _, .inr hfull⟩
        · exact ih h
      next hchunk =>
        obtain ⟨rfl, rfl, -, -⟩ := ParseResult.fail.inj h
        exact (parseChunkWith_fail hchunk).imp_right fun ⟨hst, hsub, n, hfits⟩ => ⟨hst, hsub, n, .inl hfits⟩
    · cases h

theorem parseWith_fail {lim : Limits} {buf : List Byte} {st : Status} {sub : Byte} {k o : Nat}
    (h : parseWith lim buf = .fail st sub k o) :
    (st = .invalidSignature ∧ sub ∈ [1#8, 2#8]) ∨ (st = .malformedChunk ∧ sub ∈ [1#8, 2#8, 3#8])
      ∨ (st = .capacityExceeded ∧ sub = 0 ∧ ∃ n, lim.fits n = false ∨ lim.full n = true) := by
  rw [parseWith] at h
  split_ifs at h
  · obtain ⟨rfl, rfl, -, -⟩ := ParseResult.fail.inj h
    exact .inl ⟨rfl, by decide⟩
  · obtain ⟨rfl, rfl, -, -⟩ := ParseResult.fail.inj h
    exact .inl ⟨rfl, by decide⟩
  · exact .inr (parseLoop_fail h)

/-! ## The signature -/

/-- The signature test compares the bytes that are present (43_framer.md R211). -/
theorem sig_matches_iff (buf : List Byte) :
    buf.take 8 = Config.sig.take buf.length ↔ ∀ k, k < 8 → k < buf.length → buf[k]? = Config.sig[k]? := by
  rw [List.ext_getElem?_iff]
  simp only [List.getElem?_take]
  constructor
  · intro h k hk hlen
    simpa [hk, hlen] using h k
  · intro h k
    by_cases hk : k < 8 <;> by_cases hlen : k < buf.length
    · simpa [hk, hlen] using h k hk hlen
    · simp [hlen]
    · simp [hk, hlen, List.getElem?_eq_none (show Config.sig.length ≤ k from Nat.not_lt.mp hk)]
    · simp [hk, hlen]

/-- Settles O34: a differing byte is found before the length is tested, and after the signature only chunks fail. -/
theorem parseTestsTheSignatureFirst : Obligations.ParseTestsTheSignatureFirst := by
  refine fun buf => ⟨fun ⟨k, hk, hlen, hne⟩ => ?_, fun hall hlen => ?_, ?_⟩
  · exact if_pos fun heq => hne ((sig_matches_iff buf).mp heq k hk hlen)
  · rw [parse, parseWith, if_neg (not_not.mpr ((sig_matches_iff buf).mpr hall)), if_pos hlen]
    rfl
  · rintro rest rfl sub k o h
    have hlen : 8 ≤ (Config.sig ++ rest).length := Nat.le_add_left 8 rest.length
    have hsig : (Config.sig ++ rest).take 8 = Config.sig.take (Config.sig ++ rest).length := (List.take_of_length_le hlen).symm
    rw [parse, parseWith, if_neg (not_not.mpr hsig), if_neg (Nat.not_lt.mpr hlen)] at h
    rcases parseLoop_fail h with ⟨hst, -⟩ | ⟨hst, -⟩ <;> cases hst

/-! ## Limits that are never met -/

section
variable {lim : Limits} (hfits : ∀ n, lim.fits n = true)
include hfits

theorem parseChunkWith_of_fits (used : Nat) (buf : List Byte) (o : Nat) : parseChunkWith lim used buf o = parseChunk buf o := by
  have hnone : ∀ n, noLimits.fits n = true := fun _ => rfl
  simp only [parseChunk, parseChunkWith, hfits, hnone]

/-- Every chunk takes at least 12 bytes, so a limit on their number that the buffer cannot reach changes nothing. -/
theorem parseLoop_of_unlimited {buf : List Byte} (hfull : ∀ n, 12 * n ≤ buf.length → lim.full n = false) {k o : Nat} {acc : List Chunk}
    (hacc : 12 * acc.length ≤ o) : parseLoop lim buf k o acc = parseLoop noLimits buf k o acc := by
  induction k generalizing o acc with
  | zero => rfl
  | succ k ih =>
    rw [parseLoop, parseLoop, parseChunkWith_of_fits hfits, parseChunkWith_of_fits (lim := noLimits) fun _ => rfl]
    split
    next ho =>
      cases hchunk : parseChunk buf o with
      | fail st sub => rfl
      | ok c o' =>
        obtain ⟨-, rfl, -⟩ := parseChunkWith_ok hchunk
        have hroom : noLimits.full acc.length = false := rfl
        simp only [hfull acc.length (by omega), hroom]
        exact ih (by rw [List.length_append, List.length_singleton]; omega)
    · rfl

theorem parseWith_of_unlimited {buf : List Byte} (hfull : ∀ n, 12 * n ≤ buf.length → lim.full n = false) :
    parseWith lim buf = parse buf := by
  rw [parse, parseWith, parseWith, parseLoop_of_unlimited hfits hfull (Nat.zero_le _)]

end

theorem parse_fail_st {buf : List Byte} {st : Status} {sub : Byte} {k o : Nat} (h : parse buf = .fail st sub k o) :
    st ≠ .capacityExceeded := by
  rcases parseWith_fail h with ⟨rfl, -⟩ | ⟨rfl, -⟩ | ⟨-, -, n, hfits | hfull⟩
  · decide
  · decide
  · cases hfits
  · cases hfull

section
variable {a : Arch} (h : a.params.capBytes = none)
include h

theorem ckLimits_fits (n : Nat) : (ckLimits a).fits n = true := capFits_of_unbounded h _

theorem ctLimits_fits (n : Nat) : (ctLimits a).fits n = true := capFits_of_unbounded h _

/-- With the default limits a buffer below 2^32 bytes is parsed as without limits (43_framer.md R226). -/
theorem parseBounded_of_default (hcap : a.params.capChunks = 0xFFFFFFFF#32) {buf : List Byte} (hlen : buf.length < 2 ^ 32) :
    parseBounded (ctLimits a) buf = parse buf := by
  have hoff : buf.length ≤ Config.maxOff.toNat := by
    have : Config.maxOff.toNat = 2 ^ 64 - 1 := by decide
    omega
  have hfull : ∀ n, 12 * n ≤ buf.length → (ctLimits a).full n = false := fun n hn => by
    have : a.params.capChunks.toNat = 2 ^ 32 - 1 := by rw [hcap]; rfl
    simp only [Limits.full, ctLimits, decide_eq_false_iff_not]
    omega
  rw [parseBounded_eq, if_pos hoff, parseWith_of_unlimited (ctLimits_fits h) hfull]

end

/-- Settles O33. -/
theorem loadersFollowTheRules : Obligations.LoadersFollowTheRules := by
  refine fun a hbytes => ⟨fun tc buf => ?_, fun buf => ?_, fun hcap buf hlen => ?_⟩
  · rw [fnCkMake_eq]
    by_cases hmax : Config.maxLen < buf.length
    · rw [if_pos hmax, if_neg fun hle => absurd hmax (Nat.not_lt.mpr hle.1), capFits_of_unbounded hbytes]
      rfl
    · rw [if_neg hmax, if_pos ⟨Nat.not_lt.mp hmax, .inr (capFits_of_unbounded hbytes _)⟩]
      rfl
  · rw [fnCkParse_eq, parseChunkWith_of_fits (ckLimits_fits hbytes)]
    cases parseChunk buf 0 <;> rfl
  · rw [fnCtParse_eq, parseBounded_of_default hbytes hcap hlen]
    cases parse buf <;> rfl

end Sys2Proof.Machine
end

section
/-! PROOF. The status matrix (60_exceptions.md R315): what each command answers, case by case, and that with the default parameters,
a short buffer and a container that is not full no capacity is ever met (`Roomy`). -/
namespace Sys2Proof.Machine

/-- No capacity can be met: the parameters are the defaults, the buffer is below 2^32 bytes and the container below 2^32 - 1 chunks
(60_exceptions.md R312). -/
structure Roomy (a : Arch) (buf : List Byte) : Prop where
  params : a.params = Config.defaultParams
  buf : buf.length < 2 ^ 32
  cont : ∀ cs, a.cont = some cs → cs.length < 2 ^ 32 - 1

/-- The response `r` has a status of the row `sts`, a sub-cause of that status, and is no capacity failure when `roomy` holds. -/
structure InRow (roomy : Prop) (sts : List Status) (r : Rsp) : Prop where
  sub : r.sub ∈ subsOf r.st
  st : r.st ∈ sts
  capacity : roomy → r.st ≠ .capacityExceeded

section
variable {a : Arch} {buf : List Byte} {sts : List Status}

theorem inRow_of_sub {roomy : Prop} {st : Status} {sub : Byte} {idx : Word} {off : Off} {val : Word} (hsub : sub ∈ subsOf st)
    (h : st ∈ sts ∧ st ≠ .capacityExceeded) : InRow roomy sts (mkRsp st sub idx off val) :=
  ⟨hsub, h.1, fun _ => h.2⟩

/-- A response without sub-cause that is no capacity failure. -/
theorem inRow_plain {roomy : Prop} {st : Status} {idx : Word} {off : Off} {val : Word}
    (h : 0#8 ∈ subsOf st ∧ st ∈ sts ∧ st ≠ .capacityExceeded) : InRow roomy sts (mkRsp st 0 idx off val) :=
  inRow_of_sub h.1 h.2

/-- A capacity failure, where none can be met. -/
theorem inRow_capacity {roomy : Prop} {idx : Word} (hmem : .capacityExceeded ∈ sts) (hnot : ¬roomy) :
    InRow roomy sts (mkRsp .capacityExceeded (idx := idx)) :=
  ⟨List.mem_singleton_self _, hmem, fun h => absurd h hnot⟩

theorem Roomy.unbounded (h : Roomy a buf) : a.params.capBytes = none := by rw [h.params]; rfl

theorem Roomy.not_of_bytes {n : Nat} (h : capFits a.params n = false) : ¬Roomy a buf := fun hroomy =>
  Bool.false_ne_true (h.symm.trans (capFits_of_unbounded hroomy.unbounded n))

theorem inRow_ok {roomy : Prop} {val : Word} : InRow roomy [.ok] (mkRsp .ok (val := val)) := inRow_plain (by decide)

theorem inRow_badOpcode {roomy : Prop} {val : Word} : InRow roomy [.badOpcode] (mkRsp .badOpcode (val := val)) :=
  inRow_plain (by decide)

theorem fnTyCheck_row (tc : Word) : InRow (Roomy a buf) [.ok, .invalidChunkType] (fnTyCheck a tc).rsp := by
  rw [fnTyCheck]
  split
  · exact inRow_of_sub (by decide) (by decide)
  · split
    · exact inRow_of_sub (by decide) (by decide)
    · exact inRow_plain (by decide)

theorem fnCrcCalc_row : InRow (Roomy a buf) [.ok, .capacityExceeded] (fnCrcCalc a buf).rsp := by
  have hmax : Config.maxOff.toNat = 2 ^ 64 - 1 := by decide
  rw [fnCrcCalc]
  split
  · exact inRow_capacity (by decide) fun h => by have := h.buf; omega
  · exact inRow_plain (by decide)

/-! ## The loaders -/

theorem fnCkMake_row (tc : Word) : InRow (Roomy a buf) [.ok, .lengthOverflow, .capacityExceeded] (fnCkMake a tc buf).rsp := by
  rw [fnCkMake_eq]
  split
  · exact inRow_plain (by decide)
  · dsimp only
    split
    · exact inRow_plain (by decide)
    next hfits => exact inRow_capacity (by decide) (Roomy.not_of_bytes (Bool.eq_false_iff.mpr hfits))

theorem fnCkParse_row : InRow (Roomy a buf) [.ok, .malformedChunk, .capacityExceeded] (fnCkParse a buf).rsp := by
  rw [fnCkParse_eq]
  cases hparse : parseChunkWith (ckLimits a) 0 buf 0 with
  | ok c o => exact inRow_plain (by decide)
  | fail st sub =>
    rcases parseChunkWith_fail hparse with ⟨rfl, hsub⟩ | ⟨rfl, rfl, n, hfits⟩
    · exact inRow_of_sub hsub (by decide)
    · exact inRow_capacity (by decide) (Roomy.not_of_bytes hfits)

/-- What a parse can fail with, with its sub-causes (60_exceptions.md R308). -/
def ParseFailure (st : Status) (sub : Byte) : Prop :=
  sub ∈ subsOf st ∧ st ∈ [Status.ok, .invalidSignature, .malformedChunk, .capacityExceeded]

theorem parseWith_failure {lim : Limits} {bs : List Byte} {st : Status} {sub : Byte} {k o : Nat}
    (h : parseWith lim bs = .fail st sub k o) : ParseFailure st sub := by
  rcases parseWith_fail h with ⟨rfl, hsub⟩ | ⟨rfl, hsub⟩ | ⟨rfl, rfl, -⟩
  · exact ⟨hsub, by decide⟩
  · exact ⟨hsub, by decide⟩
  · exact ⟨by decide, by decide⟩

theorem parseBounded_failure {lim : Limits} {st : Status} {sub : Byte} {k o : Nat} (h : parseBounded lim buf = .fail st sub k o) :
    ParseFailure st sub := by
  rw [parseBounded_eq] at h
  split at h
  · exact parseWith_failure h
  · cases hparse : parseWith lim (buf.take Config.maxOff.toNat) with
    | ok cs =>
      rw [hparse] at h
      obtain ⟨rfl, rfl, -, -⟩ := ParseResult.fail.inj h
      exact ⟨by decide, by decide⟩
    | fail st' sub' k' o' =>
      rw [hparse, cutShort] at h
      split at h
      · obtain ⟨rfl, rfl, -, -⟩ := ParseResult.fail.inj h
        exact ⟨by decide, by decide⟩
      · obtain ⟨rfl, rfl, -, -⟩ := ParseResult.fail.inj h
        exact parseWith_failure hparse

theorem fnCtParse_row :
    InRow (Roomy a buf) [.ok, .invalidSignature, .malformedChunk, .capacityExceeded] (fnCtParse a buf).rsp := by
  rw [fnCtParse_eq]
  cases hparse : parseBounded (ctLimits a) buf with
  | ok cs => exact inRow_plain (by decide)
  | fail st sub k o =>
    obtain ⟨hsub, hst⟩ := parseBounded_failure hparse
    refine ⟨hsub, hst, fun h => ?_⟩
    rw [parseBounded_of_default h.unbounded (by rw [h.params]; rfl) h.buf] at hparse
    exact parse_fail_st hparse

/-! ## The commands that take no buffer -/

variable (a)

theorem fnCkType_row : InRow (Roomy a buf) [.ok, .noChunk] (fnCkType a).rsp := by
  cases hck : a.ck with
  | none => rw [fnCkType_of_none hck]; exact inRow_plain (by decide)
  | some c => rw [fnCkType_of_some hck]; exact inRow_plain (by decide)

theorem fnCkLen_row : InRow (Roomy a buf) [.ok, .noChunk] (fnCkLen a).rsp := by
  cases hck : a.ck with
  | none => rw [fnCkLen_of_none hck]; exact inRow_plain (by decide)
  | some c => rw [fnCkLen_of_some hck]; exact inRow_plain (by decide)

theorem fnCkCrc_row : InRow (Roomy a buf) [.ok, .noChunk] (fnCkCrc a).rsp := by
  cases hck : a.ck with
  | none => rw [fnCkCrc_of_none hck]; exact inRow_plain (by decide)
  | some c => rw [fnCkCrc_of_some hck]; exact inRow_plain (by decide)

theorem fnCkSer_row : InRow (Roomy a buf) [.ok, .noChunk] (fnCkSer a).rsp := by
  cases hck : a.ck with
  | none => rw [fnCkSer_of_none hck]; exact inRow_plain (by decide)
  | some c => rw [fnCkSer_of_some hck]; exact inRow_plain (by decide)

theorem fnCkData_row : InRow (Roomy a buf) [.ok, .noChunk] (fnCkData a).rsp := by
  cases hck : a.ck with
  | none => rw [fnCkData_of_none hck]; exact inRow_plain (by decide)
  | some c => rw [fnCkData_of_some hck]; exact inRow_plain (by decide)

theorem fnCkText_row : InRow (Roomy a buf) [.ok, .noChunk, .invalidEncoding] (fnCkText a).rsp := by
  cases hck : a.ck with
  | none => rw [fnCkText_of_none hck]; exact inRow_plain (by decide)
  | some c =>
    cases htext : textValid a.params.text c.data with
    | false => rw [fnCkText_of_invalid hck htext]; exact inRow_plain (by decide)
    | true => rw [fnCkText_of_valid hck htext]; exact inRow_plain (by decide)

theorem fnCtSer_row : InRow (Roomy a buf) [.ok, .noContainer] (fnCtSer a).rsp := by
  cases hcont : a.cont with
  | none => rw [fnCtSer_of_none hcont]; exact inRow_plain (by decide)
  | some cs => rw [fnCtSer_of_some hcont]; exact inRow_plain (by decide)

theorem fnCtList_row : InRow (Roomy a buf) [.ok, .noContainer] (fnCtList a).rsp := by
  cases hcont : a.cont with
  | none => rw [fnCtList_of_none hcont]; exact inRow_plain (by decide)
  | some cs => rw [fnCtList_of_some hcont]; exact inRow_plain (by decide)

theorem fnCtCount_row : InRow (Roomy a buf) [.ok, .noContainer] (fnCtCount a).rsp := by
  cases hcont : a.cont with
  | none => rw [fnCtCount_of_none hcont]; exact inRow_plain (by decide)
  | some cs => rw [fnCtCount_of_some hcont]; exact inRow_plain (by decide)

theorem fnCtFind_row (tc pos : Word) : InRow (Roomy a buf) [.ok, .notFound, .noContainer] (fnCtFind a tc pos).rsp := by
  cases hcont : a.cont with
  | none => rw [fnCtFind_of_none hcont]; exact inRow_plain (by decide)
  | some cs =>
    cases hfind : findFrom cs tc pos.toNat with
    | none => rw [fnCtFind_of_absent hcont hfind]; exact inRow_plain (by decide)
    | some i => rw [fnCtFind_of_found hcont hfind]; exact inRow_plain (by decide)

theorem fnCtRemove_row (tc : Word) : InRow (Roomy a buf) [.ok, .noContainer, .chunkNotFound] (fnCtRemove a tc).rsp := by
  cases hcont : a.cont with
  | none => rw [fnCtRemove_of_none hcont]; exact inRow_plain (by decide)
  | some cs =>
    cases hfind : findFrom cs tc 0 with
    | none => rw [fnCtRemove_of_absent hcont hfind]; exact inRow_plain (by decide)
    | some i =>
      obtain ⟨c, -, hremove⟩ := fnCtRemove_of_found hcont hfind
      rw [hremove]
      exact inRow_plain (by decide)

theorem fnCtGet_row (pos : Word) :
    InRow (Roomy a buf) [.ok, .noContainer, .badPosition, .capacityExceeded] (fnCtGet a pos).rsp := by
  cases hcont : a.cont with
  | none => rw [fnCtGet_of_none hcont]; exact inRow_plain (by decide)
  | some cs =>
    cases hget : cs[pos.toNat]? with
    | none => rw [fnCtGet_of_outside hcont hget]; exact inRow_plain (by decide)
    | some c =>
      rw [fnCtGet_of_inside hcont hget]
      split
      next hfits => exact inRow_capacity (by decide) (Roomy.not_of_bytes hfits)
      · exact inRow_plain (by decide)

variable {a}

/-- A container below 2^32 - 1 chunks has room for one more under the default parameters. -/
theorem storeAt_row {cs : List Chunk} (hcont : a.cont = some cs) (c : Chunk) (p : Nat) (hok : .ok ∈ sts)
    (hcap : .capacityExceeded ∈ sts) : InRow (Roomy a buf) sts (storeAt a cs c p).rsp := by
  rcases storeAt_cases a cs c p with ⟨hstore, hfull | hfits⟩ | ⟨hstore, -⟩ <;> rw [hstore]
  · refine inRow_capacity hcap fun h => ?_
    have hchunks : a.params.capChunks.toNat = 2 ^ 32 - 1 := by rw [h.params]; rfl
    have := h.cont cs hcont
    omega
  · exact inRow_capacity hcap (Roomy.not_of_bytes hfits)
  · exact inRow_plain ⟨by decide, hok, by decide⟩

theorem fnCtAppend_row : InRow (Roomy a buf) [.ok, .noContainer, .noChunk, .capacityExceeded] (fnCtAppend a).rsp := by
  cases hcont : a.cont with
  | none => rw [fnCtAppend_of_none hcont]; exact inRow_plain (by decide)
  | some cs =>
    cases hck : a.ck with
    | none => rw [fnCtAppend_of_noChunk hcont hck]; exact inRow_plain (by decide)
    | some c =>
      rw [fnCtAppend_of_some hcont hck]
      exact storeAt_row hcont c _ (by decide) (by decide)

theorem fnCtInsert_row (pos : Word) :
    InRow (Roomy a buf) [.ok, .noContainer, .noChunk, .badPosition, .capacityExceeded] (fnCtInsert a pos).rsp := by
  cases hcont : a.cont with
  | none => rw [fnCtInsert_of_none hcont]; exact inRow_plain (by decide)
  | some cs =>
    cases hck : a.ck with
    | none => rw [fnCtInsert_of_noChunk hcont hck]; exact inRow_plain (by decide)
    | some c =>
      rw [fnCtInsert_of_some hcont hck]
      split
      · exact inRow_plain (by decide)
      · exact storeAt_row hcont c _ (by decide) (by decide)

end

/-- Settles O49: the row of each command. -/
theorem statusMatrix : Obligations.StatusMatrix := by
  intro i a buf x h
  have of_row : ∀ {sts : List Status}, InRow (Roomy a buf) sts x.rsp → x.rsp.sub ∈ subsOf x.rsp.st ∧ x.rsp.st ∈ sts
      ∧ (a.params = Config.defaultParams → buf.length < 2 ^ 32 → (∀ cs, a.cont = some cs → cs.length < 2 ^ 32 - 1) →
        x.rsp.st ≠ .capacityExceeded) :=
    fun ⟨hsub, hst, hcap⟩ => ⟨hsub, hst, fun hparams hbuf hcont => hcap ⟨hparams, hbuf, hcont⟩⟩
  cases i
  case signature | chunk | token | rsp => cases h
  all_goals obtain rfl := Option.some.inj h; refine of_row ?_
  case nop | tyProps => exact inRow_ok
  case undefinedOp => exact inRow_badOpcode
  case crcCalc => exact fnCrcCalc_row
  case tyCheck tc => exact fnTyCheck_row tc
  case ckMake tc => exact fnCkMake_row tc
  case ckParse => exact fnCkParse_row
  case ckSer => exact fnCkSer_row a
  case ckType => exact fnCkType_row a
  case ckLen => exact fnCkLen_row a
  case ckCrc => exact fnCkCrc_row a
  case ckData => exact fnCkData_row a
  case ckText => exact fnCkText_row a
  case ctParse => exact fnCtParse_row
  case ctSer => exact fnCtSer_row a
  case ctAppend => exact fnCtAppend_row
  case ctInsert pos => exact fnCtInsert_row pos
  case ctFind tc pos => exact fnCtFind_row a tc pos
  case ctGet pos => exact fnCtGet_row a pos
  case ctRemove tc => exact fnCtRemove_row a tc
  case ctList => exact fnCtList_row a
  case ctCount => exact fnCtCount_row a

end Sys2Proof.Machine
end
